-- ==== Sys2Proof/Word.lean ====
section
/-! DEFINITION. The plain value types of the core (spec/00_scope.md R8, R9): bytes, 32-bit words and
bitstrings. Nothing in the core is signed (R8). -/

namespace Sys2Proof

/-- One byte of a memory, and one symbol (R15: a symbol is the unsigned byte value 0..255). -/
abbrev Byte := BitVec 8

/-- A host register, a command word or a host address (R23, R61, R90). -/
abbrev Word := BitVec 32

/-- A finite sequence of bits, `B[0]` first (R9). `true` is the bit 1. -/
abbrev Bitstring := List Bool

end Sys2Proof
end

