-- ==== Sys2Proof/Syntax.lean ====
section
/-! DEFINITION. The command set (spec/30_encoding.md R93), one constructor per row of spec/opcode_table.json.
A command word carries no operand (R92): every operand is implicit in the state. -/

namespace Sys2Proof

/-- The ten commands of the HF command set v1 (R93). -/
inductive Instr where
  /-- OPC 0x00, R241. -/
  | nop
  /-- OPC 0x01, R242. -/
  | clear
  /-- OPC 0x02, R111. -/
  | count
  /-- OPC 0x03, R137. -/
  | build
  /-- OPC 0x04, R161. -/
  | emit
  /-- OPC 0x05, R167. -/
  | encode
  /-- OPC 0x06, R213. -/
  | decode
  /-- OPC 0x07, R190. -/
  | pack
  /-- OPC 0x08, R193. -/
  | unpack
  /-- OPC 0x09, R195. -/
  | crc
  deriving DecidableEq, Repr

/-- Every command, in the order of the opcode map (R93). -/
def Instr.all : List Instr :=
  [.nop, .clear, .count, .build, .emit, .encode, .decode, .pack, .unpack, .crc]

end Sys2Proof
end

