-- ==== Sys2Proof/WellFormed.lean ====
section
/-! DEFINITION. What a well-formed command word is (spec/30_encoding.md R90). A term of `Instr` has no operand
fields (R92), so nothing about it can be ill-formed: the checks are on the word that is written to CMD. -/

namespace Sys2Proof

/-- The first check of R90: Z, bits [23:0], is zero. -/
def zFieldClear (w : Word) : Bool := w.toNat % 2 ^ 24 == 0

/-- The second check of R90: OPC, bits [31:24], is one of 0x00 .. 0x09; 0x0A .. 0xFF are reserved (R94). -/
def opcodeDefined (w : Word) : Bool := w.toNat / 2 ^ 24 ≤ 0x09

/-- A command word that selects one of the ten commands (R94: the decoder is total). -/
def commandWordWellFormed (w : Word) : Bool := zFieldClear w && opcodeDefined w

end Sys2Proof
end

