-- ==== Sys2Proof/Decode.lean ====
section
/-! DEFINITION. The decoder of command words, total on all 2^32 words and rejecting by name, and the encoder
(spec/30_encoding.md R90, R93, R94). -/

namespace Sys2Proof

/-- Why a word selects no command; both complete as ILLEGAL_CMD (R90, R94). -/
inductive DecodeReject where
  /-- Z is not zero: checked first (R90). -/
  | nonzeroZ (z : BitVec 24)
  /-- OPC is one of the reserved values 0x0A .. 0xFF (R94). -/
  | reservedOpcode (opc : BitVec 8)
  deriving DecidableEq, Repr

/-- OPC, bits [31:24] of a command word (R90). -/
def opcField (w : Word) : BitVec 8 := w.extractLsb' 24 8

/-- Z, bits [23:0] of a command word (R90). -/
def zField (w : Word) : BitVec 24 := w.extractLsb' 0 24

/-- The command of an operation code (R93), `none` for the reserved ones. -/
def instrOfOpcode (opc : BitVec 8) : Option Instr :=
  match opc.toNat with
  | 0x00 => some .nop
  | 0x01 => some .clear
  | 0x02 => some .count
  | 0x03 => some .build
  | 0x04 => some .emit
  | 0x05 => some .encode
  | 0x06 => some .decode
  | 0x07 => some .pack
  | 0x08 => some .unpack
  | 0x09 => some .crc
  | _ => none

/-- The decoder of R90: first Z, then OPC. -/
def decode (w : Word) : Except DecodeReject Instr :=
  if zField w ≠ 0 then .error (.nonzeroZ (zField w))
  else
    match instrOfOpcode (opcField w) with
    | some i => .ok i
    | none => .error (.reservedOpcode (opcField w))

/-- The operation code of a command (R93). -/
def opcodeOf : Instr → BitVec 8
  | .nop => 0x00
  | .clear => 0x01
  | .count => 0x02
  | .build => 0x03
  | .emit => 0x04
  | .encode => 0x05
  | .decode => 0x06
  | .pack => 0x07
  | .unpack => 0x08
  | .crc => 0x09

/-- The command word of R90: OPC in bits [31:24] and Z = 0 in bits [23:0]. -/
def encode (i : Instr) : Word := opcodeOf i ++ (0 : BitVec 24)

/-- The bits of a table row as the word a host writes to CMD: the low `nbits` bits of `w`, those above
zero; `none` where that is no 32-bit word (R91: every command is exactly 32 bits). -/
def tableWord (nbits w : Nat) : Option Word :=
  let v := w % 2 ^ nbits
  if v < 2 ^ 32 then some (BitVec.ofNat 32 v) else none

/-- What the decoder reads from a word numbered as spec/opcode_table.json numbers it. A command is one
register write (R91), so no byte order arises. -/
def decodeTableWord (nbits w : Nat) : Option Instr :=
  match tableWord nbits w with
  | some word =>
    match decode word with
    | .ok i => some i
    | .error _ => none
  | none => none

end Sys2Proof
end

