-- ==== Sys2Proof/Machine/Bits.lean ====
section
/-! DEFINITION. Bitstrings, bytes and byte order (spec/00_scope.md R9, R11, R12; spec/43_bit_packer_crc.md
R183, R184): the functions over plain data that the record rules and the register windows share. -/

namespace Sys2Proof.Machine

/-- `ceil_div(a, b)` for b > 0 (R12). -/
def ceilDiv (a b : Nat) : Nat := (a + (b - 1)) / b

/-- The byte of one bit character: 0x30 for '0', 0x31 for '1' (R9). -/
def asciiBit (b : Bool) : Byte := if b then 0x31 else 0x30

/-- `ascii(B)` (R9). -/
def ascii (B : Bitstring) : List Byte := B.map asciiBit

/-- A byte that is one of the two bit characters (spec/43_bit_packer_crc.md R190). -/
def isAsciiBit (b : Byte) : Bool := b == 0x30 || b == 0x31

/-- The number whose `n` binary digits, most significant first, are the first `n` bits of `B`; a bit past the
end of `B` counts 0 (the sum of R183 for n = 8). -/
def natOfBits : Nat → Bitstring → Nat
  | 0, _ => 0
  | _ + 1, [] => 0
  | n + 1, b :: B => (if b then 2 ^ n else 0) + natOfBits n B

/-- The first `n` bits of `B`, left-aligned and most-significant-bit first, zero-padded on the right (R183;
spec/10_state.md R44 for n = 32). -/
def msbFirst (n : Nat) (B : Bitstring) : BitVec n := BitVec.ofNat n (natOfBits n B)

/-- The first `n` groups of 8 bits of `B`, each as a byte. -/
def packGroups : Nat → Bitstring → List Byte
  | 0, _ => []
  | n + 1, B => msbFirst 8 B :: packGroups n (B.drop 8)

/-- `Pack(B)` (R183): ceil_div(len(B), 8) bytes, the short final group zero-padded on the right. -/
def packBits (B : Bitstring) : List Byte := packGroups (ceilDiv B.length 8) B

/-- The 8 bits of a byte, bit 7 first (R184). -/
def byteBits (b : Byte) : Bitstring := (List.range 8).map fun k => b.getLsbD (7 - k)

/-- `Unpack(P, L)` (R184): every byte expanded most-significant-bit first, truncated to `L` bits. -/
def unpackBits (P : List Byte) (L : Nat) : Bitstring := (P.flatMap byteBits).take L

/-- `le_bytes_n(v)`: n bytes, the least significant first (R11). -/
def leBytes : Nat → Nat → List Byte
  | 0, _ => []
  | n + 1, v => BitVec.ofNat 8 v :: leBytes n (v / 256)

/-- `be_bytes_n(v)`: the same sequence, most significant first (R11). -/
def beBytes (n v : Nat) : List Byte := (leBytes n v).reverse

/-- `from_le(b0 ..)` (R11). -/
def fromLe : List Byte → Nat
  | [] => 0
  | b :: bs => b.toNat + 256 * fromLe bs

/-- `from_be(b0 ..)` (R11). -/
def fromBe (bs : List Byte) : Nat := fromLe bs.reverse

/-- The bytes of a record field in the order CTRL.BE selects (spec/20_memory.md R71). -/
def fieldBytes (be : Bool) (n v : Nat) : List Byte := if be then beBytes n v else leBytes n v

/-- The value of a record field in the order CTRL.BE selects (spec/20_memory.md R71). -/
def fieldValue (be : Bool) (bs : List Byte) : Nat := if be then fromBe bs else fromLe bs

end Sys2Proof.Machine
end

