-- ==== Sys2Proof/Config.lean ====
section
/-! DEFINITION. What the spec leaves OPEN or unspecified: the implementation parameters (spec/00_scope.md R7)
and the free values (spec/93_implementation_defined.md U1 to U5). A free value is an opaque constant with no
body, applied to a draw number that `State` holds: no proof can learn which value it is. -/

namespace Sys2Proof

/-- The three byte-wide memory spaces (spec/20_memory.md R60). -/
inductive Space where
  | text
  | record
  | out
  deriving DecidableEq, Repr

/-- A code tree node, the tagged variant of spec/10_state.md R46. `left` and `right` are 9-bit arena
indices; `freq` is 32 bits unsigned. -/
inductive Node where
  | leaf (sym : Byte) (freq : Word)
  | internal (freq : Word) (left right : BitVec 9)
  deriving DecidableEq, Repr, Inhabited

/-- The two OPEN capacities of R7, which every machine carries as an argument. Each field holds the
capacity less one, so that the bounds 1 ≤ TEXT_CAP ≤ 2^28 and 1 ≤ PACK_CAP ≤ 2^25 hold by type. -/
structure Params where
  textCapPred : Fin 268435456
  packCapPred : Fin 33554432
  deriving DecidableEq, Repr, Inhabited

/-- The parameters of the machine that `State.reset` describes: OPEN, hence unknown (assumption log 1). -/
opaque Config.params : Params

/-- The byte a memory holds at an index nothing has written since its last draw (U1, U2, U3;
assumption log 2): the space, the number of the draw, the index. -/
opaque Config.freeByte : Space → Nat → Nat → Byte

/-- The contents of an arena entry no BUILD has written since reset (U4; assumption log 4): the number of
the draw, the index. -/
opaque Config.freeNode : Nat → Nat → Node

/-- LATENCY (U5; assumption log 5): how many of the host's inputs an accepted command lets pass before its
engine step, at most; the argument is the number of the draw. R310 lets LATENCY depend on the command and its
inputs; that it is a function of the draw number alone is the model's choice (DESIGN CHOICE, assumption log 5). -/
opaque Config.latency : Nat → Nat

end Sys2Proof
end

