-- ==== Sys2Proof/Machine/State.lean ====
section
/-! DEFINITION. The state of the core as the spec gives it (spec/10_state.md R21 to R51, spec/20_memory.md R60),
and around it the model's own fields: the host's inputs that are still to come, the bus response, the latency
and the draw counter. Fault and Refusal close the ways a step could stop. -/

namespace Sys2Proof.Machine

/-- The error codes of STATUS.ERR (spec/60_exceptions.md R260); 0x0C .. 0xFF are never produced. -/
inductive ErrCode where
  | ok
  | illegalCmd
  | lenRange
  | notReady
  | emptyInput
  | freqOverflow
  | noCode
  | badBit
  | packOverflow
  | malformedLen
  | malformedWalk
  | integrity
  deriving DecidableEq, Repr

/-- One byte-wide memory space (R60). `cells` lists the bytes written since the space last became
unspecified, addresses strictly rising; an unlisted index holds no known value and reads as the free byte of
the draw numbered `draw` (R68, R291; assumption log 2). -/
structure Memory where
  cells : List Host.Cell
  draw : Nat
  deriving DecidableEq, Repr

/-- The node arena (R46): `nodes` lists the entries from index 0 on that a BUILD has written since reset; the
others, up to entry 510, are unspecified and unobservable (R291; assumption log 4). -/
structure Arena where
  nodes : List Node
  draw : Nat
  deriving DecidableEq, Repr

/-- A table with one entry per symbol: FREQ and the code table (R45, R47). -/
abbrev Table (α : Type) := Vector α 256

/-- The size of a host transaction: 1, 2 or 4 bytes (spec/20_memory.md R61). -/
inductive AccessSize where
  | byte
  | half
  | word
  deriving DecidableEq, Repr

/-- The two host transactions of R61. -/
inductive Transaction where
  | read (addr : Word) (size : AccessSize)
  | write (addr : Word) (size : AccessSize) (value : Word)
  deriving DecidableEq, Repr

/-- The answer to a transaction (R61): a write's OK, a read's OK with data, or BUSERR, which carries no
data (R67). -/
inductive Response where
  | ok
  | data (value : Word)
  | busError
  deriving DecidableEq, Repr

/-- What the outside world does next. The model's own list `State.inputs` holds these, oldest first
(assumption log 6). -/
inductive HostInput where
  /-- One transaction of R61. -/
  | transaction (t : Transaction)
  /-- The loop of WAIT (spec/30_encoding.md R95): HostRead(0x008, 4) until bit [0] of the data is 0. -/
  | pollIdle
  /-- The second half of FLIPB (R96): HostWrite(addr, 1, d ^ mask), d being the data of the read before. -/
  | writeBackXor (addr : Word) (mask : Byte)
  /-- The reset input `rst` is driven to this level (spec/70_reset_and_hazards.md R290). -/
  | resetPin (level : Bool)
  deriving DecidableEq, Repr

/-- The whole state. The first block is the reset input and the host-visible registers of R22 (the window
registers and ID hold no storage), the second the tables and memories, the third the pending-command latch of
R49, the last the model's own fields. -/
structure State where
  /-- The implementation parameters of R7, fixed for a machine. -/
  params : Params
  /-- The reset input `rst` is asserted (R290). -/
  inReset : Bool
  /-- CTRL.IE (R26). -/
  ie : Bool
  /-- CTRL.CRCSRC (R26). -/
  crcsrc : Bool
  /-- CTRL.BE (R26). -/
  be : Bool
  /-- STATUS.BUSY (R27). -/
  busy : Bool
  /-- STATUS.DONE (R28). -/
  done : Bool
  /-- STATUS.TREE_VALID (R29). -/
  treeValid : Bool
  /-- STATUS.ERR (R30). -/
  err : ErrCode
  /-- CMD, the last accepted word (R24). -/
  cmd : Word
  /-- TEXT_LEN (R31). -/
  textLen : Word
  /-- REC_LEN (R32). -/
  recLen : Word
  /-- OUT_LEN (R33). -/
  outLen : Word
  /-- BITLEN, the 64 bits of BITLEN_HI and BITLEN_LO (R34). -/
  bitLen : BitVec 64
  /-- CRC_OUT (R35). -/
  crcOut : Word
  /-- ERRPOS (R36). -/
  errPos : Word
  /-- ROOT, bits [8:0] (R37). -/
  root : BitVec 9
  /-- NODE_COUNT, bits [9:0] (R38). -/
  nodeCount : BitVec 10
  /-- NODE_SEL, bits [8:0] (R39). -/
  nodeSel : BitVec 9
  /-- CODE_SEL, bits [7:0] (R42). -/
  codeSel : BitVec 8
  /-- The frequency counters FREQ[0..255] (R45). -/
  freq : Table Word
  /-- The node arena (R46). -/
  arena : Arena
  /-- The code table code[0..255] (R47): an entry's `bits`; its `len` is the bitstring's length. -/
  codes : Table Bitstring
  /-- TEXT (R60). -/
  textMem : Memory
  /-- REC (R60). -/
  recMem : Memory
  /-- OUT (R60). -/
  outMem : Memory
  /-- The pending-command latch (R49). -/
  pending : Option Word
  /-- The model's own: the host's inputs still to come, oldest first. -/
  inputs : List HostInput
  /-- The model's own: the response to the last transaction. -/
  response : Option Response
  /-- The model's own: how many more inputs the running command lets pass (LATENCY, R300). -/
  latencyLeft : Nat
  /-- The model's own: the number of the next draw of free values. -/
  draws : Nat
  deriving DecidableEq, Repr

/-- Why the machine could stop with a fault: never. Every command terminates and completes, whether it
succeeded or failed (R262, R265, R300), and every host transaction is answered (R61), so there is no
constructor and none is raised; that is safe, since the spec names no stop (spec/93: no behaviour of this core
is `stuck`). -/
inductive Fault where
  deriving DecidableEq, Repr

/-- Why a step could be refused. -/
inductive Refusal where
  /-- Raised only by an arm of `exec` for a command that has no meaning yet, and there is none; safe. -/
  | notModelled (mnemonic : String)
  deriving DecidableEq, Repr

/-- The reset values of spec/70_reset_and_hazards.md R291 for a machine with the parameters `p`, the
unspecified contents of the memories and the arena being those of draw `d`. -/
def State.resetWith (p : Params) (d : Nat) : State where
  params := p
  inReset := false
  ie := false
  crcsrc := false
  be := false
  busy := false
  done := false
  treeValid := false
  err := .ok
  cmd := 0
  textLen := 0
  recLen := 0
  outLen := 0
  bitLen := 0
  crcOut := 0
  errPos := 0
  root := 0
  nodeCount := 0
  nodeSel := 0
  codeSel := 0
  freq := Vector.replicate 256 0
  arena := ⟨[], d⟩
  codes := Vector.replicate 256 []
  textMem := ⟨[], d⟩
  recMem := ⟨[], d⟩
  outMem := ⟨[], d⟩
  pending := none
  inputs := []
  response := none
  latencyLeft := 0
  draws := d + 1

/-- The machine right after reset: idle, `rst` deasserted, no input to come (R290, R291). The draw numbers
are a DESIGN CHOICE (assumption log 3). -/
def State.reset : State := State.resetWith Config.params 0

end Sys2Proof.Machine
end

