-- ==== Sys2Proof/Machine/Ops.lean ====
section
/-! DEFINITION. The named operations over memories, tables and registers that the meanings share, and the
completion step of spec/60_exceptions.md R262, the core's form of taking an exception. -/

namespace Sys2Proof

/-! ### Capacities (spec/00_scope.md R7) -/

/-- TEXT_CAP, the byte capacity of TEXT (R7). -/
def Params.textCap (p : Params) : Nat := p.textCapPred.val + 1

/-- PACK_CAP, the largest packedBytes count of a record (R7). -/
def Params.packCap (p : Params) : Nat := p.packCapPred.val + 1

/-- REC_CAP = PACK_CAP + 12 (R7). -/
def Params.recCap (p : Params) : Nat := p.packCap + 12

/-- OUT_CAP = 8·PACK_CAP (R7). -/
def Params.outCap (p : Params) : Nat := 8 * p.packCap

/-- The capacity of a memory space (R60). -/
def Params.spaceCap (p : Params) : Space → Nat
  | .text => p.textCap
  | .record => p.recCap
  | .out => p.outCap

end Sys2Proof

namespace Sys2Proof.Machine

/-! ### Memories (spec/20_memory.md R60, R68) -/

/-- The value listed at index `i`, if one is. -/
def lookupCell (i : Nat) : List Host.Cell → Option Byte
  | [] => none
  | (j, c) :: cs => if i = j then some c else lookupCell i cs

/-- The list with the value `b` at index `i`, in rising order. -/
def insertCell (i : Nat) (b : Byte) : List Host.Cell → List Host.Cell
  | [] => [(i, b)]
  | (j, c) :: cs =>
    if i < j then (i, b) :: (j, c) :: cs
    else if i = j then (i, b) :: cs
    else (j, c) :: insertCell i b cs

/-- The canonical form of a memory: addresses strictly rising. An unlisted index reads as no known value
(`Memory.written?` gives `none`), which no listed byte equals. -/
abbrev Memory.wf (m : Memory) : Prop := m.cells.Pairwise fun a b => a.1 < b.1

/-- The byte last written at index `i`, `none` where nothing has been written since the draw (R68). -/
def Memory.written? (m : Memory) (i : Nat) : Option Byte := lookupCell i m.cells

/-- The byte a memory of the space `sp` holds at index `i`: the last one written, else the free byte of its
draw (R68). -/
def Memory.read (sp : Space) (m : Memory) (i : Nat) : Byte :=
  (m.written? i).getD (Config.freeByte sp m.draw i)

/-- The memory with byte `b` at index `i`. -/
def Memory.write (m : Memory) (i : Nat) (b : Byte) : Memory :=
  { m with cells := insertCell i b m.cells }

/-- The `n` bytes from index `i` on. -/
def Memory.readBytes (sp : Space) (m : Memory) (i : Nat) : Nat → List Byte
  | 0 => []
  | n + 1 => m.read sp i :: Memory.readBytes sp m (i + 1) n

/-- The memory with the bytes of a list stored from index `i` on, in order. -/
def Memory.writeBytes (m : Memory) (i : Nat) : List Byte → Memory
  | [] => m
  | b :: bs => (m.write i b).writeBytes (i + 1) bs

/-- A memory all of whose bytes are unspecified, of the draw `d` (R218, R291). -/
def Memory.unspecified (d : Nat) : Memory := ⟨[], d⟩

/-- The memory of a space (R60). -/
def State.mem (s : State) : Space → Memory
  | .text => s.textMem
  | .record => s.recMem
  | .out => s.outMem

/-- The state with the memory of one space replaced. -/
def State.setMem (s : State) (sp : Space) (m : Memory) : State :=
  match sp with
  | .text => { s with textMem := m }
  | .record => { s with recMem := m }
  | .out => { s with outMem := m }

/-- `MemRead(SP, i, 1)` (spec/00_scope.md R11). -/
def State.memRead (s : State) (sp : Space) (i : Nat) : Byte := (s.mem sp).read sp i

/-- `MemWrite(SP, i, 1, v)` for the bytes of a list, from index `i` on (spec/00_scope.md R11). -/
def State.memWrite (s : State) (sp : Space) (i : Nat) (bs : List Byte) : State :=
  s.setMem sp ((s.mem sp).writeBytes i bs)

/-! ### Tables and arena (spec/10_state.md R45 to R47) -/

/-- The 256 symbols in ascending order (spec/41_code_tree_builder.md R131). -/
def allSymbols : List Byte := (List.range 256).map fun n => BitVec.ofNat 8 n

/-- The entry of symbol `c`. -/
def Table.at {α : Type} (t : Table α) (c : Byte) : α := t[c.toNat]'c.isLt

/-- The table with the entry of symbol `c` replaced. -/
def Table.put {α : Type} (t : Table α) (c : Byte) (x : α) : Table α := t.set c.toNat x c.isLt

/-- The entries of a table with their symbols, in ascending symbol order. -/
def Table.entries {α : Type} (t : Table α) : List (Byte × α) := allSymbols.zip t.toList

/-- The table with the same entry everywhere. -/
def Table.all {α : Type} (x : α) : Table α := Vector.replicate 256 x

/-- FREQ all zero (R22). -/
def zeroFreq : Table Word := Table.all 0

/-- The code table of no symbol: every len is 0 (R47). -/
def noCodes : Table Bitstring := Table.all []

/-- `node[i]` (R46); an entry no BUILD has written is unspecified (spec/93 U4). -/
def State.node (s : State) (i : Nat) : Node :=
  (s.arena.nodes[i]?).getD (Config.freeNode s.arena.draw i)

/-- `node[i].freq` (R46). -/
def nodeFreq : Node → Word
  | .leaf _ f => f
  | .internal f _ _ => f

/-- `node[i].leaf` (R46). -/
def nodeIsLeaf : Node → Bool
  | .leaf _ _ => true
  | .internal _ _ _ => false

/-- The arena with node[0 .. n-1] overwritten by `ns` and every later entry kept (R132, R137). -/
def Arena.overwrite (a : Arena) (ns : List Node) : Arena :=
  { a with nodes := ns ++ a.nodes.drop ns.length }

/-! ### Completion, the core's trap entry (spec/60_exceptions.md R262) -/

/-- `Complete(E, p)`: every command, successful or not, ends with this step (R262). -/
def State.complete (s : State) (e : ErrCode) (p : Word) : State :=
  { s with err := e, errPos := p, done := true, busy := false, pending := none }

/-- How the body of a command ends (spec/00_scope.md R13): at its end, or by `raise E(p)`; either way with
the state its writes so far have made. -/
inductive CmdEnd where
  | finished (s : State)
  | raised (e : ErrCode) (p : Word) (s : State)
  deriving DecidableEq, Repr

/-- One stage after another: a raise stops the command at once, and what was written stays written
(spec/42_encoder.md R167). -/
def CmdEnd.andThen (r : CmdEnd) (stage : State → CmdEnd) : CmdEnd :=
  match r with
  | .finished s => stage s
  | .raised e p s => .raised e p s

/-- `on any raise: x[OUT_LEN] <- 0` (spec/43_bit_packer_crc.md R193, spec/44_decoder.md R213). -/
def CmdEnd.clearOutLenOnRaise : CmdEnd → CmdEnd
  | .finished s => .finished s
  | .raised e p s => .raised e p { s with outLen := 0 }

/-- The completion of a command's body (R13, R262). -/
def CmdEnd.complete : CmdEnd → State
  | .finished s => s.complete .ok 0
  | .raised e p s => s.complete e p

/-- What a meaning answers: the command always completes (R262, R300). -/
def CmdEnd.outcome (r : CmdEnd) : Host.Outcome State Fault Refusal := .next r.complete

/-- A word no command is decoded from completes as ILLEGAL_CMD with no other effect (spec/30_encoding.md
R90, R94). -/
def State.illegalCommand (s : State) : State := s.complete .illegalCmd 0

/-- The command word the engine executes: the pending latch, exactly while BUSY = 1 and `rst` is deasserted
(spec/10_state.md R27, R49; assumption log 9). -/
def State.fetched (s : State) : Option Word :=
  if s.busy && !s.inReset then s.pending else none

/-! ### Acceptance and reset -/

/-- A command word is accepted, in one step (spec/10_state.md R24). `lat` is the LATENCY of this command. -/
def State.accept (s : State) (w : Word) (lat : Nat) : State :=
  { s with cmd := w, busy := true, done := false, err := .ok, pending := some w, latencyLeft := lat }

/-- The state with the counter of free values advanced. -/
def State.nextDraw (s : State) : State := { s with draws := s.draws + 1 }

/-- Every OUT byte becomes unspecified, by a fresh draw (spec/44_decoder.md R218). -/
def State.redrawOut (s : State) : State :=
  { s with outMem := Memory.unspecified s.draws, draws := s.draws + 1 }

/-- `rst` is asserted: every piece of state takes its reset value, and a command that was running is abandoned
(spec/70_reset_and_hazards.md R290 to R292). The parameters, the inputs to come and the last response are not
the core's state; the unspecified contents are a fresh draw. -/
def State.assertReset (s : State) : State :=
  { State.resetWith s.params s.draws with inReset := true, inputs := s.inputs, response := s.response }

/-- `rst` is deasserted: the core is idle (R290). -/
def State.deassertReset (s : State) : State := { s with inReset := false }

end Sys2Proof.Machine
end

