-- ==== Sys2Proof/Machine/Flags.lean ====
section
/-! DEFINITION. The status flags as the host reads them (spec/10_state.md R26 to R30, R51) and the interrupt
output (spec/60_exceptions.md R268). -/

namespace Sys2Proof.Machine

/-- `code(E)` (spec/60_exceptions.md R260). -/
def ErrCode.code : ErrCode → BitVec 8
  | .ok => 0x00
  | .illegalCmd => 0x01
  | .lenRange => 0x02
  | .notReady => 0x03
  | .emptyInput => 0x04
  | .freqOverflow => 0x05
  | .noCode => 0x06
  | .badBit => 0x07
  | .packOverflow => 0x08
  | .malformedLen => 0x09
  | .malformedWalk => 0x0A
  | .integrity => 0x0B

/-- STATUS: ERR in bits [15:8], TREE_VALID in [2], DONE in [1], BUSY in [0], every other bit 0 (R27 to R30). -/
def State.statusWord (s : State) : Word :=
  (0 : BitVec 16) ++ s.err.code ++ (0 : BitVec 5) ++ BitVec.ofBool s.treeValid ++ BitVec.ofBool s.done
    ++ BitVec.ofBool s.busy

/-- CTRL: BE in bit [2], CRCSRC in [1], IE in [0], every other bit 0 (R26). -/
def State.ctrlWord (s : State) : Word :=
  (0 : BitVec 29) ++ BitVec.ofBool s.be ++ BitVec.ofBool s.crcsrc ++ BitVec.ofBool s.ie

/-- A host write to CTRL: bits [31:3] are ignored (R26). -/
def State.writeCtrl (s : State) (v : Word) : State :=
  { s with ie := v.getLsbD 0, crcsrc := v.getLsbD 1, be := v.getLsbD 2 }

/-- A host write to STATUS: bit [1] = 1 clears DONE, everything else is ignored (R28). -/
def State.writeStatus (s : State) (v : Word) : State :=
  { s with done := s.done && !v.getLsbD 1 }

/-- The interrupt output, a level (spec/60_exceptions.md R268). -/
def State.irq (s : State) : Bool := s.done && s.ie

/-- The tree and its codes are gone (spec/41_code_tree_builder.md R137, `Invalidate()`). -/
def State.invalidateTree (s : State) : State :=
  { s with treeValid := false, nodeCount := 0, root := 0, codes := noCodes }

end Sys2Proof.Machine
end

