-- ==== Sys2Proof/Machine/Bus.lean ====
section
/-! DEFINITION. The host interface: the register map (spec/10_state.md R22 to R45), the address map and the
two transactions (spec/20_memory.md R61 to R67), and the inputs from outside. -/

namespace Sys2Proof.Machine

/-! ### The register map (spec/10_state.md R22) -/

/-- The host-visible registers of R22. -/
inductive Reg where
  | id | ctrl | status | cmd | textLen | recLen | outLen | bitLenLo | bitLenHi | crcOut | errPos | root
  | nodeCount | nodeSel | nodeFreq | nodeInfo | codeSel | codeLen
  | codeBits (j : Fin 8)
  | freq (c : Byte)
  deriving DecidableEq, Repr

/-- The byte offset of a register (R22). -/
def Reg.offset : Reg → Nat
  | .id => 0x000
  | .ctrl => 0x004
  | .status => 0x008
  | .cmd => 0x00C
  | .textLen => 0x010
  | .recLen => 0x014
  | .outLen => 0x018
  | .bitLenLo => 0x01C
  | .bitLenHi => 0x020
  | .crcOut => 0x024
  | .errPos => 0x028
  | .root => 0x02C
  | .nodeCount => 0x030
  | .nodeSel => 0x034
  | .nodeFreq => 0x038
  | .nodeInfo => 0x03C
  | .codeSel => 0x040
  | .codeLen => 0x044
  | .codeBits j => 0x050 + 4 * j.val
  | .freq c => 0x400 + 4 * c.toNat

/-- The registers below offset 0x048, in the order of their offsets (R22). -/
def lowRegs : List Reg :=
  [.id, .ctrl, .status, .cmd, .textLen, .recLen, .outLen, .bitLenLo, .bitLenHi, .crcOut, .errPos, .root,
    .nodeCount, .nodeSel, .nodeFreq, .nodeInfo, .codeSel, .codeLen]

/-- The register at a 4-aligned byte offset of the aperture, `none` for a reserved one (R22, R23). -/
def regAt (off : Nat) : Option Reg :=
  let k := off / 4
  if k < 18 then lowRegs[k]?
  else if 20 ≤ k ∧ k < 28 then some (.codeBits (Fin.ofNat 8 (k - 20)))
  else if 256 ≤ k ∧ k < 512 then some (.freq (BitVec.ofNat 8 (k - 256)))
  else none

/-- The value of ID (R25). -/
def idValue : Word := 0x48460001

/-- NODE_INFO of a node (R41): LEAF [31], SYMBOL [25:18], RIGHT [17:9], LEFT [8:0]. -/
def nodeInfoWord : Node → Word
  | .leaf c _ => (1 : BitVec 1) ++ (0 : BitVec 5) ++ c ++ (0 : BitVec 9) ++ (0 : BitVec 9)
  | .internal _ l r => (0 : BitVec 1) ++ (0 : BitVec 5) ++ (0 : BitVec 8) ++ r ++ l

/-- The selected arena entry, while NODE_SEL is below NODE_COUNT (R40, R41). -/
def State.selectedNode (s : State) : Option Node :=
  if s.nodeSel.toNat < s.nodeCount.toNat then some (s.node s.nodeSel.toNat) else none

/-- The selected code (R42). -/
def State.selectedCode (s : State) : Bitstring := s.codes.at s.codeSel

/-- The value a register reads (R22 to R45). -/
def State.regValue (s : State) : Reg → Word
  | .id => idValue
  | .ctrl => s.ctrlWord
  | .status => s.statusWord
  | .cmd => s.cmd
  | .textLen => s.textLen
  | .recLen => s.recLen
  | .outLen => s.outLen
  | .bitLenLo => s.bitLen.extractLsb' 0 32
  | .bitLenHi => s.bitLen.extractLsb' 32 32
  | .crcOut => s.crcOut
  | .errPos => s.errPos
  | .root => s.root.setWidth 32
  | .nodeCount => s.nodeCount.setWidth 32
  | .nodeSel => s.nodeSel.setWidth 32
  | .nodeFreq => (s.selectedNode.map Sys2Proof.Machine.nodeFreq).getD 0
  | .nodeInfo => (s.selectedNode.map nodeInfoWord).getD 0
  | .codeSel => s.codeSel.setWidth 32
  | .codeLen => (BitVec.ofNat 8 s.selectedCode.length).setWidth 32
  | .codeBits j => msbFirst 32 (s.selectedCode.drop (32 * j.val))
  | .freq c => s.freq.at c

/-- A write to CMD while BUSY = 0 accepts the command, with a fresh draw of LATENCY (R24, R300). The latency is
read off the draw number alone, not off the word `w` or the inputs of the command, which R310 leaves open
(DESIGN CHOICE, assumption log 5). -/
def State.acceptCommand (s : State) (w : Word) : State :=
  (s.accept w (Config.latency s.draws)).nextDraw

/-- The write rule of a register (R22 to R45); a write to a read-only register is ignored (R23). -/
def State.regWrite (s : State) (r : Reg) (v : Word) : State :=
  match r with
  | .ctrl => s.writeCtrl v
  | .status => s.writeStatus v
  | .cmd => s.acceptCommand v
  | .textLen => { s with textLen := v }
  | .recLen => { s with recLen := v }
  | .nodeSel => { s with nodeSel := v.setWidth 9 }
  | .codeSel => { s with codeSel := v.setWidth 8 }
  | .freq c => { s with freq := s.freq.put c v }
  | .id | .outLen | .bitLenLo | .bitLenHi | .crcOut | .errPos | .root | .nodeCount | .nodeFreq | .nodeInfo
  | .codeLen | .codeBits _ => s

/-! ### The address map and the transactions (spec/20_memory.md R61 to R67) -/

/-- What an address and size reach (R62 to R65). -/
inductive BusTarget where
  /-- The aligned word of the register aperture at this offset. -/
  | register (off : Nat)
  /-- The byte of a memory space at this index. -/
  | memory (sp : Space) (i : Nat)
  /-- Nothing: the transaction ends in BUSERR. -/
  | nothing
  deriving DecidableEq, Repr

/-- The base address of a space's window (R62). -/
def spaceBase : Space → Nat
  | .text => 0x10000000
  | .record => 0x20000000
  | .out => 0x30000000

/-- The memory byte of a space's window at an address, within the space (R62, R65). -/
def windowTarget (p : Params) (sp : Space) (size : AccessSize) (a : Nat) : BusTarget :=
  if size = .byte ∧ a - spaceBase sp < p.spaceCap sp then .memory sp (a - spaceBase sp) else .nothing

/-- The target of a transaction (R62 to R65): registers take 4 aligned bytes, memory takes 1 byte. -/
def busTarget (p : Params) (a : Word) (size : AccessSize) : BusTarget :=
  let n := a.toNat
  if n < 0x1000 then
    if size = .word ∧ n % 4 = 0 then .register n else .nothing
  else if n < 0x10000000 then .nothing
  else if n < 0x20000000 then windowTarget p .text size n
  else if n < 0x30000000 then windowTarget p .record size n
  else if n < 0x40000000 then windowTarget p .out size n
  else .nothing

/-- The value of the aperture's word at an offset; a reserved offset reads 0 (R23, R63). -/
def State.apertureRead (s : State) (off : Nat) : Word :=
  match regAt off with
  | some r => s.regValue r
  | none => 0

/-- The state after a write to the aperture's word at an offset; at a reserved one it is ignored (R23, R63). -/
def State.apertureWrite (s : State) (off : Nat) (v : Word) : State :=
  match regAt off with
  | some r => s.regWrite r v
  | none => s

/-- Whether the core accepts transactions at all: not under `rst` (spec/70_reset_and_hazards.md R290), and
under BUSY only reads of ID and STATUS (spec/20_memory.md R66). -/
def State.lockedOut (s : State) (t : Transaction) : Bool :=
  s.inReset ||
    (s.busy &&
      match t with
      | .read a .word => a != 0x000 && a != 0x008
      | _ => true)

/-- `HostRead(a, size)` (R61 to R67); no read has a side effect (R77). -/
def State.hostRead (s : State) (a : Word) (size : AccessSize) : Response :=
  if s.lockedOut (.read a size) then .busError
  else
    match busTarget s.params a size with
    | .register off => .data (s.apertureRead off)
    | .memory sp i => .data ((s.memRead sp i).setWidth 32)
    | .nothing => .busError

/-- `HostWrite(a, size, v)` (R61 to R67): the state after it, and its response. A BUSERR changes nothing. -/
def State.hostWrite (s : State) (a : Word) (size : AccessSize) (v : Word) : State × Response :=
  if s.lockedOut (.write a size v) then (s, .busError)
  else
    match busTarget s.params a size with
    | .register off => (s.apertureWrite off v, .ok)
    | .memory sp i => (s.memWrite sp i [v.setWidth 8], .ok)
    | .nothing => (s, .busError)

/-- One transaction: the state after it, with its response held in `response`. -/
def State.transact (s : State) (t : Transaction) : State :=
  match t with
  | .read a size => { s with response := some (s.hostRead a size) }
  | .write a size v =>
    let r := s.hostWrite a size v
    { r.1 with response := some r.2 }

/-! ### The inputs -/

/-- The data of the last response, where it carried any. -/
def State.lastData (s : State) : Option Word :=
  match s.response with
  | some (.data d) => some d
  | _ => none

/-- WAIT goes on while STATUS was not read, or was read with BUSY = 1 (spec/30_encoding.md R95; assumption
log 7). -/
def pollAgain : Option Response → Bool
  | some (.data d) => d.getLsbD 0
  | _ => true

/-- One pass of WAIT's loop: the read of STATUS, and WAIT again while it is not over (spec/30_encoding.md R95). -/
def State.pollStatus (s : State) : State :=
  let t := s.transact (.read 0x008 .word)
  if pollAgain t.response then { t with inputs := .pollIdle :: t.inputs } else t

/-- The state after the first of the inputs has been served, the others being already in `s.inputs`. -/
def State.serve (s : State) (e : HostInput) : State :=
  match e with
  | .transaction t => s.transact t
  | .pollIdle => s.pollStatus
  | .writeBackXor a mask =>
    match s.lastData with
    | some d => s.transact (.write a .byte (d ^^^ mask.setWidth 32))
    | none => s
  | .resetPin true => s.assertReset
  | .resetPin false => s.deassertReset

/-- One input passes while a command runs: it uses up one of those LATENCY lets pass (assumption log 5). -/
def State.countLatency (s : State) : State :=
  if s.busy then { s with latencyLeft := s.latencyLeft - 1 } else s

/-- Serving the input `e`, `rest` being those behind it. -/
def State.serveInput (s : State) (e : HostInput) (rest : List HostInput) : State :=
  ({ s with inputs := rest }).countLatency.serve e

/-! ### Who moves next -/

/-- The agent of the next step. -/
inductive Turn where
  /-- The engine executes this command word (R300). -/
  | engine (w : Word)
  /-- The outside world acts with its next input. -/
  | input (e : HostInput) (rest : List HostInput)
  /-- Nothing is pending on either side: the core waits (R290). -/
  | idle
  deriving DecidableEq, Repr

/-- The engine moves when a command is pending and either LATENCY has run out or no input is left; otherwise
the next input is served (R300; assumption log 5). -/
def State.turn (s : State) : Turn :=
  match s.fetched, s.inputs with
  | some w, [] => .engine w
  | some w, e :: rest => if s.latencyLeft = 0 then .engine w else .input e rest
  | none, e :: rest => .input e rest
  | none, [] => .idle

end Sys2Proof.Machine
end

