-- ==== Sys2Proof/Machine/Builder.lean ====
section
/-! DEFINITION. The CodeTreeBuilder, the code generator and BUILD (spec/41_code_tree_builder.md R130 to R137). -/

namespace Sys2Proof.Machine

/-! ### The min-priority structure (R130) -/

/-- An element of Q: an arena index, and beside it the frequency of that node, which is the first part of
its key. -/
structure QueueEntry where
  freq : Word
  index : Nat
  deriving DecidableEq, Repr

/-- The key (freq, index), compared lexicographically: strictly before (R130). -/
def QueueEntry.before (x y : QueueEntry) : Bool :=
  x.freq.toNat < y.freq.toNat || (x.freq == y.freq && x.index < y.index)

/-- The entry with the smaller key of two. -/
def QueueEntry.least (x y : QueueEntry) : QueueEntry := if y.before x then y else x

/-- `ExtractMin(Q)` (R130): the entry with the smallest key, and the rest. -/
def extractMin : List QueueEntry → Option (QueueEntry × List QueueEntry)
  | [] => none
  | x :: q =>
    let m := q.foldl QueueEntry.least x
    some (m, (x :: q).erase m)

/-! ### Tree construction (R131, R132) -/

/-- The symbols with a non-zero frequency and that frequency, in ascending symbol order (R131). -/
def codedSymbols (F : Table Word) : List (Byte × Word) := F.entries.filter fun e => e.2 != 0

/-- The leaves of R131, in arena order. -/
def leafNodes (F : Table Word) : List Node := (codedSymbols F).map fun e => .leaf e.1 e.2

/-- Q after the leaves have been inserted (R131). -/
def leafQueue (ns : List Node) : List QueueEntry := ns.mapIdx fun i n => ⟨nodeFreq n, i⟩

/-- The merging loop of R132. The node made by a pass takes the next free index, the number of nodes so far.
The first argument bounds the number of passes. -/
def mergeNodes : Nat → List Node → List QueueEntry → List Node
  | 0, ns, _ => ns
  | k + 1, ns, q =>
    match extractMin q with
    | none => ns
    | some (a, q1) =>
      match extractMin q1 with
      | none => ns
      | some (b, q2) =>
        let f := a.freq + b.freq
        mergeNodes k
          (ns ++ [.internal f (BitVec.ofNat 9 a.index) (BitVec.ofNat 9 b.index)])
          (q2 ++ [⟨f, ns.length⟩])

/-- node[0 .. 2K-2] built from the table `F` (R131, R132); each pass makes one node, so K passes suffice. -/
def buildNodes (F : Table Word) : List Node :=
  let ls := leafNodes F
  mergeNodes ls.length ls (leafQueue ls)

/-! ### Code derivation (R135, R136) -/

/-- `CodeOf(v, p)` (R135): the symbols below node `v` with their codes, `p` being the path to it. A child's
index is below its parent's, so the depth is bounded by the first argument. -/
def codesBelow (ns : List Node) : Nat → Nat → Bitstring → List (Byte × Bitstring)
  | 0, _, _ => []
  | k + 1, v, p =>
    match ns[v]? with
    | none => []
    | some (.leaf c _) => [(c, p)]
    | some (.internal _ l r) =>
      codesBelow ns k l.toNat (p ++ [false]) ++ codesBelow ns k r.toNat (p ++ [true])

/-- The codes of a tree: the one-bit code "0" for a single leaf (R136), else the root-to-leaf paths (R135). -/
def treeCodes (ns : List Node) : List (Byte × Bitstring) :=
  match ns with
  | [.leaf c _] => [(c, [false])]
  | _ => codesBelow ns ns.length (ns.length - 1) []

/-- The code table: no code but for the listed symbols (R135). -/
def codeTable (cs : List (Byte × Bitstring)) : Table Bitstring :=
  cs.foldl (fun t x => t.put x.1 x.2) noCodes

/-! ### BUILD (R137) -/

/-- `sum over s of F[s]`, on mathematical integers (R137). -/
def freqSum (F : Table Word) : Nat := (F.toList.map BitVec.toNat).sum

/-- The state with the tree and the codes of the table `F`, K ≥ 1 (R137). -/
def State.installTree (s : State) (F : Table Word) : State :=
  let ns := buildNodes F
  let K := (codedSymbols F).length
  { s with
    arena := s.arena.overwrite ns
    codes := codeTable (treeCodes ns)
    nodeCount := BitVec.ofNat 10 (2 * K - 1)
    root := BitVec.ofNat 9 (2 * K - 2)
    treeValid := true }

/-- The body of BUILD (R137). -/
def buildBody (s : State) : CmdEnd :=
  if (codedSymbols s.freq).isEmpty then .raised .emptyInput 0 s.invalidateTree
  else if 0xFFFFFFFF < freqSum s.freq then .raised .freqOverflow 0 s.invalidateTree
  else .finished (s.installTree s.freq)

/-- BUILD (R137). -/
def execBuild (s : State) : Host.Outcome State Fault Refusal := (buildBody s).outcome

end Sys2Proof.Machine
end

