-- ==== Sys2Proof/Machine/Control.lean ====
section
/-! DEFINITION. The control commands NOP and CLEAR (spec/45_control.md R240 to R242). -/

namespace Sys2Proof.Machine

/-- NOP completes with no effect (R241). -/
def execNop (s : State) : Host.Outcome State Fault Refusal := (CmdEnd.finished s).outcome

/-- The body of CLEAR (R242); the arena is not zeroed. -/
def clearBody (s : State) : CmdEnd :=
  .finished { s.invalidateTree with freq := zeroFreq, outLen := 0, bitLen := 0, crcOut := 0 }

/-- CLEAR (R242). -/
def execClear (s : State) : Host.Outcome State Fault Refusal := (clearBody s).outcome

end Sys2Proof.Machine
end

