-- ==== Sys2Proof/Machine/Crc.lean ====
section
/-! DEFINITION. The CRC-32 engine (spec/43_bit_packer_crc.md R180). -/

namespace Sys2Proof.Machine

/-- The reflected polynomial of R180. -/
def crcPoly : Word := 0xEDB88320

/-- One inner iteration of R180: the bit at the low end of the register is shifted out. -/
def crcShift (c : Word) : Word := if c.getLsbD 0 then (c >>> 1) ^^^ crcPoly else c >>> 1

/-- `n` inner iterations. -/
def crcShifts : Nat → Word → Word
  | 0, c => c
  | n + 1, c => crcShifts n (crcShift c)

/-- One byte enters at the low end of the register, then 8 inner iterations (R180). -/
def crcByte (c : Word) (d : Byte) : Word := crcShifts 8 (c ^^^ d.setWidth 32)

/-- The register after the bytes `D`, from the value `c`. -/
def crcRegister (c : Word) (D : List Byte) : Word := D.foldl crcByte c

/-- `CRC32(D)` (R180): initial register 0xFFFF_FFFF, one's complement at the end. -/
def crc32 (D : List Byte) : Word := ~~~ crcRegister 0xFFFFFFFF D

end Sys2Proof.Machine
end

