-- ==== Sys2Proof/Machine/Operands.lean ====
section
/-! DEFINITION. The implicit operands of the commands (spec/30_encoding.md R92): the text, the record, and the
checksum over them (spec/43_bit_packer_crc.md R186 to R188). -/

namespace Sys2Proof.Machine

/-- TEXT[0 .. TEXT_LEN-1] as the commands read it (spec/10_state.md R31). -/
def State.textBytes (s : State) : List Byte := s.textMem.readBytes .text 0 s.textLen.toNat

/-- TEXT_LEN > TEXT_CAP (spec/10_state.md R31): LEN_RANGE. -/
def State.textTooLong (s : State) : Bool := s.params.textCap < s.textLen.toNat

/-- REC_LEN > REC_CAP (spec/10_state.md R32): LEN_RANGE. -/
def State.recordTooLong (s : State) : Bool := s.params.recCap < s.recLen.toNat

/-- The bytes a checksum covers: the ASCII bitstring for CRCSRC = 0, the text or the decoded symbols for
CRCSRC = 1 (R186, used alike at write and at verify). -/
def State.checksummed (s : State) (B : Bitstring) (T : List Byte) : List Byte :=
  if s.crcsrc then T else ascii B

/-- `RecordCRC(B, T)` (R186). -/
def State.recordCrc (s : State) (B : Bitstring) (T : List Byte) : Word := crc32 (s.checksummed B T)

/-- `VerifyCRC(B, O)` (R186, spec/44_decoder.md R214). -/
def State.verifyCrc (s : State) (B : Bitstring) (O : List Byte) : Word := crc32 (s.checksummed B O)

/-- The bytes of the record of `B` with the checksum `crc` (spec/20_memory.md R70, R71). -/
def recordBytes (be : Bool) (B : Bitstring) (crc : Word) : List Byte :=
  fieldBytes be 8 B.length ++ packBits B ++ fieldBytes be 4 crc.toNat

/-- ceil_div(len(B), 8) > PACK_CAP: PACK_OVERFLOW (spec/42_encoder.md R161, R190). -/
def State.packTooLong (s : State) (B : Bitstring) : Bool := s.params.packCap < ceilDiv B.length 8

/-- `WriteRecord(B, crc)` (R187). -/
def State.writeRecord (s : State) (B : Bitstring) (crc : Word) : State :=
  { s.memWrite .record 0 (recordBytes s.be B crc) with
    recLen := BitVec.ofNat 32 (12 + ceilDiv B.length 8)
    bitLen := BitVec.ofNat 64 B.length
    crcOut := crc }

/-- The bitLength field of the record in REC (R188). -/
def State.recordBitLength (s : State) : Nat := fieldValue s.be (s.recMem.readBytes .record 0 8)

/-- The packedBytes of a record with `n` of them (R188). -/
def State.recordPacked (s : State) (n : Nat) : List Byte := s.recMem.readBytes .record 8 n

/-- The checksum field of a record with `n` packed bytes (R188). -/
def State.recordChecksum (s : State) (n : Nat) : Word :=
  BitVec.ofNat 32 (fieldValue s.be (s.recMem.readBytes .record (8 + n) 4))

/-- What `ParseRecord` returns (R188): the bitstring, L bits long, and the stored checksum. -/
structure ParsedRecord where
  length : Nat
  bits : Bitstring
  stored : Word
  deriving DecidableEq, Repr

/-- `ParseRecord()` with the framing check of spec/20_memory.md R73; `none` is MALFORMED_LEN (R188). -/
def State.parseRecord (s : State) : Option ParsedRecord :=
  let m := s.recLen.toNat
  if m < 12 then none
  else
    let L := s.recordBitLength
    let N := ceilDiv L 8
    if m ≠ 12 + N then none
    else some ⟨L, unpackBits (s.recordPacked N) L, s.recordChecksum N⟩

end Sys2Proof.Machine
end

