-- ==== Sys2Proof/Machine/Counter.lean ====
section
/-! DEFINITION. The FrequencyCounter and COUNT (spec/40_frequency_counter.md R110, R111). -/

namespace Sys2Proof.Machine

/-- One pass of the loop of R110: the counter of the symbol read goes up by one. -/
def countSymbol (F : Table Word) (c : Byte) : Table Word := F.put c (F.at c + 1)

/-- `FreqCount(T)` (R110). -/
def freqCount (T : List Byte) : Table Word := T.foldl countSymbol zeroFreq

/-- The body of COUNT (R111). -/
def countBody (s : State) : CmdEnd :=
  if s.textTooLong then .raised .lenRange 0 s
  else .finished { s with freq := freqCount s.textBytes }

/-- COUNT (R111). -/
def execCount (s : State) : Host.Outcome State Fault Refusal := (countBody s).outcome

end Sys2Proof.Machine
end

