-- ==== Sys2Proof/Machine/Decoder.lean ====
section
/-! DEFINITION. The Decoder and DECODE (spec/44_decoder.md R210 to R218). -/

namespace Sys2Proof.Machine

/-- What a walk gives: the emitted symbols, and the failure position where it failed (R210, R211). -/
structure WalkResult where
  symbols : List Byte
  failure : Option Nat
  deriving DecidableEq, Repr

/-- A symbol is emitted before the rest of a walk. -/
def WalkResult.emit (c : Byte) (r : WalkResult) : WalkResult := { r with symbols := c :: r.symbols }

/-- The walk of R210 from the internal node `cur`, whose children are `l` and `r`: `root` is the root, whose
children are `rl` and `rr`; `k` is the index of the next bit and `start` that of the first bit of the codeword
under way. -/
def walkFrom (node : Nat → Node) (root rl rr : BitVec 9) :
    Bitstring → (cur l r : BitVec 9) → (start k : Nat) → WalkResult
  | [], cur, _, _, start, _ => ⟨[], if cur = root then none else some start⟩
  | b :: B, _, l, r, start, k =>
    let child := if b then r else l
    match node child.toNat with
    | .leaf c _ => (walkFrom node root rl rr B root rl rr (k + 1) (k + 1)).emit c
    | .internal _ l' r' => walkFrom node root rl rr B child l' r' start (k + 1)

/-- The walk of R211, whose root is the leaf of the symbol `c`; `k` is the index of the next bit. -/
def walkLeaf (c : Byte) : Bitstring → (k : Nat) → WalkResult
  | [], _ => ⟨[], none⟩
  | b :: B, k => if b then ⟨[], some k⟩ else (walkLeaf c B (k + 1)).emit c

/-- `Walk(B, r)` (R210, R211). -/
def walk (node : Nat → Node) (root : BitVec 9) (B : Bitstring) : WalkResult :=
  match node root.toNat with
  | .leaf c _ => walkLeaf c B 0
  | .internal _ l r => walkFrom node root l r B root l r 0 0

/-- DECODE after the framing check has passed (R213 to R218): BITLEN and CRC_OUT are written, INTEGRITY
outranks MALFORMED_WALK, and after either every OUT byte is unspecified. -/
def decodeParsed (s : State) (r : ParsedRecord) : CmdEnd :=
  let w := walk s.node s.root r.bits
  let computed := s.verifyCrc r.bits w.symbols
  let s1 := { s with bitLen := BitVec.ofNat 64 r.length, crcOut := computed }
  if computed ≠ r.stored then .raised .integrity 0 s1.redrawOut
  else
    match w.failure with
    | some p => .raised .malformedWalk (BitVec.ofNat 32 p) s1.redrawOut
    | none =>
      .finished
        { s1.memWrite .out 0 w.symbols with outLen := BitVec.ofNat 32 w.symbols.length }

/-- The body of DECODE, but for what a raise does to OUT_LEN (R213). -/
def decodeStages (s : State) : CmdEnd :=
  if s.recordTooLong then .raised .lenRange 0 s
  else if !s.treeValid then .raised .notReady 0 s
  else
    match s.parseRecord with
    | none => .raised .malformedLen 0 s
    | some r => decodeParsed s r

/-- The body of DECODE (R213). -/
def decodeBody (s : State) : CmdEnd := (decodeStages s).clearOutLenOnRaise

/-- DECODE (R213). -/
def execDecode (s : State) : Host.Outcome State Fault Refusal := (decodeBody s).outcome

end Sys2Proof.Machine
end

