-- ==== Sys2Proof/Machine/Encoder.lean ====
section
/-! DEFINITION. The Encoder, EMIT and ENCODE (spec/42_encoder.md R160, R161, R167). -/

namespace Sys2Proof.Machine

/-- `Concat(T)` (R160). -/
def concatCodes (codes : Table Bitstring) (T : List Byte) : Bitstring := T.flatMap codes.at

/-- The body of EMIT (R161). -/
def emitBody (s : State) : CmdEnd :=
  if s.textTooLong then .raised .lenRange 0 s
  else if !s.treeValid then .raised .notReady 0 s
  else
    let T := s.textBytes
    match T.findIdx? (fun c => (s.codes.at c).isEmpty) with
    | some i => .raised .noCode (BitVec.ofNat 32 i) s
    | none =>
      let B := concatCodes s.codes T
      if s.packTooLong B then .raised .packOverflow 0 s
      else .finished (s.writeRecord B (s.recordCrc B T))

/-- EMIT (R161). -/
def execEmit (s : State) : Host.Outcome State Fault Refusal := (emitBody s).outcome

/-- The body of ENCODE: COUNT, then BUILD, then EMIT (R167). -/
def encodeBody (s : State) : CmdEnd := ((countBody s).andThen buildBody).andThen emitBody

/-- ENCODE (R167). -/
def execEncode (s : State) : Host.Outcome State Fault Refusal := (encodeBody s).outcome

end Sys2Proof.Machine
end

