-- ==== Sys2Proof/Machine/Packer.lean ====
section
/-! DEFINITION. The BitPacker and the ChecksumEngine as commands: PACK, UNPACK and CRC
(spec/43_bit_packer_crc.md R190, R193, R195). -/

namespace Sys2Proof.Machine

/-- The body of PACK (R190). -/
def packBody (s : State) : CmdEnd :=
  if s.textTooLong then .raised .lenRange 0 s
  else
    let T := s.textBytes
    match T.findIdx? (fun c => !isAsciiBit c) with
    | some i => .raised .badBit (BitVec.ofNat 32 i) s
    | none =>
      let B := T.map fun c => c == 0x31
      if s.packTooLong B then .raised .packOverflow 0 s
      else .finished (s.writeRecord B (s.recordCrc B T))

/-- PACK (R190). -/
def execPack (s : State) : Host.Outcome State Fault Refusal := (packBody s).outcome

/-- The body of UNPACK, but for what a raise does to OUT_LEN (R193). -/
def unpackStages (s : State) : CmdEnd :=
  if s.recordTooLong then .raised .lenRange 0 s
  else
    match s.parseRecord with
    | none => .raised .malformedLen 0 s
    | some r =>
      .finished
        { s.memWrite .out 0 (ascii r.bits) with
          bitLen := BitVec.ofNat 64 r.length
          outLen := BitVec.ofNat 32 r.length
          crcOut := r.stored }

/-- The body of UNPACK (R193). -/
def unpackBody (s : State) : CmdEnd := (unpackStages s).clearOutLenOnRaise

/-- UNPACK (R193). -/
def execUnpack (s : State) : Host.Outcome State Fault Refusal := (unpackBody s).outcome

/-- The body of CRC (R195). -/
def crcBody (s : State) : CmdEnd :=
  if s.textTooLong then .raised .lenRange 0 s
  else .finished { s with crcOut := crc32 s.textBytes }

/-- CRC (R195). -/
def execCrc (s : State) : Host.Outcome State Fault Refusal := (crcBody s).outcome

end Sys2Proof.Machine
end

