-- ==== Sys2Proof/Machine/Step.lean ====
section
/-! DEFINITION. One step of the machine: the engine executes and completes a command, or the outside world
acts, or the core waits (spec/70_reset_and_hazards.md R300). -/

namespace Sys2Proof.Machine

/-- The engine step decodes the pending word (spec/30_encoding.md R90) and runs the command whole. -/
def step (s : State) : Host.Outcome State Fault Refusal :=
  match s.turn with
  | .engine w =>
    match decode w with
    | .ok i => exec i s
    | .error _ => .next s.illegalCommand
  | .input e rest => .next (s.serveInput e rest)
  | .idle => .next s

/-- The state in which a command word has just been accepted (spec/10_state.md R24) and the engine moves next:
it stands for the host's write to CMD (assumption log 8). -/
def State.withFetchWord (s : State) (nbits w : Nat) : State :=
  { s.accept (BitVec.ofNat 32 (w % 2 ^ nbits)) 0 with inReset := false }

end Sys2Proof.Machine
end

