-- ==== Sys2Proof/Safety.lean ====
section
/-! DEFINITION. What a sound state of the core is: the relations between its fields that the rules promise and
every step keeps, in the terms claims use. -/

namespace Sys2Proof.Machine

/-- Every memory has its canonical form and lists bytes below the space's capacity only (spec/20_memory.md
R60). -/
structure State.MemoriesOk (s : State) : Prop where
  textWf : s.textMem.wf
  recWf : s.recMem.wf
  outWf : s.outMem.wf
  textBound : ∀ c ∈ s.textMem.cells, c.1 < s.params.textCap
  recBound : ∀ c ∈ s.recMem.cells, c.1 < s.params.recCap
  outBound : ∀ c ∈ s.outMem.cells, c.1 < s.params.outCap

/-- The pending latch holds the accepted word exactly while BUSY = 1, and DONE and ERR are clear then
(spec/10_state.md R24, R27, R49); under `rst` nothing is pending (spec/70_reset_and_hazards.md R290). -/
structure State.LatchOk (s : State) : Prop where
  busyIff : s.busy = s.pending.isSome
  cmdHeld : ∀ w, s.pending = some w → s.cmd = w
  flagsClear : s.busy = true → s.done = false ∧ s.err = .ok
  resetIdle : s.inReset = true → s.busy = false

/-- The arena and the code table hold the tree and the code map of the frequency table `F`
(spec/10_state.md R29, R48; spec/41_code_tree_builder.md R137). -/
structure State.HoldsTreeOf (s : State) (F : Table Word) : Prop where
  nonempty : codedSymbols F ≠ []
  sumFits : freqSum F ≤ 0xFFFFFFFF
  nodes : s.arena.nodes.take (2 * (codedSymbols F).length - 1) = buildNodes F
  codes : s.codes = codeTable (treeCodes (buildNodes F))
  nodeCount : s.nodeCount.toNat = 2 * (codedSymbols F).length - 1
  root : s.root.toNat = 2 * (codedSymbols F).length - 2

/-- TREE_VALID = 1 means a tree of some frequency table; TREE_VALID = 0 means NODE_COUNT, ROOT and every code
are cleared (spec/10_state.md R29, R37, R38, R48). -/
structure State.TreeOk (s : State) : Prop where
  valid : s.treeValid = true → ∃ F, s.HoldsTreeOf F
  invalid : s.treeValid = false → s.nodeCount = 0 ∧ s.root = 0 ∧ s.codes = noCodes
  arenaSize : s.arena.nodes.length ≤ 511

/-- No draw number is used again (assumption log 3). -/
structure State.DrawsFresh (s : State) : Prop where
  text : s.textMem.draw < s.draws
  record : s.recMem.draw < s.draws
  out : s.outMem.draw < s.draws
  arena : s.arena.draw < s.draws

/-- The invariant of the machine. -/
structure State.Inv (s : State) : Prop where
  memories : s.MemoriesOk
  latch : s.LatchOk
  tree : s.TreeOk
  outLen : s.outLen.toNat ≤ s.params.outCap
  fresh : s.DrawsFresh

/-- A step that leaves no state behind: there is none (spec/60_exceptions.md R265). -/
def Stops (s : State) : Prop :=
  match step s with
  | .next _ => False
  | .fault _ => True
  | .refused _ => True

end Sys2Proof.Machine
end

