-- ==== Sys2Proof/Certificates/Slice0/Obligations.lean ====
section
/-! DEFINITION. The statements for the provers. Each formalises rules of spec/; none is about a program. -/

open Sys2Proof Sys2Proof.Machine

namespace Sys2Proof.Spec

/-- K, the number of distinct symbols with a non-zero frequency (spec/00_scope.md R15). -/
def distinct (F : Table Word) : Nat := allSymbols.countP fun c => F.at c != 0

/-- The sum of all frequencies, on mathematical integers. -/
def total (F : Table Word) : Nat := (allSymbols.map fun c => (F.at c).toNat).sum

/-- The code map of the tree of a frequency table. -/
def codesOf (F : Table Word) : Table Bitstring := codeTable (treeCodes (buildNodes F))

/-- Every child index that occurs in a list of nodes. -/
def childIndices (ns : List Node) : List Nat :=
  ns.flatMap fun n =>
    match n with
    | .leaf _ _ => []
    | .internal _ l r => [l.toNat, r.toNat]

/-- TEXT[0 .. TEXT_LEN-1]. -/
def text (s : State) : List Byte := (List.range s.textLen.toNat).map (s.memRead .text)

/-- The bytes CTRL.CRCSRC selects for the checksum (spec/43_bit_packer_crc.md R186). -/
def covered (s : State) (B : Bitstring) (T : List Byte) : List Byte := if s.crcsrc then T else ascii B

/-- The weight of byte `i` of an `n`-byte field in the byte order of CTRL.BE (spec/20_memory.md R71). -/
def place (be : Bool) (n i : Nat) : Nat := if be then n - 1 - i else i

/-- The bitLength field of the record, on mathematical integers (spec/20_memory.md R71, R73). -/
def headerValue (s : State) : Nat :=
  ((List.range 8).map fun i => (s.memRead .record i).toNat * 256 ^ place s.be 8 i).sum

/-- The node at the end of the path `p` from node `v`: a bit 0 steps to the left child, a bit 1 to the right
(spec/41_code_tree_builder.md R135). -/
def descend (node : Nat → Node) : (p : Bitstring) → (v : Nat) → Option Nat
  | [], v => some v
  | b :: p, v =>
    match node v with
    | .leaf _ _ => none
    | .internal _ l r => descend node p (if b then r.toNat else l.toNat)

/-- One inner iteration of the checksum engine (spec/43_bit_packer_crc.md R180). -/
def crcIteration (c : Word) : Word :=
  if c.toNat % 2 = 1 then BitVec.ofNat 32 (c.toNat / 2) ^^^ 0xEDB88320 else BitVec.ofNat 32 (c.toNat / 2)

/-- `CRC32(D)` in the words of spec/43_bit_packer_crc.md R180. -/
def crcOf (D : List Byte) : Word :=
  ~~~ D.foldl (fun c d => crcIteration^[8] (c ^^^ d.setWidth 32)) 0xFFFFFFFF

end Sys2Proof.Spec

open Sys2Proof.Spec

/-! ### Encoding -/

/-- Words written out from the opcode map (30_encoding.md R93) and two that no command has. -/
def Obligations.OpcodeMapWordsDecode : Prop :=
  decode 0x00000000 = .ok .nop ∧ decode 0x01000000 = .ok .clear ∧ decode 0x02000000 = .ok .count ∧
  decode 0x03000000 = .ok .build ∧ decode 0x04000000 = .ok .emit ∧ decode 0x05000000 = .ok .encode ∧
  decode 0x06000000 = .ok .decode ∧ decode 0x07000000 = .ok .pack ∧ decode 0x08000000 = .ok .unpack ∧
  decode 0x09000000 = .ok .crc ∧ decode 0x0A000000 = .error (.reservedOpcode 0x0A) ∧
  decode 0x02000001 = .error (.nonzeroZ 1)

/-- Decoding an encoded command gives it back. -/
def Obligations.EncodeThenDecodeIsIdentity : Prop := ∀ i : Instr, decode (encode i) = .ok i

/-- R93: the ten words of the map, and no other word, select a command. -/
def Obligations.OnlyTableWordsAreCommands : Prop :=
  (encode .nop = 0x00000000 ∧ encode .clear = 0x01000000 ∧ encode .count = 0x02000000 ∧
    encode .build = 0x03000000 ∧ encode .emit = 0x04000000 ∧ encode .encode = 0x05000000 ∧
    encode .decode = 0x06000000 ∧ encode .pack = 0x07000000 ∧ encode .unpack = 0x08000000 ∧
    encode .crc = 0x09000000) ∧
  (∀ (w : Word) (i : Instr), decode w = .ok i ↔ w = encode i) ∧
  ∀ w : Word, (∀ i, w ≠ encode i) → ∃ r, decode w = .error r

/-- R90, R94: an engine step on a pending word with Z ≠ 0 or OPC > 0x09 completes as ILLEGAL_CMD and changes
nothing else; on any other word it executes the command the word encodes. The premise on `inputs` and
`latencyLeft` says that this step is the engine's; it is the model's choice of timing (assumption logs 5, 6). -/
def Obligations.EngineStepDecodesPendingWord : Prop :=
  ∀ (s : State) (w : Word), s.busy = true → s.inReset = false → s.pending = some w →
    (s.inputs = [] ∨ s.latencyLeft = 0) →
    ((w.extractLsb' 0 24 ≠ 0 ∨ 0x09 < (w.extractLsb' 24 8).toNat) →
      step s = .next
        { s with err := .illegalCmd, errPos := 0, done := true, busy := false, pending := none }) ∧
    (w.extractLsb' 0 24 = 0 → (w.extractLsb' 24 8).toNat ≤ 0x09 →
      ∃ i, w = encode i ∧ step s = exec i s)

/-- What a step does (70_reset_and_hazards.md section 3; 20_memory.md section 2; 30_encoding.md section 3): it runs
the decoded command; or it performs the next input of the outside world, with one input less to come; or, with
neither, it keeps the state. Who moves when, that the outside world is a list of inputs, the response held, and
WAIT and FLIPB after a BUSERR are the model's choices (assumption logs 5, 6, 7, 10). -/
def Obligations.StepRunsTheDecodedCommand : Prop :=
  (∀ (s : State) (w : Word) (i : Instr), s.busy = true → s.inReset = false → s.pending = some w →
    (s.inputs = [] ∨ s.latencyLeft = 0) → decode w = .ok i → step s = exec i s) ∧
  (∀ (s : State) (e : HostInput) (rest : List HostInput), s.inputs = e :: rest →
    (s.busy = false ∨ s.inReset = true ∨ s.pending = none ∨ s.latencyLeft ≠ 0) →
    let q := { s with
      inputs := rest, latencyLeft := if s.busy then s.latencyLeft - 1 else s.latencyLeft }
    (∀ a size, e = .transaction (.read a size) →
      step s = .next { q with response := some (s.hostRead a size) }) ∧
    (∀ a size v, e = .transaction (.write a size v) →
      step s = .next { (q.hostWrite a size v).1 with response := some (q.hostWrite a size v).2 }) ∧
    (∀ b, e = .resetPin b → step s = .next (q.serve (.resetPin b))) ∧
    (e = .pollIdle →
      (s.busy = false → s.inReset = false →
        step s = .next { q with response := some (.data s.statusWord) }) ∧
      ((s.busy = true ∨ s.inReset = true) → step s = .next
        { q with inputs := .pollIdle :: rest, response := some (s.hostRead 0x008 .word) })) ∧
    ∀ a mask, e = .writeBackXor a mask →
      (∀ d, s.response = some (.data d) →
        let w := q.hostWrite a .byte (d ^^^ mask.setWidth 32)
        step s = .next { w.1 with response := some w.2 }) ∧
      ((∀ d, s.response ≠ some (.data d)) → step s = .next q)) ∧
  ∀ s : State, s.inputs = [] → (s.busy = false ∨ s.inReset = true ∨ s.pending = none) → step s = .next s

/-- A word placed by `withFetchWord` is executed by the very next step, from the state acceptance leaves; the
placing is the model's choice (assumption log 8). -/
def Obligations.PlacedWordIsExecutedNext : Prop :=
  ∀ (s : State) (i : Instr),
    step (s.withFetchWord 32 (encode i).toNat) =
      exec i { s with
        inReset := false, cmd := encode i, busy := true, done := false, err := .ok,
        pending := some (encode i), latencyLeft := 0 }

/-! ### Completion and acceptance -/

/-- R262: the completion step writes ERR, ERRPOS, DONE, BUSY and the latch, and nothing else; afterwards the
engine is idle and transactions are accepted. -/
def Obligations.CompletionStepWrites : Prop :=
  (∀ (s : State) (e : ErrCode) (p : Word),
    s.complete e p = { s with err := e, errPos := p, done := true, busy := false, pending := none }) ∧
  (∀ s : State, s.illegalCommand = s.complete .illegalCmd 0) ∧
  ∀ (i : Instr) (s : State), ∃ (r : State) (e : ErrCode) (p : Word),
    exec i s = .next (r.complete e p) ∧ (e = .ok → p = 0) ∧
    (∀ w, (r.complete e p).turn ≠ .engine w) ∧ (r.complete e p).inReset = s.inReset ∧
    ∀ t, (r.complete e p).lockedOut t = s.inReset

/-- R264: ERRPOS is 0 on success and for every error but NO_CODE, BAD_BIT and MALFORMED_WALK. For the two text
errors it is the index of the first offending byte; for the walk it is the walk's failure position. -/
def Obligations.ErrorPositionReported : Prop :=
  ∀ (i : Instr) (s : State), ∃ t, exec i s = .next t ∧
    (t.err ≠ .noCode → t.err ≠ .badBit → t.err ≠ .malformedWalk → t.errPos = 0) ∧
    (t.err = .noCode → i = .emit ∧ t.errPos.toNat < s.textLen.toNat ∧
      s.codes.at (s.memRead .text t.errPos.toNat) = [] ∧
      ∀ j, j < t.errPos.toNat → s.codes.at (s.memRead .text j) ≠ []) ∧
    (t.err = .badBit → i = .pack ∧ t.errPos.toNat < s.textLen.toNat ∧
      (s.memRead .text t.errPos.toNat ≠ 0x30 ∧ s.memRead .text t.errPos.toNat ≠ 0x31) ∧
      ∀ j, j < t.errPos.toNat → s.memRead .text j = 0x30 ∨ s.memRead .text j = 0x31) ∧
    (t.err = .malformedWalk → i = .decode ∧ ∃ r, s.parseRecord = some r ∧
      (walk s.node s.root r.bits).failure = some t.errPos.toNat ∧ t.errPos.toNat < r.length)

/-- The machine never stops: every step answers a next state (60_exceptions.md section 2). -/
def Obligations.EveryStepAnswersNext : Prop := ∀ s : State, ∃ t, step s = .next t

/-- R24: a write to CMD while BUSY = 0 accepts the command in one step; while BUSY = 1 it is a bus error with no
effect; a read returns the last accepted word, 0 after reset. The fields `latencyLeft` and `draws` are the
model's own (assumption logs 3, 5) and nothing is claimed of their new values `lat` and `d`; that the engine
moves when no input is left or `lat` is 0 is the model's timing (assumption log 5). -/
def Obligations.WriteToCmdAcceptsCommand : Prop :=
  (∀ (s : State) (w : Word), s.inReset = false → s.busy = false →
    s.hostRead 0x00C .word = .data s.cmd ∧
    ∃ (t : State) (lat d : Nat), s.hostWrite 0x00C .word w = (t, .ok) ∧
      t = { s with
        cmd := w, busy := true, done := false, err := .ok, pending := some w, latencyLeft := lat,
        draws := d } ∧
      ((s.inputs = [] ∨ lat = 0) → ∀ i, decode w = .ok i → step t = exec i t)) ∧
  (∀ (s : State) (w : Word), s.busy = true → s.hostWrite 0x00C .word w = (s, .busError)) ∧
  State.reset.cmd = 0

/-- An accepted command completes once LATENCY has run out or the host has nothing more to do, provided `rst` is
not driven (70_reset_and_hazards.md section 3). Counting LATENCY in inputs is the model's choice (assumption
log 5). -/
def Obligations.CommandCompletesWithinLatency : Prop :=
  ∀ (s : State) (w : Word), s.busy = true → s.inReset = false → s.pending = some w →
    (∀ b, HostInput.resetPin b ∉ s.inputs) →
    ∃ (k : Nat) (t : State), k ≤ s.latencyLeft + 1 ∧ Sys2Proof.core.run k s = .next t ∧
      t.busy = false ∧ t.done = true ∧ t.pending = none

/-- Until the engine step the host's inputs change nothing of the core (20_memory.md section 4); `inputs`,
`response` and `latencyLeft` are the model's own fields (assumption logs 5 to 7). -/
def Obligations.RunningCommandIsUndisturbed : Prop :=
  ∀ (s t : State) (e : HostInput) (rest : List HostInput), s.busy = true → s.turn = .input e rest →
    (∀ b, e ≠ .resetPin b) → step s = .next t →
    t = { s with inputs := t.inputs, response := t.response, latencyLeft := s.latencyLeft - 1 }

/-! ### Control and counter -/

/-- R241: NOP completes with no effect. -/
def Obligations.NopOnlyCompletes : Prop :=
  ∀ s : State, exec .nop s =
    .next { s with err := .ok, errPos := 0, done := true, busy := false, pending := none }

/-- R242: CLEAR, with everything it leaves unchanged. -/
def Obligations.ClearReturnsTablesToReset : Prop :=
  ∀ s : State, ∃ t, exec .clear s = .next t ∧
    (∀ c, t.freq.at c = 0) ∧ (∀ c, t.codes.at c = []) ∧
    t = { s with
      freq := t.freq, codes := t.codes, treeValid := false, nodeCount := 0, root := 0, outLen := 0,
      bitLen := 0, crcOut := 0, err := .ok, errPos := 0, done := true, busy := false, pending := none }

/-- R110, R111: COUNT tallies the text, replacing all 256 counters; LEN_RANGE leaves FREQ unchanged. -/
def Obligations.CountTalliesText : Prop :=
  ∀ s : State,
    (s.params.textCap < s.textLen.toNat → exec .count s = .next (s.complete .lenRange 0)) ∧
    (s.textLen.toNat ≤ s.params.textCap → ∃ F : Table Word,
      exec .count s = .next ({ s with freq := F }.complete .ok 0) ∧
      ∀ c, (F.at c).toNat = (text s).count c)

/-! ### Builder -/

/-- R130: ExtractMin removes the entry with the smallest key (freq, index). -/
def Obligations.ExtractMinTakesSmallestKey : Prop :=
  (∀ (F : Table Word) (i : Nat) (n : Node), (leafNodes F)[i]? = some n →
    (leafQueue (leafNodes F))[i]? = some ⟨nodeFreq n, i⟩) ∧
  extractMin [] = none ∧
  ∀ q : List QueueEntry, q ≠ [] → ∃ e rest, extractMin q = some (e, rest) ∧ q.Perm (e :: rest) ∧
    ∀ x ∈ rest, e.freq.toNat < x.freq.toNat ∨ (e.freq = x.freq ∧ e.index ≤ x.index)

/-- R131: the leaves, one per symbol with a non-zero frequency, in ascending symbol order at node[0 .. K-1]. -/
def Obligations.LeavesInAscendingSymbolOrder : Prop :=
  ∀ F : Table Word,
    (leafNodes F).length = distinct F ∧
    (∀ n ∈ leafNodes F, ∃ c, F.at c ≠ 0 ∧ n = .leaf c (F.at c)) ∧
    (∀ c, F.at c ≠ 0 → Node.leaf c (F.at c) ∈ leafNodes F) ∧
    (leafNodes F).Pairwise (fun a b =>
      ∃ c d, a = .leaf c (F.at c) ∧ b = .leaf d (F.at d) ∧ c.toNat < d.toNat) ∧
    (buildNodes F).take (distinct F) = leafNodes F

/-- R132: a pass merges the two entries with the smallest keys into the next node, the first extracted as the
left child, and reinserts it; with fewer than two entries the loop ends. Which code bit each child takes is said
by WalkReadsBackTheText. -/
def Obligations.MergePassJoinsTwoSmallest : Prop :=
  (∀ (k : Nat) (ns : List Node) (q : List QueueEntry), q.length < 2 → mergeNodes k ns q = ns) ∧
  ∀ (k : Nat) (ns : List Node) (q : List QueueEntry), 2 ≤ q.length →
    ∃ a b rest, q.Perm (a :: b :: rest) ∧
      (∀ x ∈ b :: rest, a.freq.toNat < x.freq.toNat ∨ (a.freq = x.freq ∧ a.index ≤ x.index)) ∧
      (∀ x ∈ rest, b.freq.toNat < x.freq.toNat ∨ (b.freq = x.freq ∧ b.index ≤ x.index)) ∧
      mergeNodes (k + 1) ns q =
        mergeNodes k
          (ns ++ [.internal (a.freq + b.freq) (BitVec.ofNat 9 a.index) (BitVec.ofNat 9 b.index)])
          (rest ++ [⟨a.freq + b.freq, ns.length⟩])

/-- R137: BUILD, its two errors and its success; FREQ, memories and result registers are unchanged. What the arena
holds past a tree is no matter of R137; CommandsWriteOnlyTheirOwn says it. -/
def Obligations.BuildInstallsTreeOfFreq : Prop :=
  ∀ s : State,
    (distinct s.freq = 0 → exec .build s = .next
      ({ s with treeValid := false, nodeCount := 0, root := 0, codes := noCodes }.complete
        .emptyInput 0)) ∧
    (distinct s.freq ≠ 0 → 0xFFFFFFFF < total s.freq → exec .build s = .next
      ({ s with treeValid := false, nodeCount := 0, root := 0, codes := noCodes }.complete
        .freqOverflow 0)) ∧
    (distinct s.freq ≠ 0 → total s.freq ≤ 0xFFFFFFFF → ∃ a : Arena,
      exec .build s = .next
        ({ s with
          arena := a, codes := codesOf s.freq, treeValid := true,
          nodeCount := BitVec.ofNat 10 (2 * distinct s.freq - 1),
          root := BitVec.ofNat 9 (2 * distinct s.freq - 2) }.complete .ok 0) ∧
      a.nodes.take (2 * distinct s.freq - 1) = buildNodes s.freq)

/-- R136: the one symbol of a text gets the code "0" and no other symbol has a code. -/
def Obligations.SingleSymbolGetsCodeZero : Prop :=
  ∀ (F : Table Word) (c : Byte), F.at c ≠ 0 → (∀ d, d ≠ c → F.at d = 0) →
    buildNodes F = [.leaf c (F.at c)] ∧ (codesOf F).at c = [false] ∧
    ∀ d, d ≠ c → (codesOf F).at d = []

/-- 41_code_tree_builder.md section 4 (items 1 to 3) and 10_state.md section 3: K leaves, K-1 internal nodes,
every frequency the sum of its children's, every index but the root's the child of exactly one node. -/
def Obligations.BuiltTreeHasItsShape : Prop :=
  ∀ F : Table Word, distinct F ≠ 0 → total F ≤ 0xFFFFFFFF →
    (buildNodes F).length = 2 * distinct F - 1 ∧
    (buildNodes F).countP nodeIsLeaf = distinct F ∧
    (∀ (i : Nat) (f : Word) (l r : BitVec 9), (buildNodes F)[i]? = some (.internal f l r) →
      l.toNat < i ∧ r.toNat < i ∧
      ∃ x y, (buildNodes F)[l.toNat]? = some x ∧ (buildNodes F)[r.toNat]? = some y ∧
        f.toNat = (nodeFreq x).toNat + (nodeFreq y).toNat) ∧
    (∀ j, j < 2 * distinct F - 2 → (childIndices (buildNodes F)).count j = 1) ∧
    ∃ x, (buildNodes F)[2 * distinct F - 2]? = some x ∧ (nodeFreq x).toNat = total F

/-- 41_code_tree_builder.md section 4 (items 4 and 6; item 6 for K ≥ 2, assumption log 13). -/
def Obligations.CodesArePrefixFree : Prop :=
  ∀ F : Table Word, distinct F ≠ 0 → total F ≤ 0xFFFFFFFF →
    (∀ c, (codesOf F).at c ≠ [] ↔ F.at c ≠ 0) ∧
    (∀ c, ((codesOf F).at c).length ≤ 255) ∧
    (2 ≤ distinct F → ∀ c, ((codesOf F).at c).length ≤ distinct F - 1) ∧
    ∀ c d, c ≠ d → (codesOf F).at c ≠ [] → ¬ (codesOf F).at c <+: (codesOf F).at d

/-- 41_code_tree_builder.md section 4 (item 5), scaled by 2^255: the code is full for K ≥ 2. -/
def Obligations.CodesFillTheTree : Prop :=
  ∀ F : Table Word, 2 ≤ distinct F → total F ≤ 0xFFFFFFFF →
    ((allSymbols.filter fun c => F.at c != 0).map fun c => 2 ^ (255 - ((codesOf F).at c).length)).sum =
      2 ^ 255

/-- 41_code_tree_builder.md section 4 (item 7): the bit count of encoding a text is the sum over the symbols
of frequency times code length. -/
def Obligations.EncodedLengthIsWeightedSum : Prop :=
  ∀ T : List Byte, T.length ≤ 268435456 →
    (concatCodes (codesOf (freqCount T)) T).length =
      (allSymbols.map fun c =>
        ((freqCount T).at c).toNat * ((codesOf (freqCount T)).at c).length).sum

/-- R134: what BUILD leaves depends on FREQ alone. -/
def Obligations.BuildDependsOnFreqAlone : Prop :=
  ∀ s u : State, s.freq = u.freq → ∃ t v, exec .build s = .next t ∧ exec .build u = .next v ∧
    t.err = v.err ∧ t.treeValid = v.treeValid ∧ t.nodeCount = v.nodeCount ∧ t.root = v.root ∧
    t.codes = v.codes ∧ ∀ i, i < t.nodeCount.toNat → t.node i = v.node i

/-! ### Walk -/

/-- R135: for K ≥ 2 the code of a symbol is its root-to-leaf path, bit 0 to the left child and bit 1 to the right,
and a symbol that does not occur has no code. And the walk over the concatenated codes of a text gives back the text
and ends at the root (44_decoder.md section 1), for K = 1 too. -/
def Obligations.WalkReadsBackTheText : Prop :=
  ∀ (s : State) (F : Table Word), s.HoldsTreeOf F →
    (2 ≤ distinct F → ∀ c, F.at c ≠ 0 →
      ∃ i, descend s.node (s.codes.at c) s.root.toNat = some i ∧ s.node i = .leaf c (F.at c)) ∧
    (∀ c, F.at c = 0 → s.codes.at c = []) ∧
    ∀ T : List Byte, (∀ c ∈ T, F.at c ≠ 0) → walk s.node s.root (concatCodes s.codes T) = ⟨T, none⟩

/-- Bits that run out inside a codeword fail the walk at that codeword's first bit (44_decoder.md section 1). -/
def Obligations.UnterminatedCodewordFailsWalk : Prop :=
  ∀ (s : State) (F : Table Word) (T : List Byte) (c : Byte) (q : Bitstring), s.HoldsTreeOf F →
    (∀ d ∈ T, F.at d ≠ 0) → q ≠ [] → q ≠ s.codes.at c → q <+: s.codes.at c →
    walk s.node s.root (concatCodes s.codes T ++ q) = ⟨T, some (concatCodes s.codes T).length⟩

/-- R211: the walk whose root is a leaf emits one symbol per bit 0 and fails at the first bit 1. -/
def Obligations.LeafRootWalk : Prop :=
  ∀ (node : Nat → Node) (root : BitVec 9) (c : Byte) (f : Word) (B : Bitstring),
    node root.toNat = .leaf c f →
    (true ∉ B → walk node root B = ⟨List.replicate B.length c, none⟩) ∧
    ∀ k, B[k]? = some true → true ∉ B.take k → walk node root B = ⟨List.replicate k c, some k⟩

/-! ### Bits, checksum, record -/

/-- R185: the packing round trip, and its converse exactly for zero padding. -/
def Obligations.PackUnpackRoundTrip : Prop :=
  (∀ B : Bitstring, unpackBits (packBits B) B.length = B) ∧
  ∀ (P : List Byte) (L : Nat), P.length = ceilDiv L 8 →
    (packBits (unpackBits P L) = P ↔
      ∀ k, L ≤ k → k < 8 * P.length → (P[k / 8]?.getD 0).getLsbD (7 - k % 8) = false)

/-- 43_bit_packer_crc.md section 1: a change confined to one byte, a single-bit flip among them, always changes
the CRC. -/
def Obligations.CrcDetectsChangedByte : Prop :=
  ∀ (D E : List Byte) (a b : Byte), a ≠ b → crc32 (D ++ a :: E) ≠ crc32 (D ++ b :: E)

/-- R187: WriteRecord, byte by byte and bit by bit, with everything it leaves unchanged. -/
def Obligations.WriteRecordLaysOutRecord : Prop :=
  ∀ (s : State) (B : Bitstring) (crc : Word), ceilDiv B.length 8 ≤ s.params.packCap →
    let N := ceilDiv B.length 8
    let t := s.writeRecord B crc
    t.recLen.toNat = 12 + N ∧ t.bitLen.toNat = B.length ∧
    (∀ i, i < 8 → t.memRead .record i =
      (BitVec.ofNat 64 B.length).extractLsb' (8 * place s.be 8 i) 8) ∧
    (∀ k, k < 8 * N → (t.memRead .record (8 + k / 8)).getLsbD (7 - k % 8) = B[k]?.getD false) ∧
    (∀ i, i < 4 → t.memRead .record (8 + N + i) = crc.extractLsb' (8 * place s.be 4 i) 8) ∧
    (∀ i, 12 + N ≤ i → t.memRead .record i = s.memRead .record i) ∧
    t = { s with recMem := t.recMem, recLen := t.recLen, bitLen := t.bitLen, crcOut := crc }

/-- R73, R188: the framing check, and what a record whose framing passes parses to. -/
def Obligations.FramingCheckAndParse : Prop :=
  ∀ s : State, s.recLen.toNat ≤ s.params.recCap →
    let m := s.recLen.toNat
    let L := headerValue s
    let N := ceilDiv L 8
    ((m < 12 ∨ m ≠ 12 + N) → s.parseRecord = none) ∧
    (12 ≤ m → m = 12 + N → ∃ B stored, s.parseRecord = some ⟨L, B, stored⟩ ∧
      B.length = L ∧ L ≤ s.params.outCap ∧
      (∀ k, k < L → B[k]? = some ((s.memRead .record (8 + k / 8)).getLsbD (7 - k % 8))) ∧
      ∀ i, i < 4 → stored.extractLsb' (8 * place s.be 4 i) 8 = s.memRead .record (8 + N + i))

/-- Parsing a record just written gives back its bitstring and checksum, in either byte order. -/
def Obligations.ParseInvertsWrite : Prop :=
  ∀ (s : State) (B : Bitstring) (crc : Word), ceilDiv B.length 8 ≤ s.params.packCap →
    (s.writeRecord B crc).parseRecord = some ⟨B.length, B, crc⟩

/-! ### Encoder and packer commands -/

/-- R161: EMIT, its four errors in order and its success. -/
def Obligations.EmitEncodesText : Prop :=
  ∀ s : State,
    let n := s.textLen.toNat
    let B := (text s).flatMap fun c => s.codes.at c
    (s.params.textCap < n → exec .emit s = .next (s.complete .lenRange 0)) ∧
    (n ≤ s.params.textCap → s.treeValid = false → exec .emit s = .next (s.complete .notReady 0)) ∧
    (n ≤ s.params.textCap → s.treeValid = true →
      (∀ i, i < n → s.codes.at (s.memRead .text i) = [] →
        (∀ j, j < i → s.codes.at (s.memRead .text j) ≠ []) →
        exec .emit s = .next (s.complete .noCode (BitVec.ofNat 32 i))) ∧
      ((∀ i, i < n → s.codes.at (s.memRead .text i) ≠ []) →
        (s.params.packCap < ceilDiv B.length 8 → exec .emit s = .next (s.complete .packOverflow 0)) ∧
        (ceilDiv B.length 8 ≤ s.params.packCap → exec .emit s =
          .next ((s.writeRecord B (crc32 (covered s B (text s)))).complete .ok 0))))

/-- R167: ENCODE is COUNT, BUILD and EMIT in one command: it stops at the first stage that raises, with that
stage's writes, and only LEN_RANGE, EMPTY_INPUT and PACK_OVERFLOW can be raised. -/
def Obligations.EncodeRunsItsThreeStages : Prop :=
  ∀ s c b : State, exec .count s = .next c → exec .build c = .next b →
    (c.err ≠ .ok → exec .encode s = .next c) ∧
    (c.err = .ok → b.err ≠ .ok → exec .encode s = .next b) ∧
    (c.err = .ok → b.err = .ok → exec .encode s = exec .emit b) ∧
    ∃ t, exec .encode s = .next t ∧
      (t.err = .ok ∨ t.err = .lenRange ∨ t.err = .emptyInput ∨ t.err = .packOverflow)

/-- When ENCODE succeeds, and what it leaves (42_encoder.md sections 1 to 3). -/
def Obligations.EncodeSucceedsOnFittingText : Prop :=
  ∀ s : State, 1 ≤ s.textLen.toNat → s.textLen.toNat ≤ s.params.textCap →
    let F := freqCount (text s)
    let B := (text s).flatMap fun c => (codesOf F).at c
    ceilDiv B.length 8 ≤ s.params.packCap →
    ∃ t, exec .encode s = .next t ∧ t.err = .ok ∧ t.HoldsTreeOf F ∧ t.treeValid = true ∧ t.freq = F ∧
      t.parseRecord = some ⟨B.length, B, crc32 (covered s B (text s))⟩ ∧
      t.recLen.toNat = 12 + ceilDiv B.length 8 ∧ t.bitLen.toNat = B.length ∧
      t = { s with
        freq := t.freq, arena := t.arena, codes := t.codes, nodeCount := t.nodeCount, root := t.root,
        treeValid := true, recMem := t.recMem, recLen := t.recLen, bitLen := t.bitLen,
        crcOut := crc32 (covered s B (text s)), err := .ok, errPos := 0, done := true, busy := false,
        pending := none } ∧
      ∀ i, t.recLen.toNat ≤ i → t.memRead .record i = s.memRead .record i

/-- R190: PACK, its three errors in order and its success, which is the same in both CRCSRC modes. -/
def Obligations.PackPacksAsciiBits : Prop :=
  ∀ s : State,
    let n := s.textLen.toNat
    (s.params.textCap < n → exec .pack s = .next (s.complete .lenRange 0)) ∧
    (n ≤ s.params.textCap →
      (∀ i, i < n → s.memRead .text i ≠ 0x30 → s.memRead .text i ≠ 0x31 →
        (∀ j, j < i → s.memRead .text j = 0x30 ∨ s.memRead .text j = 0x31) →
        exec .pack s = .next (s.complete .badBit (BitVec.ofNat 32 i))) ∧
      ((∀ i, i < n → s.memRead .text i = 0x30 ∨ s.memRead .text i = 0x31) →
        (s.params.packCap < ceilDiv n 8 → exec .pack s = .next (s.complete .packOverflow 0)) ∧
        (ceilDiv n 8 ≤ s.params.packCap → exec .pack s =
          .next ((s.writeRecord ((text s).map fun c => c == 0x31) (crc32 (text s))).complete .ok 0))))

/-- R193: UNPACK, its two errors and its success. -/
def Obligations.UnpackWritesAsciiBits : Prop :=
  ∀ s : State,
    (s.params.recCap < s.recLen.toNat →
      exec .unpack s = .next ({ s with outLen := 0 }.complete .lenRange 0)) ∧
    (s.recLen.toNat ≤ s.params.recCap → s.parseRecord = none →
      exec .unpack s = .next ({ s with outLen := 0 }.complete .malformedLen 0)) ∧
    (s.recLen.toNat ≤ s.params.recCap → ∀ r, s.parseRecord = some r → ∃ m : Memory,
      exec .unpack s = .next
        ({ s with
          outMem := m, outLen := BitVec.ofNat 32 r.length, bitLen := BitVec.ofNat 64 r.length,
          crcOut := r.stored }.complete .ok 0) ∧
      (∀ k, k < r.length → m.read .out k = if r.bits[k]?.getD false then 0x31 else 0x30) ∧
      ∀ k, r.length ≤ k → m.read .out k = s.outMem.read .out k)

/-- R180, R195: the checksum function, written out; CRC writes the checksum of the text and nothing else. -/
def Obligations.CrcChecksumsText : Prop :=
  (∀ D : List Byte, crc32 D = crcOf D) ∧ crc32 [] = 0 ∧
  ∀ s : State,
    (s.params.textCap < s.textLen.toNat → exec .crc s = .next (s.complete .lenRange 0)) ∧
    (s.textLen.toNat ≤ s.params.textCap →
      exec .crc s = .next ({ s with crcOut := crc32 (text s) }.complete .ok 0))

/-! ### Decoder command -/

/-- R213, R215 to R218: DECODE, its five errors in priority order and its success. After INTEGRITY and
MALFORMED_WALK no OUT byte keeps a known value, and OUT is a draw that no space had before: the numbers below
`draws` are those handed out, and the numbers themselves are the model's own (assumption logs 3, 11). -/
def Obligations.DecodeWalksAndVerifies : Prop :=
  ∀ s : State,
    (s.params.recCap < s.recLen.toNat →
      exec .decode s = .next ({ s with outLen := 0 }.complete .lenRange 0)) ∧
    (s.recLen.toNat ≤ s.params.recCap → s.treeValid = false →
      exec .decode s = .next ({ s with outLen := 0 }.complete .notReady 0)) ∧
    (s.recLen.toNat ≤ s.params.recCap → s.treeValid = true → s.parseRecord = none →
      exec .decode s = .next ({ s with outLen := 0 }.complete .malformedLen 0)) ∧
    (s.recLen.toNat ≤ s.params.recCap → s.treeValid = true → ∀ r, s.parseRecord = some r →
      let w := walk s.node s.root r.bits
      let crc := crc32 (covered s r.bits w.symbols)
      let s1 := { s with bitLen := BitVec.ofNat 64 r.length, crcOut := crc }
      (crc ≠ r.stored → ∃ (m : Memory) (d : Nat),
        exec .decode s =
          .next ({ s1 with outMem := m, draws := d, outLen := 0 }.complete .integrity 0) ∧
        (∀ i, m.written? i = none) ∧ s.draws ≤ m.draw ∧ m.draw < d) ∧
      (crc = r.stored → ∀ p, w.failure = some p → ∃ (m : Memory) (d : Nat),
        exec .decode s =
          .next ({ s1 with outMem := m, draws := d, outLen := 0 }.complete .malformedWalk
            (BitVec.ofNat 32 p)) ∧
        (∀ i, m.written? i = none) ∧ s.draws ≤ m.draw ∧ m.draw < d) ∧
      (crc = r.stored → w.failure = none → ∃ m : Memory,
        exec .decode s = .next
          ({ s1 with outMem := m, outLen := BitVec.ofNat 32 w.symbols.length }.complete .ok 0) ∧
        w.symbols.length ≤ s.params.outCap ∧
        (∀ i, i < w.symbols.length → w.symbols[i]? = some (m.read .out i)) ∧
        ∀ i, w.symbols.length ≤ i → m.read .out i = s.outMem.read .out i))

/-- R168: the round trip. ENCODE, then DECODE of the same record with the same tree and the same CRCSRC and BE,
reproduces the text. -/
def Obligations.EncodeThenDecodeRestoresText : Prop :=
  ∀ s t u : State, 1 ≤ s.textLen.toNat → s.textLen.toNat ≤ s.params.textCap →
    exec .encode s = .next t → t.err = .ok →
    u.params = t.params → u.crcsrc = t.crcsrc → u.be = t.be → u.treeValid = t.treeValid →
    u.root = t.root → (∀ i, i < t.nodeCount.toNat → u.node i = t.node i) →
    u.recLen = t.recLen → (∀ i, i < t.recLen.toNat → u.memRead .record i = t.memRead .record i) →
    ∃ v, exec .decode u = .next v ∧ v.err = .ok ∧ v.outLen = s.textLen ∧
      ∀ i, i < s.textLen.toNat → v.memRead .out i = s.memRead .text i

/-- 44_decoder.md section 3 (item 1): with CRCSRC = 0, flipping one meaningful bit of a record that decodes is
always reported as INTEGRITY. -/
def Obligations.FlippedBitGivesIntegrity : Prop :=
  ∀ (s t : State) (k : Nat), s.crcsrc = false → exec .decode s = .next t → t.err = .ok →
    k < t.bitLen.toNat →
    ∃ v, exec .decode
        (s.memWrite .record (8 + k / 8)
          [s.memRead .record (8 + k / 8) ^^^ BitVec.twoPow 8 (7 - k % 8)]) = .next v ∧
      v.err = .integrity ∧ v.outLen = 0

/-- 44_decoder.md section 3 (item 4): a flipped padding bit changes nothing of what DECODE gives. -/
def Obligations.FlippedPaddingIsIgnored : Prop :=
  ∀ (s t : State) (k : Nat), exec .decode s = .next t → t.err = .ok → t.bitLen.toNat ≤ k →
    k < 8 * ceilDiv t.bitLen.toNat 8 →
    ∃ v, exec .decode
        (s.memWrite .record (8 + k / 8)
          [s.memRead .record (8 + k / 8) ^^^ BitVec.twoPow 8 (7 - k % 8)]) = .next v ∧
      v = { t with recMem := v.recMem }

/-! ### Frames over all commands -/

/-- What each command can write, over all of them (10_state.md section 4 with the table of each command's
writes; 20_memory.md section 1). That arena entries at and above NODE_COUNT, which are unspecified and
unobservable, are kept is the model's choice (assumption log 4). -/
def Obligations.CommandsWriteOnlyTheirOwn : Prop :=
  ∀ (i : Instr) (s t : State), exec i s = .next t →
    t.textMem = s.textMem ∧
    (i ≠ .emit → i ≠ .encode → i ≠ .pack → t.recMem = s.recMem ∧ t.recLen = s.recLen) ∧
    (i ≠ .decode → i ≠ .unpack → t.outMem = s.outMem ∧ t.draws = s.draws) ∧
    (i ≠ .decode → i ≠ .unpack → i ≠ .clear → t.outLen = s.outLen) ∧
    (i ≠ .count → i ≠ .encode → i ≠ .clear → t.freq = s.freq) ∧
    (i ≠ .build → i ≠ .encode → t.arena = s.arena) ∧
    (t.arena.draw = s.arena.draw ∧ ∀ j, t.nodeCount.toNat ≤ j → t.node j = s.node j) ∧
    (i ≠ .build → i ≠ .encode → i ≠ .clear →
      t.treeValid = s.treeValid ∧ t.codes = s.codes ∧ t.nodeCount = s.nodeCount ∧ t.root = s.root) ∧
    (i = .nop ∨ i = .count ∨ i = .build ∨ i = .crc → t.bitLen = s.bitLen) ∧
    (i = .nop ∨ i = .count ∨ i = .build → t.crcOut = s.crcOut) ∧
    t.params = s.params ∧ t.inReset = s.inReset ∧ t.ie = s.ie ∧ t.crcsrc = s.crcsrc ∧ t.be = s.be ∧
    t.cmd = s.cmd ∧ t.textLen = s.textLen ∧ t.nodeSel = s.nodeSel ∧ t.codeSel = s.codeSel ∧
    t.inputs = s.inputs ∧ t.response = s.response ∧ t.latencyLeft = s.latencyLeft

/-- Only BUILD, ENCODE, CLEAR and reset change TREE_VALID (10_state.md section 2, the register STATUS). -/
def Obligations.TreeValidHasFourWriters : Prop :=
  ∀ s t : State, step s = .next t → t.treeValid ≠ s.treeValid →
    (∃ w i, s.turn = .engine w ∧ decode w = .ok i ∧ (i = .build ∨ i = .encode ∨ i = .clear)) ∨
    ∃ rest, s.turn = .input (.resetPin true) rest

/-! ### The host interface -/

/-- R67: a transaction that ends in BUSERR changes nothing (its response is the model's own field). -/
def Obligations.BusErrorChangesNothing : Prop :=
  ∀ (s : State) (t : Transaction), (s.transact t).response = some .busError →
    s.transact t = { s with response := some .busError }

/-- R66: while BUSY = 1 only ID and STATUS can be read. -/
def Obligations.BusyLocksTheHostOut : Prop :=
  ∀ s : State, s.busy = true → s.inReset = false →
    s.hostRead 0x000 .word = .data 0x48460001 ∧ s.hostRead 0x008 .word = .data s.statusWord ∧
    (∀ (a : Word) (size : AccessSize), ¬ (size = .word ∧ (a = 0x000 ∨ a = 0x008)) →
      s.hostRead a size = .busError) ∧
    ∀ (a : Word) (size : AccessSize) (v : Word), s.hostWrite a size v = (s, .busError)

/-- 10_state.md section 2: a write to a read-only register or to a reserved offset is ignored, and a reserved
offset reads 0. ID and every register below 0x048 that holds storage read their values at their offsets; the
windows are in the statements on them. -/
def Obligations.ReadOnlyAndReservedAreInert : Prop :=
  ∀ (s : State) (off : Nat), s.busy = false → s.inReset = false → off < 0x1000 → off % 4 = 0 →
    ((off ∉ [0x004, 0x008, 0x00C, 0x010, 0x014, 0x034, 0x040] ∧ (off < 0x400 ∨ 0x800 ≤ off)) →
      ∀ v, s.hostWrite (BitVec.ofNat 32 off) .word v = (s, .ok)) ∧
    ((off = 0x048 ∨ off = 0x04C ∨ (0x070 ≤ off ∧ off < 0x400) ∨ 0x800 ≤ off) →
      s.hostRead (BitVec.ofNat 32 off) .word = .data 0) ∧
    s.hostRead 0x000 .word = .data 0x48460001 ∧ s.hostRead 0x004 .word = .data s.ctrlWord ∧
    s.hostRead 0x008 .word = .data s.statusWord ∧ s.hostRead 0x00C .word = .data s.cmd ∧
    s.hostRead 0x010 .word = .data s.textLen ∧ s.hostRead 0x014 .word = .data s.recLen ∧
    s.hostRead 0x018 .word = .data s.outLen ∧
    s.hostRead 0x01C .word = .data (BitVec.ofNat 32 (s.bitLen.toNat % 2 ^ 32)) ∧
    s.hostRead 0x020 .word = .data (BitVec.ofNat 32 (s.bitLen.toNat / 2 ^ 32)) ∧
    s.hostRead 0x024 .word = .data s.crcOut ∧ s.hostRead 0x028 .word = .data s.errPos ∧
    s.hostRead 0x02C .word = .data (BitVec.ofNat 32 s.root.toNat) ∧
    s.hostRead 0x030 .word = .data (BitVec.ofNat 32 s.nodeCount.toNat) ∧
    s.hostRead 0x034 .word = .data (BitVec.ofNat 32 s.nodeSel.toNat) ∧
    s.hostRead 0x040 .word = .data (BitVec.ofNat 32 s.codeSel.toNat)

/-- The read/write registers: a write changes that register only, and reads back with the reserved bits 0
(10_state.md section 2). -/
def Obligations.WritableRegistersReadBack : Prop :=
  ∀ (s : State) (v : Word) (c : Byte), s.busy = false → s.inReset = false →
    s.hostWrite 0x010 .word v = ({ s with textLen := v }, .ok) ∧
    s.hostWrite 0x014 .word v = ({ s with recLen := v }, .ok) ∧
    s.hostWrite 0x034 .word v = ({ s with nodeSel := v.extractLsb' 0 9 }, .ok) ∧
    s.hostWrite 0x040 .word v = ({ s with codeSel := v.extractLsb' 0 8 }, .ok) ∧
    s.hostWrite 0x004 .word v =
      ({ s with ie := v.getLsbD 0, crcsrc := v.getLsbD 1, be := v.getLsbD 2 }, .ok) ∧
    (∃ F : Table Word, s.hostWrite (BitVec.ofNat 32 (0x400 + 4 * c.toNat)) .word v =
        ({ s with freq := F }, .ok) ∧
      F.at c = v ∧ ∀ d, d ≠ c → F.at d = s.freq.at d) ∧
    (s.hostWrite 0x010 .word v).1.hostRead 0x010 .word = .data v ∧
    (s.hostWrite 0x014 .word v).1.hostRead 0x014 .word = .data v ∧
    (s.hostWrite 0x034 .word v).1.hostRead 0x034 .word = .data (v &&& 0x1FF) ∧
    (s.hostWrite 0x040 .word v).1.hostRead 0x040 .word = .data (v &&& 0xFF) ∧
    (s.hostWrite 0x004 .word v).1.hostRead 0x004 .word = .data (v &&& 0x7) ∧
    s.hostRead (BitVec.ofNat 32 (0x400 + 4 * c.toNat)) .word = .data (s.freq.at c)

/-- R64: a memory window takes one byte, stores v[7:0] and returns it zero-extended; any other size is a
BUSERR; no other byte changes. -/
def Obligations.MemoryWindowHoldsBytes : Prop :=
  ∀ (s : State) (sp : Space) (i : Nat) (v : Word), s.busy = false → s.inReset = false →
    i < s.params.spaceCap sp →
    let a := BitVec.ofNat 32 (spaceBase sp + i)
    s.hostRead a .byte = .data ((s.memRead sp i).setWidth 32) ∧
    (∃ m : Memory, s.hostWrite a .byte v = (s.setMem sp m, .ok) ∧
      m.read sp i = v.extractLsb' 0 8 ∧ ∀ j, j ≠ i → m.read sp j = (s.mem sp).read sp j) ∧
    (s.hostWrite a .byte v).1.hostRead a .byte = .data (v &&& 0xFF) ∧
    ∀ size, size ≠ .byte → s.hostRead a size = .busError ∧ s.hostWrite a size v = (s, .busError)

/-- R65, and the width and alignment of register accesses: everything outside the map is a BUSERR with no
effect. -/
def Obligations.OutsideTheMapIsBusError : Prop :=
  ∀ (s : State) (a : Word) (size : AccessSize) (v : Word),
    ((a.toNat < 0x1000 ∧ ¬ (size = .word ∧ a.toNat % 4 = 0)) ∨
      (0x1000 ≤ a.toNat ∧
        ∀ sp, ¬ (spaceBase sp ≤ a.toNat ∧ a.toNat < spaceBase sp + s.params.spaceCap sp))) →
    s.hostRead a size = .busError ∧ s.hostWrite a size v = (s, .busError)

/-- The error codes (60_exceptions.md section 1) and the fields of STATUS and CTRL, bit by bit (10_state.md
section 2). -/
def Obligations.StatusAndCtrlBits : Prop :=
  (ErrCode.ok.code = 0x00 ∧ ErrCode.illegalCmd.code = 0x01 ∧ ErrCode.lenRange.code = 0x02 ∧
    ErrCode.notReady.code = 0x03 ∧ ErrCode.emptyInput.code = 0x04 ∧ ErrCode.freqOverflow.code = 0x05 ∧
    ErrCode.noCode.code = 0x06 ∧ ErrCode.badBit.code = 0x07 ∧ ErrCode.packOverflow.code = 0x08 ∧
    ErrCode.malformedLen.code = 0x09 ∧ ErrCode.malformedWalk.code = 0x0A ∧
    ErrCode.integrity.code = 0x0B) ∧
  ∀ (s : State) (k : Nat), k < 32 →
    s.statusWord.getLsbD k =
      (if k = 0 then s.busy else if k = 1 then s.done else if k = 2 then s.treeValid
        else if 8 ≤ k ∧ k < 16 then s.err.code.getLsbD (k - 8) else false) ∧
    s.ctrlWord.getLsbD k = (if k = 0 then s.ie else if k = 1 then s.crcsrc else if k = 2 then s.be
      else false)

/-- R28, R268, R269: DONE is set by every completion and cleared by writing 1 to STATUS[1] or by an acceptance;
IRQ is the level DONE AND IE. -/
def Obligations.InterruptFollowsDoneAndEnable : Prop :=
  (∀ s : State, s.irq = (s.done && s.ie)) ∧
  (∀ (i : Instr) (s : State), ∃ t, exec i s = .next t ∧ t.done = true ∧ t.irq = s.ie) ∧
  (∀ (s : State) (v : Word), s.busy = false → s.inReset = false →
    (s.hostWrite 0x008 .word v = ({ s with done := s.done && !v.getLsbD 1 }, .ok) ∧
      (s.hostWrite 0x004 .word v).1.irq = (s.done && v.getLsbD 0) ∧
      (s.hostWrite 0x00C .word v).1.done = false ∧ (s.hostWrite 0x00C .word v).1.irq = false)) ∧
  ∀ s : State, s.illegalCommand.done = true ∧ s.assertReset.done = false ∧ s.assertReset.irq = false ∧
    State.reset.done = false

/-- R290 to R292: asserting `rst` in any state, a running command or not, leaves every register at its reset
value, every memory byte unspecified, by draws no space had before, and every transaction answered with BUSERR
and no effect until it is deasserted. The parameters and the inputs to come are not state of the core
(assumption log 10), and the numbers of the draws, of which those below `draws` have been handed out, are the
model's own (assumption log 3). -/
def Obligations.AssertedResetTakesEveryResetValue : Prop :=
  ∀ s : State,
    let t := s.serve (.resetPin true)
    let u := t.serve (.resetPin false)
    t.inReset = true ∧
    (∀ a size, t.hostRead a size = .busError ∧ ∀ v, t.hostWrite a size v = (t, .busError)) ∧
    t.fetched = none ∧ t.irq = false ∧
    u = { t with inReset := false } ∧ u.busy = false ∧ u.pending = none ∧ u.done = false ∧
    u.params = s.params ∧ u.inputs = s.inputs ∧
    (∀ r, u.regValue r = if r = .id then 0x48460001 else 0) ∧
    (∀ c, u.codes.at c = []) ∧
    (∀ sp, (∀ i, (u.mem sp).written? i = none) ∧ s.draws ≤ (u.mem sp).draw ∧ (u.mem sp).draw < u.draws) ∧
    ∀ tr, u.lockedOut tr = false

/-- The machine after reset: every register reads its reset value and the core waits (70_reset_and_hazards.md
section 1). That an idle step keeps the state is the model's choice (assumption log 6). -/
def Obligations.ResetStateIsIdle : Prop :=
  (∀ r, State.reset.regValue r = if r = .id then 0x48460001 else 0) ∧ State.reset.irq = false ∧
  State.reset.turn = .idle ∧ step State.reset = .next State.reset ∧
  (∀ sp i, (State.reset.mem sp).written? i = none) ∧ ∀ c, State.reset.codes.at c = []

/-- R40, R41: the arena window, at its offsets. -/
def Obligations.NodeWindowShowsSelectedNode : Prop :=
  ∀ s : State,
    (s.busy = false → s.inReset = false →
      s.hostRead 0x038 .word = .data (s.regValue .nodeFreq) ∧
      s.hostRead 0x03C .word = .data (s.regValue .nodeInfo)) ∧
    (s.nodeCount.toNat ≤ s.nodeSel.toNat → s.regValue .nodeFreq = 0 ∧ s.regValue .nodeInfo = 0) ∧
    (s.nodeSel.toNat < s.nodeCount.toNat →
      s.regValue .nodeFreq = nodeFreq (s.node s.nodeSel.toNat) ∧
      (∀ c f, s.node s.nodeSel.toNat = .leaf c f →
        (s.regValue .nodeInfo).toNat = 2 ^ 31 + 2 ^ 18 * c.toNat) ∧
      ∀ f l r, s.node s.nodeSel.toNat = .internal f l r →
        (s.regValue .nodeInfo).toNat = 2 ^ 9 * r.toNat + l.toNat)

/-- R43, R44: the code window, left-aligned and most-significant-bit first, at its offsets. -/
def Obligations.CodeWindowShowsSelectedCode : Prop :=
  ∀ s : State, (s.codes.at s.codeSel).length ≤ 255 →
    (s.busy = false → s.inReset = false →
      s.hostRead 0x044 .word = .data (s.regValue .codeLen) ∧
      ∀ j : Fin 8, s.hostRead (BitVec.ofNat 32 (0x050 + 4 * j.val)) .word =
        .data (s.regValue (.codeBits j))) ∧
    (s.regValue .codeLen).toNat = (s.codes.at s.codeSel).length ∧
    ∀ (j : Fin 8) (k : Nat), k < 32 →
      (s.regValue (.codeBits j)).getLsbD (31 - k) =
        (s.codes.at s.codeSel)[32 * j.val + k]?.getD false

/-! ### The invariant -/

/-- The invariant holds after reset. -/
def Obligations.InvariantAtReset : Prop := State.reset.Inv

/-- Every step keeps the invariant. -/
def Obligations.InvariantKeptByEveryStep : Prop :=
  ∀ s t : State, s.Inv → step s = .next t → t.Inv

/-- No step changes the implementation parameters (00_scope.md section 4). -/
def Obligations.ParametersNeverChange : Prop := ∀ s t : State, step s = .next t → t.params = s.params
end

