-- ==== Sys2Proof/Laws/Bits.lean ====
section
/-! SUPPORT. Lengths and values of the byte and bit functions. -/

namespace Sys2Proof.Machine

@[simp] theorem ascii_length (B : Bitstring) : (ascii B).length = B.length := by simp [ascii]

@[simp] theorem packGroups_length (n : Nat) (B : Bitstring) : (packGroups n B).length = n := by
  induction n generalizing B with
  | zero => rfl
  | succ n ih => simp [packGroups, ih]

@[simp] theorem packBits_length (B : Bitstring) : (packBits B).length = ceilDiv B.length 8 := by
  simp [packBits]

@[simp] theorem byteBits_length (b : Byte) : (byteBits b).length = 8 := by simp [byteBits]

@[simp] theorem leBytes_length (n v : Nat) : (leBytes n v).length = n := by
  induction n generalizing v with
  | zero => rfl
  | succ n ih => simp [leBytes, ih]

@[simp] theorem beBytes_length (n v : Nat) : (beBytes n v).length = n := by simp [beBytes]

@[simp] theorem fieldBytes_length (be : Bool) (n v : Nat) : (fieldBytes be n v).length = n := by
  cases be <;> simp [fieldBytes]

@[simp] theorem recordBytes_length (be : Bool) (B : Bitstring) (crc : Word) :
    (recordBytes be B crc).length = 12 + ceilDiv B.length 8 := by
  simp [recordBytes]; omega

theorem natOfBits_lt (n : Nat) (B : Bitstring) : natOfBits n B < 2 ^ n := by
  induction n generalizing B with
  | zero => simp [natOfBits]
  | succ n ih =>
    cases B with
    | nil => simp [natOfBits]
    | cons b B =>
      have := ih B
      simp only [natOfBits, Nat.pow_succ]
      split <;> omega

@[simp] theorem msbFirst_toNat (n : Nat) (B : Bitstring) : (msbFirst n B).toNat = natOfBits n B := by
  simp [msbFirst, Nat.mod_eq_of_lt (natOfBits_lt n B)]

/-- `from_le` undoes `le_bytes_n` below 2^(8n). -/
theorem fromLe_leBytes (n v : Nat) : fromLe (leBytes n v) = v % 256 ^ n := by
  induction n generalizing v with
  | zero => simp [leBytes, fromLe, Nat.mod_one]
  | succ n ih =>
    rw [leBytes, fromLe, ih, BitVec.toNat_ofNat, Nat.pow_succ' (n := n)]
    exact (Nat.mod_mul (x := v) (a := 256) (b := 256 ^ n)).symm

theorem fieldValue_fieldBytes (be : Bool) (n v : Nat) :
    fieldValue be (fieldBytes be n v) = v % 256 ^ n := by
  cases be <;> simp [fieldValue, fieldBytes, fromBe, beBytes, fromLe_leBytes]

theorem fromLe_lt (bs : List Byte) : fromLe bs < 256 ^ bs.length := by
  induction bs with
  | nil => simp [fromLe]
  | cons b bs ih =>
    have hb := b.isLt
    simp only [fromLe, List.length_cons, Nat.pow_succ']
    omega

theorem fieldValue_lt (be : Bool) (bs : List Byte) : fieldValue be bs < 256 ^ bs.length := by
  cases be
  · exact fromLe_lt bs
  · simpa [fieldValue, fromBe] using fromLe_lt bs.reverse

theorem unpackBits_length {P : List Byte} {L : Nat} (h : L ≤ 8 * P.length) :
    (unpackBits P L).length = L := by
  have hl : (P.flatMap byteBits).length = 8 * P.length := by
    clear h
    induction P with
    | nil => rfl
    | cons b P ih => simp only [List.flatMap_cons, List.length_append, byteBits_length, ih, List.length_cons]; omega
  simp [unpackBits, hl, h]

theorem le_eight_mul_ceilDiv (L : Nat) : L ≤ 8 * ceilDiv L 8 := by
  unfold ceilDiv; omega

end Sys2Proof.Machine
end

