-- ==== Sys2Proof/Laws/Memory.lean ====
section
/-! SUPPORT. The memory laws: what a byte reads after a write, that every operation keeps the canonical form, and
that equal contents in canonical form are equal data. -/

namespace Sys2Proof.Machine

/-! ### Cells -/

@[simp] theorem lookupCell_insertCell_same (i : Nat) (b : Byte) (cs : List Host.Cell) :
    lookupCell i (insertCell i b cs) = some b := by
  induction cs with
  | nil => simp [insertCell, lookupCell]
  | cons c cs ih =>
    obtain ⟨j, v⟩ := c
    simp only [insertCell]
    split
    · simp [lookupCell]
    · split
      · simp [lookupCell]
      · rename_i h
        simp [lookupCell, h, ih]

theorem lookupCell_insertCell_other {i j : Nat} (h : j ≠ i) (b : Byte) (cs : List Host.Cell) :
    lookupCell j (insertCell i b cs) = lookupCell j cs := by
  induction cs with
  | nil => simp [insertCell, lookupCell, h]
  | cons c cs ih =>
    obtain ⟨k, v⟩ := c
    simp only [insertCell]
    split
    · simp [lookupCell, h]
    · split
      · rename_i hk
        subst hk
        simp [lookupCell, h]
      · simp [lookupCell, ih]

theorem mem_insertCell {i : Nat} {b : Byte} {cs : List Host.Cell} {c : Host.Cell}
    (h : c ∈ insertCell i b cs) : c = (i, b) ∨ c ∈ cs := by
  induction cs with
  | nil => simpa [insertCell] using h
  | cons d cs ih =>
    obtain ⟨j, v⟩ := d
    simp only [insertCell] at h
    split at h
    · simpa using h
    · split at h
      · rcases List.mem_cons.1 h with h | h
        · exact .inl h
        · exact .inr (List.mem_cons_of_mem _ h)
      · rcases List.mem_cons.1 h with h | h
        · exact .inr (h ▸ List.mem_cons_self)
        · exact (ih h).imp_right (List.mem_cons_of_mem _)

theorem insertCell_pairwise {i : Nat} {b : Byte} {cs : List Host.Cell}
    (h : cs.Pairwise fun a b => a.1 < b.1) : (insertCell i b cs).Pairwise fun a b => a.1 < b.1 := by
  induction cs with
  | nil => simp [insertCell]
  | cons d cs ih =>
    obtain ⟨j, v⟩ := d
    obtain ⟨hd, ht⟩ := List.pairwise_cons.1 h
    simp only [insertCell]
    split
    · rename_i hij
      refine List.pairwise_cons.2 ⟨fun c hc => ?_, h⟩
      rcases List.mem_cons.1 hc with hc | hc
      · simpa [hc] using hij
      · exact Nat.lt_trans hij (hd c hc)
    · split
      · rename_i hij
        subst hij
        exact List.pairwise_cons.2 ⟨hd, ht⟩
      · refine List.pairwise_cons.2 ⟨fun c hc => ?_, ih ht⟩
        rcases mem_insertCell hc with hc | hc
        · subst hc
          simp only
          omega
        · exact hd c hc

theorem lookupCell_eq_none_of_lt {i : Nat} {cs : List Host.Cell} (h : ∀ c ∈ cs, i < c.1) :
    lookupCell i cs = none := by
  induction cs with
  | nil => rfl
  | cons d cs ih =>
    obtain ⟨j, v⟩ := d
    have hj : i < j := h (j, v) List.mem_cons_self
    simp [lookupCell, Nat.ne_of_lt hj, ih fun c hc => h c (List.mem_cons_of_mem _ hc)]

/-- Two canonical lists with the same contents are the same list. -/
theorem cells_ext {cs ds : List Host.Cell} (hc : cs.Pairwise fun a b => a.1 < b.1)
    (hd : ds.Pairwise fun a b => a.1 < b.1) (h : ∀ i, lookupCell i cs = lookupCell i ds) : cs = ds := by
  induction cs generalizing ds with
  | nil =>
    cases ds with
    | nil => rfl
    | cons d ds => have := h d.1; simp [lookupCell] at this
  | cons c cs ih =>
    cases ds with
    | nil => have := h c.1; simp [lookupCell] at this
    | cons d ds =>
      obtain ⟨i, v⟩ := c
      obtain ⟨j, w⟩ := d
      obtain ⟨hc1, hc2⟩ := List.pairwise_cons.1 hc
      obtain ⟨hd1, hd2⟩ := List.pairwise_cons.1 hd
      have hij : i = j := by
        rcases Nat.lt_trichotomy i j with hlt | heq | hgt
        · have hn : lookupCell i ((j, w) :: ds) = none := by
            refine lookupCell_eq_none_of_lt fun c hc => ?_
            rcases List.mem_cons.1 hc with rfl | hc
            · exact hlt
            · exact Nat.lt_trans hlt (hd1 c hc)
          have := h i
          rw [hn] at this
          simp [lookupCell] at this
        · exact heq
        · have hn : lookupCell j ((i, v) :: cs) = none := by
            refine lookupCell_eq_none_of_lt fun c hc => ?_
            rcases List.mem_cons.1 hc with rfl | hc
            · exact hgt
            · exact Nat.lt_trans hgt (hc1 c hc)
          have := h j
          rw [hn] at this
          simp [lookupCell] at this
      subst hij
      have hv : v = w := by simpa [lookupCell] using h i
      subst hv
      congr 1
      refine ih hc2 hd2 fun k => ?_
      by_cases hk : k = i
      · subst hk
        rw [lookupCell_eq_none_of_lt fun c hc => hc1 c hc, lookupCell_eq_none_of_lt fun c hc => hd1 c hc]
      · simpa [lookupCell, hk] using h k

/-! ### One byte -/

@[simp] theorem Memory.write_draw (m : Memory) (i : Nat) (b : Byte) : (m.write i b).draw = m.draw := rfl

@[simp] theorem Memory.written?_write_same (m : Memory) (i : Nat) (b : Byte) :
    (m.write i b).written? i = some b := by
  simp [Memory.write, Memory.written?]

theorem Memory.written?_write_other {i j : Nat} (h : j ≠ i) (m : Memory) (b : Byte) :
    (m.write i b).written? j = m.written? j := by
  simp [Memory.write, Memory.written?, lookupCell_insertCell_other h]

@[simp] theorem Memory.read_write_same (sp : Space) (m : Memory) (i : Nat) (b : Byte) :
    (m.write i b).read sp i = b := by
  simp [Memory.read]

theorem Memory.read_write_other {i j : Nat} (h : j ≠ i) (sp : Space) (m : Memory) (b : Byte) :
    (m.write i b).read sp j = m.read sp j := by
  simp [Memory.read, Memory.written?_write_other h]

theorem Memory.wf_write {m : Memory} (h : m.wf) (i : Nat) (b : Byte) : (m.write i b).wf :=
  insertCell_pairwise h

theorem Memory.wf_unspecified (d : Nat) : (Memory.unspecified d).wf := List.Pairwise.nil

@[simp] theorem Memory.written?_unspecified (d i : Nat) : (Memory.unspecified d).written? i = none := rfl

/-- Equal contents, of the same draw and in canonical form, are equal data. -/
theorem Memory.ext_written {m n : Memory} (hm : m.wf) (hn : n.wf) (hd : m.draw = n.draw)
    (h : ∀ i, m.written? i = n.written? i) : m = n := by
  cases m; cases n
  simp only at hd
  subst hd
  simp only [Memory.mk.injEq, and_true]
  exact cells_ext hm hn h

/-! ### Runs of bytes -/

@[simp] theorem Memory.writeBytes_draw (m : Memory) (i : Nat) (bs : List Byte) :
    (m.writeBytes i bs).draw = m.draw := by
  induction bs generalizing m i with
  | nil => rfl
  | cons b bs ih => simp [Memory.writeBytes, ih]

theorem Memory.wf_writeBytes {m : Memory} (h : m.wf) (i : Nat) (bs : List Byte) :
    (m.writeBytes i bs).wf := by
  induction bs generalizing m i with
  | nil => exact h
  | cons b bs ih => exact ih (Memory.wf_write h i b) (i + 1)

/-- Everything a run of stores does: the bytes of the list from index `i` on, and no other byte. -/
theorem Memory.written?_writeBytes (m : Memory) (i : Nat) (bs : List Byte) (j : Nat) :
    (m.writeBytes i bs).written? j =
      if i ≤ j ∧ j < i + bs.length then bs[j - i]? else m.written? j := by
  induction bs generalizing m i with
  | nil =>
    have : ¬(i ≤ j ∧ j < i + ([] : List Byte).length) := by simp
    rw [if_neg this]; rfl
  | cons b bs ih =>
    rw [Memory.writeBytes, ih]
    by_cases hj : j = i
    · subst hj
      simp
    · by_cases h1 : i + 1 ≤ j ∧ j < i + 1 + bs.length
      · have h2 : i ≤ j ∧ j < i + (b :: bs).length := by simp only [List.length_cons]; omega
        have h3 : j - i = (j - (i + 1)) + 1 := by omega
        rw [if_pos h1, if_pos h2, h3, List.getElem?_cons_succ]
      · have h2 : ¬(i ≤ j ∧ j < i + (b :: bs).length) := by simp only [List.length_cons]; omega
        rw [if_neg h1, if_neg h2, Memory.written?_write_other hj]

theorem Memory.read_writeBytes_outside {i j : Nat} {bs : List Byte} (h : j < i ∨ i + bs.length ≤ j)
    (sp : Space) (m : Memory) : (m.writeBytes i bs).read sp j = m.read sp j := by
  have hn : ¬(i ≤ j ∧ j < i + bs.length) := by omega
  simp [Memory.read, Memory.written?_writeBytes, hn]

theorem Memory.read_writeBytes_inside {i k : Nat} {bs : List Byte} (h : k < bs.length)
    (sp : Space) (m : Memory) : (m.writeBytes i bs).read sp (i + k) = bs[k] := by
  have hn : i ≤ i + k ∧ i + k < i + bs.length := by omega
  simp [Memory.read, Memory.written?_writeBytes, hn, h]

theorem Memory.mem_writeBytes {m : Memory} {i : Nat} {bs : List Byte} {c : Host.Cell}
    (h : c ∈ (m.writeBytes i bs).cells) : c.1 < i + bs.length ∨ c ∈ m.cells := by
  induction bs generalizing m i with
  | nil => exact .inr h
  | cons b bs ih =>
    rcases ih h with h | h
    · simp only [List.length_cons]; omega
    · rcases mem_insertCell h with rfl | h
      · simp
      · exact .inr h

@[simp] theorem Memory.readBytes_length (sp : Space) (m : Memory) (i n : Nat) :
    (m.readBytes sp i n).length = n := by
  induction n generalizing i with
  | zero => rfl
  | succ n ih => simp [Memory.readBytes, ih]

theorem Memory.readBytes_getElem? (sp : Space) (m : Memory) (i n k : Nat) :
    (m.readBytes sp i n)[k]? = if k < n then some (m.read sp (i + k)) else none := by
  induction n generalizing i k with
  | zero => simp [Memory.readBytes]
  | succ n ih =>
    cases k with
    | zero => simp [Memory.readBytes]
    | succ k =>
      rw [Memory.readBytes, List.getElem?_cons_succ, ih]
      simp only [Nat.succ_lt_succ_iff]
      rw [show i + 1 + k = i + (k + 1) by omega]

/-- A run of reads depends on the bytes read only. -/
theorem Memory.readBytes_congr {sp : Space} {m m' : Memory} {i n : Nat}
    (h : ∀ k, k < n → m.read sp (i + k) = m'.read sp (i + k)) :
    m.readBytes sp i n = m'.readBytes sp i n := by
  refine List.ext_getElem? fun k => ?_
  rw [Memory.readBytes_getElem?, Memory.readBytes_getElem?]
  split
  · rw [h k ‹_›]
  · rfl

/-- Reading back a run of stores. -/
theorem Memory.readBytes_writeBytes (sp : Space) (m : Memory) (i : Nat) (bs : List Byte) :
    (m.writeBytes i bs).readBytes sp i bs.length = bs := by
  refine List.ext_getElem? fun k => ?_
  rw [Memory.readBytes_getElem?]
  split
  · rename_i h
    rw [Memory.read_writeBytes_inside h, List.getElem?_eq_getElem h]
  · rename_i h
    rw [List.getElem?_eq_none (by omega)]

/-! ### At the level of the state -/

theorem State.memRead_memWrite_outside (s : State) {sp : Space} {i j : Nat} {bs : List Byte}
    (h : j < i ∨ i + bs.length ≤ j) : (s.memWrite sp i bs).memRead sp j = s.memRead sp j := by
  cases sp <;> exact Memory.read_writeBytes_outside h _ _

theorem State.memRead_memWrite_inside (s : State) {sp : Space} {i k : Nat} {bs : List Byte}
    (h : k < bs.length) : (s.memWrite sp i bs).memRead sp (i + k) = bs[k] := by
  cases sp <;> exact Memory.read_writeBytes_inside h _ _

theorem State.memRead_memWrite_other (s : State) {sp sp' : Space} (h : sp' ≠ sp) (i j : Nat)
    (bs : List Byte) : (s.memWrite sp i bs).memRead sp' j = s.memRead sp' j := by
  cases sp <;> cases sp' <;> first | rfl | exact absurd rfl h

end Sys2Proof.Machine
end

