-- ==== Sys2Proof/Laws/State.lean ====
section
/-! SUPPORT. What each named update of the state does to each field: one lemma per field, true by rfl. -/

namespace Sys2Proof.Machine

variable (s : State)

/-! ### complete -/

@[simp] theorem State.complete_params (e : ErrCode) (p : Word) : (s.complete e p).params = s.params := rfl
@[simp] theorem State.complete_inReset (e : ErrCode) (p : Word) : (s.complete e p).inReset = s.inReset := rfl
@[simp] theorem State.complete_ie (e : ErrCode) (p : Word) : (s.complete e p).ie = s.ie := rfl
@[simp] theorem State.complete_crcsrc (e : ErrCode) (p : Word) : (s.complete e p).crcsrc = s.crcsrc := rfl
@[simp] theorem State.complete_be (e : ErrCode) (p : Word) : (s.complete e p).be = s.be := rfl
@[simp] theorem State.complete_busy (e : ErrCode) (p : Word) : (s.complete e p).busy = false := rfl
@[simp] theorem State.complete_done (e : ErrCode) (p : Word) : (s.complete e p).done = true := rfl
@[simp] theorem State.complete_treeValid (e : ErrCode) (p : Word) : (s.complete e p).treeValid = s.treeValid := rfl
@[simp] theorem State.complete_err (e : ErrCode) (p : Word) : (s.complete e p).err = e := rfl
@[simp] theorem State.complete_cmd (e : ErrCode) (p : Word) : (s.complete e p).cmd = s.cmd := rfl
@[simp] theorem State.complete_textLen (e : ErrCode) (p : Word) : (s.complete e p).textLen = s.textLen := rfl
@[simp] theorem State.complete_recLen (e : ErrCode) (p : Word) : (s.complete e p).recLen = s.recLen := rfl
@[simp] theorem State.complete_outLen (e : ErrCode) (p : Word) : (s.complete e p).outLen = s.outLen := rfl
@[simp] theorem State.complete_bitLen (e : ErrCode) (p : Word) : (s.complete e p).bitLen = s.bitLen := rfl
@[simp] theorem State.complete_crcOut (e : ErrCode) (p : Word) : (s.complete e p).crcOut = s.crcOut := rfl
@[simp] theorem State.complete_errPos (e : ErrCode) (p : Word) : (s.complete e p).errPos = p := rfl
@[simp] theorem State.complete_root (e : ErrCode) (p : Word) : (s.complete e p).root = s.root := rfl
@[simp] theorem State.complete_nodeCount (e : ErrCode) (p : Word) : (s.complete e p).nodeCount = s.nodeCount := rfl
@[simp] theorem State.complete_nodeSel (e : ErrCode) (p : Word) : (s.complete e p).nodeSel = s.nodeSel := rfl
@[simp] theorem State.complete_codeSel (e : ErrCode) (p : Word) : (s.complete e p).codeSel = s.codeSel := rfl
@[simp] theorem State.complete_freq (e : ErrCode) (p : Word) : (s.complete e p).freq = s.freq := rfl
@[simp] theorem State.complete_arena (e : ErrCode) (p : Word) : (s.complete e p).arena = s.arena := rfl
@[simp] theorem State.complete_codes (e : ErrCode) (p : Word) : (s.complete e p).codes = s.codes := rfl
@[simp] theorem State.complete_textMem (e : ErrCode) (p : Word) : (s.complete e p).textMem = s.textMem := rfl
@[simp] theorem State.complete_recMem (e : ErrCode) (p : Word) : (s.complete e p).recMem = s.recMem := rfl
@[simp] theorem State.complete_outMem (e : ErrCode) (p : Word) : (s.complete e p).outMem = s.outMem := rfl
@[simp] theorem State.complete_pending (e : ErrCode) (p : Word) : (s.complete e p).pending = none := rfl
@[simp] theorem State.complete_inputs (e : ErrCode) (p : Word) : (s.complete e p).inputs = s.inputs := rfl
@[simp] theorem State.complete_response (e : ErrCode) (p : Word) : (s.complete e p).response = s.response := rfl
@[simp] theorem State.complete_latencyLeft (e : ErrCode) (p : Word) : (s.complete e p).latencyLeft = s.latencyLeft := rfl
@[simp] theorem State.complete_draws (e : ErrCode) (p : Word) : (s.complete e p).draws = s.draws := rfl

/-! ### invalidateTree -/

@[simp] theorem State.invalidateTree_params : (s.invalidateTree).params = s.params := rfl
@[simp] theorem State.invalidateTree_inReset : (s.invalidateTree).inReset = s.inReset := rfl
@[simp] theorem State.invalidateTree_ie : (s.invalidateTree).ie = s.ie := rfl
@[simp] theorem State.invalidateTree_crcsrc : (s.invalidateTree).crcsrc = s.crcsrc := rfl
@[simp] theorem State.invalidateTree_be : (s.invalidateTree).be = s.be := rfl
@[simp] theorem State.invalidateTree_busy : (s.invalidateTree).busy = s.busy := rfl
@[simp] theorem State.invalidateTree_done : (s.invalidateTree).done = s.done := rfl
@[simp] theorem State.invalidateTree_treeValid : (s.invalidateTree).treeValid = false := rfl
@[simp] theorem State.invalidateTree_err : (s.invalidateTree).err = s.err := rfl
@[simp] theorem State.invalidateTree_cmd : (s.invalidateTree).cmd = s.cmd := rfl
@[simp] theorem State.invalidateTree_textLen : (s.invalidateTree).textLen = s.textLen := rfl
@[simp] theorem State.invalidateTree_recLen : (s.invalidateTree).recLen = s.recLen := rfl
@[simp] theorem State.invalidateTree_outLen : (s.invalidateTree).outLen = s.outLen := rfl
@[simp] theorem State.invalidateTree_bitLen : (s.invalidateTree).bitLen = s.bitLen := rfl
@[simp] theorem State.invalidateTree_crcOut : (s.invalidateTree).crcOut = s.crcOut := rfl
@[simp] theorem State.invalidateTree_errPos : (s.invalidateTree).errPos = s.errPos := rfl
@[simp] theorem State.invalidateTree_root : (s.invalidateTree).root = 0 := rfl
@[simp] theorem State.invalidateTree_nodeCount : (s.invalidateTree).nodeCount = 0 := rfl
@[simp] theorem State.invalidateTree_nodeSel : (s.invalidateTree).nodeSel = s.nodeSel := rfl
@[simp] theorem State.invalidateTree_codeSel : (s.invalidateTree).codeSel = s.codeSel := rfl
@[simp] theorem State.invalidateTree_freq : (s.invalidateTree).freq = s.freq := rfl
@[simp] theorem State.invalidateTree_arena : (s.invalidateTree).arena = s.arena := rfl
@[simp] theorem State.invalidateTree_codes : (s.invalidateTree).codes = noCodes := rfl
@[simp] theorem State.invalidateTree_textMem : (s.invalidateTree).textMem = s.textMem := rfl
@[simp] theorem State.invalidateTree_recMem : (s.invalidateTree).recMem = s.recMem := rfl
@[simp] theorem State.invalidateTree_outMem : (s.invalidateTree).outMem = s.outMem := rfl
@[simp] theorem State.invalidateTree_pending : (s.invalidateTree).pending = s.pending := rfl
@[simp] theorem State.invalidateTree_inputs : (s.invalidateTree).inputs = s.inputs := rfl
@[simp] theorem State.invalidateTree_response : (s.invalidateTree).response = s.response := rfl
@[simp] theorem State.invalidateTree_latencyLeft : (s.invalidateTree).latencyLeft = s.latencyLeft := rfl
@[simp] theorem State.invalidateTree_draws : (s.invalidateTree).draws = s.draws := rfl

/-! ### installTree -/

@[simp] theorem State.installTree_params (F : Table Word) : (s.installTree F).params = s.params := rfl
@[simp] theorem State.installTree_inReset (F : Table Word) : (s.installTree F).inReset = s.inReset := rfl
@[simp] theorem State.installTree_ie (F : Table Word) : (s.installTree F).ie = s.ie := rfl
@[simp] theorem State.installTree_crcsrc (F : Table Word) : (s.installTree F).crcsrc = s.crcsrc := rfl
@[simp] theorem State.installTree_be (F : Table Word) : (s.installTree F).be = s.be := rfl
@[simp] theorem State.installTree_busy (F : Table Word) : (s.installTree F).busy = s.busy := rfl
@[simp] theorem State.installTree_done (F : Table Word) : (s.installTree F).done = s.done := rfl
@[simp] theorem State.installTree_treeValid (F : Table Word) : (s.installTree F).treeValid = true := rfl
@[simp] theorem State.installTree_err (F : Table Word) : (s.installTree F).err = s.err := rfl
@[simp] theorem State.installTree_cmd (F : Table Word) : (s.installTree F).cmd = s.cmd := rfl
@[simp] theorem State.installTree_textLen (F : Table Word) : (s.installTree F).textLen = s.textLen := rfl
@[simp] theorem State.installTree_recLen (F : Table Word) : (s.installTree F).recLen = s.recLen := rfl
@[simp] theorem State.installTree_outLen (F : Table Word) : (s.installTree F).outLen = s.outLen := rfl
@[simp] theorem State.installTree_bitLen (F : Table Word) : (s.installTree F).bitLen = s.bitLen := rfl
@[simp] theorem State.installTree_crcOut (F : Table Word) : (s.installTree F).crcOut = s.crcOut := rfl
@[simp] theorem State.installTree_errPos (F : Table Word) : (s.installTree F).errPos = s.errPos := rfl
@[simp] theorem State.installTree_root (F : Table Word) : (s.installTree F).root = BitVec.ofNat 9 (2 * (codedSymbols F).length - 2) := rfl
@[simp] theorem State.installTree_nodeCount (F : Table Word) : (s.installTree F).nodeCount = BitVec.ofNat 10 (2 * (codedSymbols F).length - 1) := rfl
@[simp] theorem State.installTree_nodeSel (F : Table Word) : (s.installTree F).nodeSel = s.nodeSel := rfl
@[simp] theorem State.installTree_codeSel (F : Table Word) : (s.installTree F).codeSel = s.codeSel := rfl
@[simp] theorem State.installTree_freq (F : Table Word) : (s.installTree F).freq = s.freq := rfl
@[simp] theorem State.installTree_arena (F : Table Word) : (s.installTree F).arena = s.arena.overwrite (buildNodes F) := rfl
@[simp] theorem State.installTree_codes (F : Table Word) : (s.installTree F).codes = codeTable (treeCodes (buildNodes F)) := rfl
@[simp] theorem State.installTree_textMem (F : Table Word) : (s.installTree F).textMem = s.textMem := rfl
@[simp] theorem State.installTree_recMem (F : Table Word) : (s.installTree F).recMem = s.recMem := rfl
@[simp] theorem State.installTree_outMem (F : Table Word) : (s.installTree F).outMem = s.outMem := rfl
@[simp] theorem State.installTree_pending (F : Table Word) : (s.installTree F).pending = s.pending := rfl
@[simp] theorem State.installTree_inputs (F : Table Word) : (s.installTree F).inputs = s.inputs := rfl
@[simp] theorem State.installTree_response (F : Table Word) : (s.installTree F).response = s.response := rfl
@[simp] theorem State.installTree_latencyLeft (F : Table Word) : (s.installTree F).latencyLeft = s.latencyLeft := rfl
@[simp] theorem State.installTree_draws (F : Table Word) : (s.installTree F).draws = s.draws := rfl

/-! ### accept -/

@[simp] theorem State.accept_params (w : Word) (n : Nat) : (s.accept w n).params = s.params := rfl
@[simp] theorem State.accept_inReset (w : Word) (n : Nat) : (s.accept w n).inReset = s.inReset := rfl
@[simp] theorem State.accept_ie (w : Word) (n : Nat) : (s.accept w n).ie = s.ie := rfl
@[simp] theorem State.accept_crcsrc (w : Word) (n : Nat) : (s.accept w n).crcsrc = s.crcsrc := rfl
@[simp] theorem State.accept_be (w : Word) (n : Nat) : (s.accept w n).be = s.be := rfl
@[simp] theorem State.accept_busy (w : Word) (n : Nat) : (s.accept w n).busy = true := rfl
@[simp] theorem State.accept_done (w : Word) (n : Nat) : (s.accept w n).done = false := rfl
@[simp] theorem State.accept_treeValid (w : Word) (n : Nat) : (s.accept w n).treeValid = s.treeValid := rfl
@[simp] theorem State.accept_err (w : Word) (n : Nat) : (s.accept w n).err = .ok := rfl
@[simp] theorem State.accept_cmd (w : Word) (n : Nat) : (s.accept w n).cmd = w := rfl
@[simp] theorem State.accept_textLen (w : Word) (n : Nat) : (s.accept w n).textLen = s.textLen := rfl
@[simp] theorem State.accept_recLen (w : Word) (n : Nat) : (s.accept w n).recLen = s.recLen := rfl
@[simp] theorem State.accept_outLen (w : Word) (n : Nat) : (s.accept w n).outLen = s.outLen := rfl
@[simp] theorem State.accept_bitLen (w : Word) (n : Nat) : (s.accept w n).bitLen = s.bitLen := rfl
@[simp] theorem State.accept_crcOut (w : Word) (n : Nat) : (s.accept w n).crcOut = s.crcOut := rfl
@[simp] theorem State.accept_errPos (w : Word) (n : Nat) : (s.accept w n).errPos = s.errPos := rfl
@[simp] theorem State.accept_root (w : Word) (n : Nat) : (s.accept w n).root = s.root := rfl
@[simp] theorem State.accept_nodeCount (w : Word) (n : Nat) : (s.accept w n).nodeCount = s.nodeCount := rfl
@[simp] theorem State.accept_nodeSel (w : Word) (n : Nat) : (s.accept w n).nodeSel = s.nodeSel := rfl
@[simp] theorem State.accept_codeSel (w : Word) (n : Nat) : (s.accept w n).codeSel = s.codeSel := rfl
@[simp] theorem State.accept_freq (w : Word) (n : Nat) : (s.accept w n).freq = s.freq := rfl
@[simp] theorem State.accept_arena (w : Word) (n : Nat) : (s.accept w n).arena = s.arena := rfl
@[simp] theorem State.accept_codes (w : Word) (n : Nat) : (s.accept w n).codes = s.codes := rfl
@[simp] theorem State.accept_textMem (w : Word) (n : Nat) : (s.accept w n).textMem = s.textMem := rfl
@[simp] theorem State.accept_recMem (w : Word) (n : Nat) : (s.accept w n).recMem = s.recMem := rfl
@[simp] theorem State.accept_outMem (w : Word) (n : Nat) : (s.accept w n).outMem = s.outMem := rfl
@[simp] theorem State.accept_pending (w : Word) (n : Nat) : (s.accept w n).pending = some w := rfl
@[simp] theorem State.accept_inputs (w : Word) (n : Nat) : (s.accept w n).inputs = s.inputs := rfl
@[simp] theorem State.accept_response (w : Word) (n : Nat) : (s.accept w n).response = s.response := rfl
@[simp] theorem State.accept_latencyLeft (w : Word) (n : Nat) : (s.accept w n).latencyLeft = n := rfl
@[simp] theorem State.accept_draws (w : Word) (n : Nat) : (s.accept w n).draws = s.draws := rfl

/-! ### redrawOut -/

@[simp] theorem State.redrawOut_params : (s.redrawOut).params = s.params := rfl
@[simp] theorem State.redrawOut_inReset : (s.redrawOut).inReset = s.inReset := rfl
@[simp] theorem State.redrawOut_ie : (s.redrawOut).ie = s.ie := rfl
@[simp] theorem State.redrawOut_crcsrc : (s.redrawOut).crcsrc = s.crcsrc := rfl
@[simp] theorem State.redrawOut_be : (s.redrawOut).be = s.be := rfl
@[simp] theorem State.redrawOut_busy : (s.redrawOut).busy = s.busy := rfl
@[simp] theorem State.redrawOut_done : (s.redrawOut).done = s.done := rfl
@[simp] theorem State.redrawOut_treeValid : (s.redrawOut).treeValid = s.treeValid := rfl
@[simp] theorem State.redrawOut_err : (s.redrawOut).err = s.err := rfl
@[simp] theorem State.redrawOut_cmd : (s.redrawOut).cmd = s.cmd := rfl
@[simp] theorem State.redrawOut_textLen : (s.redrawOut).textLen = s.textLen := rfl
@[simp] theorem State.redrawOut_recLen : (s.redrawOut).recLen = s.recLen := rfl
@[simp] theorem State.redrawOut_outLen : (s.redrawOut).outLen = s.outLen := rfl
@[simp] theorem State.redrawOut_bitLen : (s.redrawOut).bitLen = s.bitLen := rfl
@[simp] theorem State.redrawOut_crcOut : (s.redrawOut).crcOut = s.crcOut := rfl
@[simp] theorem State.redrawOut_errPos : (s.redrawOut).errPos = s.errPos := rfl
@[simp] theorem State.redrawOut_root : (s.redrawOut).root = s.root := rfl
@[simp] theorem State.redrawOut_nodeCount : (s.redrawOut).nodeCount = s.nodeCount := rfl
@[simp] theorem State.redrawOut_nodeSel : (s.redrawOut).nodeSel = s.nodeSel := rfl
@[simp] theorem State.redrawOut_codeSel : (s.redrawOut).codeSel = s.codeSel := rfl
@[simp] theorem State.redrawOut_freq : (s.redrawOut).freq = s.freq := rfl
@[simp] theorem State.redrawOut_arena : (s.redrawOut).arena = s.arena := rfl
@[simp] theorem State.redrawOut_codes : (s.redrawOut).codes = s.codes := rfl
@[simp] theorem State.redrawOut_textMem : (s.redrawOut).textMem = s.textMem := rfl
@[simp] theorem State.redrawOut_recMem : (s.redrawOut).recMem = s.recMem := rfl
@[simp] theorem State.redrawOut_outMem : (s.redrawOut).outMem = Memory.unspecified s.draws := rfl
@[simp] theorem State.redrawOut_pending : (s.redrawOut).pending = s.pending := rfl
@[simp] theorem State.redrawOut_inputs : (s.redrawOut).inputs = s.inputs := rfl
@[simp] theorem State.redrawOut_response : (s.redrawOut).response = s.response := rfl
@[simp] theorem State.redrawOut_latencyLeft : (s.redrawOut).latencyLeft = s.latencyLeft := rfl
@[simp] theorem State.redrawOut_draws : (s.redrawOut).draws = s.draws + 1 := rfl

/-! ### writeRecord -/

@[simp] theorem State.writeRecord_params (B : Bitstring) (crc : Word) : (s.writeRecord B crc).params = s.params := rfl
@[simp] theorem State.writeRecord_inReset (B : Bitstring) (crc : Word) : (s.writeRecord B crc).inReset = s.inReset := rfl
@[simp] theorem State.writeRecord_ie (B : Bitstring) (crc : Word) : (s.writeRecord B crc).ie = s.ie := rfl
@[simp] theorem State.writeRecord_crcsrc (B : Bitstring) (crc : Word) : (s.writeRecord B crc).crcsrc = s.crcsrc := rfl
@[simp] theorem State.writeRecord_be (B : Bitstring) (crc : Word) : (s.writeRecord B crc).be = s.be := rfl
@[simp] theorem State.writeRecord_busy (B : Bitstring) (crc : Word) : (s.writeRecord B crc).busy = s.busy := rfl
@[simp] theorem State.writeRecord_done (B : Bitstring) (crc : Word) : (s.writeRecord B crc).done = s.done := rfl
@[simp] theorem State.writeRecord_treeValid (B : Bitstring) (crc : Word) : (s.writeRecord B crc).treeValid = s.treeValid := rfl
@[simp] theorem State.writeRecord_err (B : Bitstring) (crc : Word) : (s.writeRecord B crc).err = s.err := rfl
@[simp] theorem State.writeRecord_cmd (B : Bitstring) (crc : Word) : (s.writeRecord B crc).cmd = s.cmd := rfl
@[simp] theorem State.writeRecord_textLen (B : Bitstring) (crc : Word) : (s.writeRecord B crc).textLen = s.textLen := rfl
@[simp] theorem State.writeRecord_recLen (B : Bitstring) (crc : Word) : (s.writeRecord B crc).recLen = BitVec.ofNat 32 (12 + ceilDiv B.length 8) := rfl
@[simp] theorem State.writeRecord_outLen (B : Bitstring) (crc : Word) : (s.writeRecord B crc).outLen = s.outLen := rfl
@[simp] theorem State.writeRecord_bitLen (B : Bitstring) (crc : Word) : (s.writeRecord B crc).bitLen = BitVec.ofNat 64 B.length := rfl
@[simp] theorem State.writeRecord_crcOut (B : Bitstring) (crc : Word) : (s.writeRecord B crc).crcOut = crc := rfl
@[simp] theorem State.writeRecord_errPos (B : Bitstring) (crc : Word) : (s.writeRecord B crc).errPos = s.errPos := rfl
@[simp] theorem State.writeRecord_root (B : Bitstring) (crc : Word) : (s.writeRecord B crc).root = s.root := rfl
@[simp] theorem State.writeRecord_nodeCount (B : Bitstring) (crc : Word) : (s.writeRecord B crc).nodeCount = s.nodeCount := rfl
@[simp] theorem State.writeRecord_nodeSel (B : Bitstring) (crc : Word) : (s.writeRecord B crc).nodeSel = s.nodeSel := rfl
@[simp] theorem State.writeRecord_codeSel (B : Bitstring) (crc : Word) : (s.writeRecord B crc).codeSel = s.codeSel := rfl
@[simp] theorem State.writeRecord_freq (B : Bitstring) (crc : Word) : (s.writeRecord B crc).freq = s.freq := rfl
@[simp] theorem State.writeRecord_arena (B : Bitstring) (crc : Word) : (s.writeRecord B crc).arena = s.arena := rfl
@[simp] theorem State.writeRecord_codes (B : Bitstring) (crc : Word) : (s.writeRecord B crc).codes = s.codes := rfl
@[simp] theorem State.writeRecord_textMem (B : Bitstring) (crc : Word) : (s.writeRecord B crc).textMem = s.textMem := rfl
@[simp] theorem State.writeRecord_recMem (B : Bitstring) (crc : Word) : (s.writeRecord B crc).recMem = s.recMem.writeBytes 0 (recordBytes s.be B crc) := rfl
@[simp] theorem State.writeRecord_outMem (B : Bitstring) (crc : Word) : (s.writeRecord B crc).outMem = s.outMem := rfl
@[simp] theorem State.writeRecord_pending (B : Bitstring) (crc : Word) : (s.writeRecord B crc).pending = s.pending := rfl
@[simp] theorem State.writeRecord_inputs (B : Bitstring) (crc : Word) : (s.writeRecord B crc).inputs = s.inputs := rfl
@[simp] theorem State.writeRecord_response (B : Bitstring) (crc : Word) : (s.writeRecord B crc).response = s.response := rfl
@[simp] theorem State.writeRecord_latencyLeft (B : Bitstring) (crc : Word) : (s.writeRecord B crc).latencyLeft = s.latencyLeft := rfl
@[simp] theorem State.writeRecord_draws (B : Bitstring) (crc : Word) : (s.writeRecord B crc).draws = s.draws := rfl

/-! ### memories -/

@[simp] theorem State.mem_text : s.mem .text = s.textMem := rfl
@[simp] theorem State.setMem_text (m : Memory) : s.setMem .text m = { s with textMem := m } := rfl
@[simp] theorem State.mem_record : s.mem .record = s.recMem := rfl
@[simp] theorem State.setMem_record (m : Memory) : s.setMem .record m = { s with recMem := m } := rfl
@[simp] theorem State.mem_out : s.mem .out = s.outMem := rfl
@[simp] theorem State.setMem_out (m : Memory) : s.setMem .out m = { s with outMem := m } := rfl

theorem State.mem_setMem_same (sp : Space) (m : Memory) : (s.setMem sp m).mem sp = m := by
  cases sp <;> rfl

theorem State.mem_setMem_other {sp sp' : Space} (h : sp' ≠ sp) (m : Memory) :
    (s.setMem sp m).mem sp' = s.mem sp' := by
  cases sp <;> cases sp' <;> first | rfl | exact absurd rfl h

theorem State.memWrite_text (i : Nat) (bs : List Byte) :
    s.memWrite .text i bs = { s with textMem := s.textMem.writeBytes i bs } := rfl

theorem State.memWrite_record (i : Nat) (bs : List Byte) :
    s.memWrite .record i bs = { s with recMem := s.recMem.writeBytes i bs } := rfl

theorem State.memWrite_out (i : Nat) (bs : List Byte) :
    s.memWrite .out i bs = { s with outMem := s.outMem.writeBytes i bs } := rfl

end Sys2Proof.Machine
end

