-- ==== Sys2Proof/Laws/Commands.lean ====
section
/-! SUPPORT. What each shared operation and each command body can do, said once: one equation or one list of
cases per definition, which later proofs cite instead of unfolding. -/

namespace Sys2Proof.Machine

/-! ### The ends of a command -/

@[simp] theorem CmdEnd.outcome_eq_next {r : CmdEnd} {t : State} : r.outcome = .next t ↔ r.complete = t := by
  simp [CmdEnd.outcome]

@[simp] theorem CmdEnd.complete_finished (s : State) : (CmdEnd.finished s).complete = s.complete .ok 0 := rfl

@[simp] theorem CmdEnd.complete_raised (e : ErrCode) (p : Word) (s : State) :
    (CmdEnd.raised e p s).complete = s.complete e p := rfl

@[simp] theorem CmdEnd.andThen_finished (s : State) (f : State → CmdEnd) :
    (CmdEnd.finished s).andThen f = f s := rfl

@[simp] theorem CmdEnd.andThen_raised (e : ErrCode) (p : Word) (s : State) (f : State → CmdEnd) :
    (CmdEnd.raised e p s).andThen f = .raised e p s := rfl

@[simp] theorem CmdEnd.clearOutLenOnRaise_finished (s : State) :
    (CmdEnd.finished s).clearOutLenOnRaise = .finished s := rfl

@[simp] theorem CmdEnd.clearOutLenOnRaise_raised (e : ErrCode) (p : Word) (s : State) :
    (CmdEnd.raised e p s).clearOutLenOnRaise = .raised e p { s with outLen := 0 } := rfl

/-- Every arm of `exec` completes a command body. -/
theorem exec_eq_outcome (i : Instr) (s : State) : ∃ r : CmdEnd, exec i s = r.outcome := by
  cases i <;> exact ⟨_, rfl⟩

/-! ### Guards -/

@[simp] theorem State.textTooLong_eq_true {s : State} :
    s.textTooLong = true ↔ s.params.textCap < s.textLen.toNat := by simp [State.textTooLong]

@[simp] theorem State.recordTooLong_eq_true {s : State} :
    s.recordTooLong = true ↔ s.params.recCap < s.recLen.toNat := by simp [State.recordTooLong]

@[simp] theorem State.packTooLong_eq_true {s : State} {B : Bitstring} :
    s.packTooLong B = true ↔ s.params.packCap < ceilDiv B.length 8 := by simp [State.packTooLong]

@[simp] theorem State.textBytes_length (s : State) : s.textBytes.length = s.textLen.toNat := by
  simp [State.textBytes]

theorem State.textBytes_getElem? (s : State) (i : Nat) :
    s.textBytes[i]? = if i < s.textLen.toNat then some (s.memRead .text i) else none := by
  simp [State.textBytes, Memory.readBytes_getElem?, State.memRead]

/-! ### Command bodies -/

theorem countBody_cases (s : State) :
    (s.params.textCap < s.textLen.toNat ∧ countBody s = .raised .lenRange 0 s) ∨
    (s.textLen.toNat ≤ s.params.textCap ∧ countBody s = .finished { s with freq := freqCount s.textBytes }) := by
  by_cases h : s.textTooLong
  · exact .inl ⟨by simpa using h, if_pos h⟩
  · exact .inr ⟨by simpa using h, if_neg h⟩

theorem crcBody_cases (s : State) :
    (s.params.textCap < s.textLen.toNat ∧ crcBody s = .raised .lenRange 0 s) ∨
    (s.textLen.toNat ≤ s.params.textCap ∧ crcBody s = .finished { s with crcOut := crc32 s.textBytes }) := by
  by_cases h : s.textTooLong
  · exact .inl ⟨by simpa using h, if_pos h⟩
  · exact .inr ⟨by simpa using h, if_neg h⟩

theorem buildBody_cases (s : State) :
    (codedSymbols s.freq = [] ∧ buildBody s = .raised .emptyInput 0 s.invalidateTree) ∨
    (codedSymbols s.freq ≠ [] ∧ 0xFFFFFFFF < freqSum s.freq ∧
      buildBody s = .raised .freqOverflow 0 s.invalidateTree) ∨
    (codedSymbols s.freq ≠ [] ∧ freqSum s.freq ≤ 0xFFFFFFFF ∧
      buildBody s = .finished (s.installTree s.freq)) := by
  by_cases h : (codedSymbols s.freq).isEmpty
  · exact .inl ⟨by simpa using h, if_pos h⟩
  · have hne : codedSymbols s.freq ≠ [] := by simpa using h
    by_cases hs : 0xFFFFFFFF < freqSum s.freq
    · exact .inr (.inl ⟨hne, hs, (if_neg h).trans (if_pos hs)⟩)
    · exact .inr (.inr ⟨hne, Nat.le_of_not_lt hs, (if_neg h).trans (if_neg hs)⟩)

theorem emitBody_cases (s : State) :
    (s.params.textCap < s.textLen.toNat ∧ emitBody s = .raised .lenRange 0 s) ∨
    (s.textLen.toNat ≤ s.params.textCap ∧ s.treeValid = false ∧ emitBody s = .raised .notReady 0 s) ∨
    (s.textLen.toNat ≤ s.params.textCap ∧ s.treeValid = true ∧
      ∃ i, s.textBytes.findIdx? (fun c => (s.codes.at c).isEmpty) = some i ∧
        emitBody s = .raised .noCode (BitVec.ofNat 32 i) s) ∨
    (s.textLen.toNat ≤ s.params.textCap ∧ s.treeValid = true ∧
      s.textBytes.findIdx? (fun c => (s.codes.at c).isEmpty) = none ∧
      s.params.packCap < ceilDiv (concatCodes s.codes s.textBytes).length 8 ∧
      emitBody s = .raised .packOverflow 0 s) ∨
    (s.textLen.toNat ≤ s.params.textCap ∧ s.treeValid = true ∧
      s.textBytes.findIdx? (fun c => (s.codes.at c).isEmpty) = none ∧
      ceilDiv (concatCodes s.codes s.textBytes).length 8 ≤ s.params.packCap ∧
      emitBody s = .finished (s.writeRecord (concatCodes s.codes s.textBytes)
        (s.recordCrc (concatCodes s.codes s.textBytes) s.textBytes))) := by
  by_cases hl : s.textTooLong
  · exact .inl ⟨by simpa using hl, by simp [emitBody, hl]⟩
  · have hle : s.textLen.toNat ≤ s.params.textCap := by simpa using hl
    cases hv : s.treeValid
    · exact .inr (.inl ⟨hle, rfl, by simp [emitBody, hl, hv]⟩)
    · cases hf : s.textBytes.findIdx? (fun c => (s.codes.at c).isEmpty) with
      | some i => exact .inr (.inr (.inl ⟨hle, rfl, i, rfl, by simp [emitBody, hl, hv, hf]⟩))
      | none =>
        by_cases hp : s.packTooLong (concatCodes s.codes s.textBytes)
        · exact .inr (.inr (.inr (.inl ⟨hle, rfl, rfl, by simpa using hp, by simp [emitBody, hl, hv, hf, hp]⟩)))
        · exact .inr (.inr (.inr (.inr ⟨hle, rfl, rfl, by simpa using hp, by simp [emitBody, hl, hv, hf, hp]⟩)))

theorem packBody_cases (s : State) :
    (s.params.textCap < s.textLen.toNat ∧ packBody s = .raised .lenRange 0 s) ∨
    (s.textLen.toNat ≤ s.params.textCap ∧
      ∃ i, s.textBytes.findIdx? (fun c => !isAsciiBit c) = some i ∧
        packBody s = .raised .badBit (BitVec.ofNat 32 i) s) ∨
    (s.textLen.toNat ≤ s.params.textCap ∧ s.textBytes.findIdx? (fun c => !isAsciiBit c) = none ∧
      s.params.packCap < ceilDiv s.textLen.toNat 8 ∧ packBody s = .raised .packOverflow 0 s) ∨
    (s.textLen.toNat ≤ s.params.textCap ∧ s.textBytes.findIdx? (fun c => !isAsciiBit c) = none ∧
      ceilDiv s.textLen.toNat 8 ≤ s.params.packCap ∧
      packBody s = .finished (s.writeRecord (s.textBytes.map fun c => c == 0x31)
        (s.recordCrc (s.textBytes.map fun c => c == 0x31) s.textBytes))) := by
  by_cases hl : s.textTooLong
  · exact .inl ⟨by simpa using hl, by simp [packBody, hl]⟩
  · have hle : s.textLen.toNat ≤ s.params.textCap := by simpa using hl
    cases hf : s.textBytes.findIdx? (fun c => !isAsciiBit c) with
    | some i => exact .inr (.inl ⟨hle, i, rfl, by simp [packBody, hl, hf]⟩)
    | none =>
      by_cases hp : s.packTooLong (s.textBytes.map fun c => c == 0x31)
      · have hlt : s.params.packCap < ceilDiv s.textLen.toNat 8 := by simpa using hp
        exact .inr (.inr (.inl ⟨hle, rfl, hlt, by simp [packBody, hl, hf, hlt]⟩))
      · have hge : ceilDiv s.textLen.toNat 8 ≤ s.params.packCap := by simpa using hp
        exact .inr (.inr (.inr ⟨hle, rfl, hge, by simp [packBody, hl, hf, Nat.not_lt.2 hge]⟩))

/-- What the framing check lets pass (spec/20_memory.md R73). -/
theorem parseRecord_eq_some {s : State} {r : ParsedRecord} (h : s.parseRecord = some r) :
    s.recLen.toNat = 12 + ceilDiv r.length 8 ∧ r.length = s.recordBitLength ∧
    r.bits = unpackBits (s.recordPacked (ceilDiv r.length 8)) r.length ∧
    r.stored = s.recordChecksum (ceilDiv r.length 8) ∧ r.bits.length = r.length := by
  simp only [State.parseRecord] at h
  split at h
  · cases h
  · split at h
    · cases h
    · rename_i hm
      cases h
      refine ⟨by simpa using hm, rfl, rfl, rfl, unpackBits_length ?_⟩
      simpa [State.recordPacked] using le_eight_mul_ceilDiv s.recordBitLength

theorem unpackBody_cases (s : State) :
    (s.params.recCap < s.recLen.toNat ∧ unpackBody s = .raised .lenRange 0 { s with outLen := 0 }) ∨
    (s.recLen.toNat ≤ s.params.recCap ∧ s.parseRecord = none ∧
      unpackBody s = .raised .malformedLen 0 { s with outLen := 0 }) ∨
    (s.recLen.toNat ≤ s.params.recCap ∧ ∃ r, s.parseRecord = some r ∧
      unpackBody s = .finished
        { s with
          outMem := s.outMem.writeBytes 0 (ascii r.bits)
          bitLen := BitVec.ofNat 64 r.length
          outLen := BitVec.ofNat 32 r.length
          crcOut := r.stored }) := by
  by_cases hl : s.recordTooLong
  · exact .inl ⟨by simpa using hl, by simp [unpackBody, unpackStages, hl]⟩
  · have hle : s.recLen.toNat ≤ s.params.recCap := by simpa using hl
    cases hp : s.parseRecord with
    | none => exact .inr (.inl ⟨hle, rfl, by simp [unpackBody, unpackStages, hl, hp]⟩)
    | some r =>
      exact .inr (.inr ⟨hle, r, rfl, by simp [unpackBody, unpackStages, hl, hp, State.memWrite_out]⟩)

/-- The three ends of DECODE once the framing check has passed (spec/44_decoder.md R213). -/
theorem decodeParsed_cases (s : State) (r : ParsedRecord) :
    let w := walk s.node s.root r.bits
    let crc := s.verifyCrc r.bits w.symbols
    let s1 := { s with bitLen := BitVec.ofNat 64 r.length, crcOut := crc }
    (crc ≠ r.stored ∧ decodeParsed s r = .raised .integrity 0 s1.redrawOut) ∨
    (crc = r.stored ∧ ∃ p, w.failure = some p ∧
      decodeParsed s r = .raised .malformedWalk (BitVec.ofNat 32 p) s1.redrawOut) ∨
    (crc = r.stored ∧ w.failure = none ∧
      decodeParsed s r = .finished
        { s1 with
          outMem := s.outMem.writeBytes 0 w.symbols
          outLen := BitVec.ofNat 32 w.symbols.length }) := by
  intro w crc s1
  by_cases hc : crc = r.stored
  · cases hf : w.failure with
    | none => exact .inr (.inr ⟨hc, rfl, by simp [decodeParsed, w, crc, s1, State.memWrite_out] at *; simp [hc, hf]⟩)
    | some p => exact .inr (.inl ⟨hc, p, rfl, by simp [decodeParsed, w, crc, s1] at *; simp [hc, hf]⟩)
  · exact .inl ⟨hc, by simp only [decodeParsed]; exact if_pos hc⟩

theorem decodeBody_cases (s : State) :
    (s.params.recCap < s.recLen.toNat ∧ decodeBody s = .raised .lenRange 0 { s with outLen := 0 }) ∨
    (s.recLen.toNat ≤ s.params.recCap ∧ s.treeValid = false ∧
      decodeBody s = .raised .notReady 0 { s with outLen := 0 }) ∨
    (s.recLen.toNat ≤ s.params.recCap ∧ s.treeValid = true ∧ s.parseRecord = none ∧
      decodeBody s = .raised .malformedLen 0 { s with outLen := 0 }) ∨
    (s.recLen.toNat ≤ s.params.recCap ∧ s.treeValid = true ∧ ∃ r, s.parseRecord = some r ∧
      decodeBody s = (decodeParsed s r).clearOutLenOnRaise) := by
  by_cases hl : s.recordTooLong
  · exact .inl ⟨by simpa using hl, by simp [decodeBody, decodeStages, hl]⟩
  · have hle : s.recLen.toNat ≤ s.params.recCap := by simpa using hl
    cases hv : s.treeValid with
    | false => exact .inr (.inl ⟨hle, rfl, by simp [decodeBody, decodeStages, hl, hv]⟩)
    | true =>
      cases hp : s.parseRecord with
      | none => exact .inr (.inr (.inl ⟨hle, rfl, rfl, by simp [decodeBody, decodeStages, hl, hv, hp]⟩))
      | some r =>
        exact .inr (.inr (.inr ⟨hle, rfl, r, rfl, by simp [decodeBody, decodeStages, hl, hv, hp]⟩))

end Sys2Proof.Machine
end

