-- ==== Sys2Proof/Laws/PerInstr.lean ====
section
/-! SUPPORT. A fact about every command as syntax: the word it encodes to carries its operation code and no
other bit (spec/30_encoding.md R90, R93). -/

namespace Sys2Proof.Laws.EncodedWord

/-- The encoded word has a zero Z field and a defined operation code, that of the opcode map. -/
def Statement (i : Instr) : Prop :=
  zField (encode i) = 0 ∧ opcField (encode i) = opcodeOf i ∧ commandWordWellFormed (encode i) = true

theorem nop : Statement .nop := by unfold Statement; decide
theorem clear : Statement .clear := by unfold Statement; decide
theorem count : Statement .count := by unfold Statement; decide
theorem build : Statement .build := by unfold Statement; decide
theorem emit : Statement .emit := by unfold Statement; decide
theorem encode : Statement .encode := by unfold Statement; decide
theorem decode : Statement .decode := by unfold Statement; decide
theorem pack : Statement .pack := by unfold Statement; decide
theorem unpack : Statement .unpack := by unfold Statement; decide
theorem crc : Statement .crc := by unfold Statement; decide

end Sys2Proof.Laws.EncodedWord
end

