-- ==== Sys2Proof/Laws/Step.lean ====
section
/-! SUPPORT. What one step can do: the inversion of `turn` and `step`. -/

namespace Sys2Proof.Machine

theorem State.fetched_eq_some {s : State} {w : Word} :
    s.fetched = some w ↔ s.busy = true ∧ s.inReset = false ∧ s.pending = some w := by
  unfold State.fetched
  cases s.busy <;> cases s.inReset <;> simp

/-- When the engine moves. -/
theorem State.turn_eq_engine {s : State} {w : Word} :
    s.turn = .engine w ↔ s.fetched = some w ∧ (s.inputs = [] ∨ s.latencyLeft = 0) := by
  unfold State.turn
  cases hf : s.fetched <;> cases hi : s.inputs <;> simp
  split <;> simp_all

/-- When the outside world moves. -/
theorem State.turn_eq_input {s : State} {e : HostInput} {rest : List HostInput} :
    s.turn = .input e rest ↔ s.inputs = e :: rest ∧ (s.fetched = none ∨ s.latencyLeft ≠ 0) := by
  unfold State.turn
  cases hf : s.fetched <;> cases hi : s.inputs <;> simp
  split <;> simp_all

/-- When nothing moves. -/
theorem State.turn_eq_idle {s : State} : s.turn = .idle ↔ s.fetched = none ∧ s.inputs = [] := by
  unfold State.turn
  cases hf : s.fetched <;> cases hi : s.inputs <;> simp
  split <;> simp

/-- Everything a step can do. -/
theorem step_cases {s t : State} (h : step s = .next t) :
    (∃ w i, s.turn = .engine w ∧ decode w = .ok i ∧ exec i s = .next t) ∨
    (∃ w r, s.turn = .engine w ∧ decode w = .error r ∧ t = s.illegalCommand) ∨
    (∃ e rest, s.turn = .input e rest ∧ t = s.serveInput e rest) ∨
    (s.turn = .idle ∧ t = s) := by
  unfold step at h
  cases ht : s.turn with
  | engine w =>
    rw [ht] at h
    cases hd : decode w with
    | ok i => simp only [hd] at h; exact .inl ⟨w, i, rfl, hd, h⟩
    | error r => simp only [hd, Host.Outcome.next.injEq] at h; exact .inr (.inl ⟨w, r, rfl, hd, h.symm⟩)
  | input e rest =>
    simp only [ht, Host.Outcome.next.injEq] at h
    exact .inr (.inr (.inl ⟨e, rest, rfl, h.symm⟩))
  | idle =>
    simp only [ht, Host.Outcome.next.injEq] at h
    exact .inr (.inr (.inr ⟨rfl, h.symm⟩))

/-- What a served transaction does to the core: a write, or nothing. -/
theorem State.transact_read (s : State) (a : Word) (size : AccessSize) :
    s.transact (.read a size) = { s with response := some (s.hostRead a size) } := rfl

theorem State.transact_write (s : State) (a : Word) (size : AccessSize) (v : Word) :
    s.transact (.write a size v) =
      { (s.hostWrite a size v).1 with response := some (s.hostWrite a size v).2 } := rfl

/-- The three ends of a host write. -/
theorem State.hostWrite_cases (s : State) (a : Word) (size : AccessSize) (v : Word) :
    s.hostWrite a size v = (s, .busError) ∨
    (s.lockedOut (.write a size v) = false ∧ ∃ off, busTarget s.params a size = .register off ∧
      s.hostWrite a size v = (s.apertureWrite off v, .ok)) ∨
    (s.lockedOut (.write a size v) = false ∧ ∃ sp i, busTarget s.params a size = .memory sp i ∧
      s.hostWrite a size v = (s.memWrite sp i [v.setWidth 8], .ok)) := by
  unfold State.hostWrite
  cases hl : s.lockedOut (.write a size v)
  · cases hb : busTarget s.params a size with
    | register off => exact .inr (.inl ⟨rfl, off, rfl, by simp⟩)
    | memory sp i => exact .inr (.inr ⟨rfl, sp, i, rfl, by simp⟩)
    | nothing => exact .inl (by simp)
  · exact .inl (by simp)

/-- While a command runs, every write is locked out. -/
theorem State.lockedOut_write_of_busy {s : State} (h : s.busy = true) (a : Word) (size : AccessSize)
    (v : Word) : s.lockedOut (.write a size v) = true := by
  simp [State.lockedOut, h]

/-- A memory window reaches bytes within its space only (spec/20_memory.md R62, R65). -/
theorem busTarget_memory_lt {p : Params} {a : Word} {size : AccessSize} {sp : Space} {i : Nat}
    (h : busTarget p a size = .memory sp i) : i < p.spaceCap sp ∧ size = .byte := by
  simp only [busTarget, windowTarget] at h
  repeat' split at h
  all_goals first | (cases h; done) | skip
  all_goals
    obtain ⟨rfl, rfl⟩ := BusTarget.memory.inj h
    exact ⟨by simp_all, by simp_all⟩

end Sys2Proof.Machine
end

