-- ==== Sys2Proof/Laws/Tables.lean ====
section
/-! SUPPORT. The laws of the 256-entry tables and of the list of symbols. -/

namespace Sys2Proof.Machine

variable {α : Type}

@[simp] theorem Table.at_put_same (t : Table α) (c : Byte) (x : α) : (t.put c x).at c = x := by
  simp [Table.put, Table.at]

theorem Table.at_put_other {c d : Byte} (h : d ≠ c) (t : Table α) (x : α) :
    (t.put c x).at d = t.at d := by
  have hne : c.toNat ≠ d.toNat := fun e => h (BitVec.eq_of_toNat_eq e.symm)
  simp [Table.put, Table.at, hne]

@[simp] theorem Table.at_all (x : α) (c : Byte) : (Table.all x).at c = x := by
  simp [Table.all, Table.at]

@[simp] theorem zeroFreq_at (c : Byte) : zeroFreq.at c = 0 := Table.at_all 0 c

@[simp] theorem noCodes_at (c : Byte) : noCodes.at c = [] := Table.at_all [] c

/-- A table is determined by its entries. -/
theorem Table.ext_at {t u : Table α} (h : ∀ c, t.at c = u.at c) : t = u := by
  refine Vector.ext fun i hi => ?_
  have := h (BitVec.ofNat 8 i)
  simpa [Table.at, Nat.mod_eq_of_lt hi] using this

@[simp] theorem allSymbols_length : allSymbols.length = 256 := by simp [allSymbols]

@[simp] theorem mem_allSymbols (c : Byte) : c ∈ allSymbols := by
  refine List.mem_map.2 ⟨c.toNat, List.mem_range.2 c.isLt, ?_⟩
  simp

theorem allSymbols_getElem (i : Nat) (h : i < allSymbols.length) : allSymbols[i] = BitVec.ofNat 8 i := by
  simp [allSymbols]

/-- The symbols are listed in ascending order, hence once each. -/
theorem allSymbols_ascending : allSymbols.Pairwise fun a b => a.toNat < b.toNat := by
  refine List.pairwise_iff_getElem.2 fun i j hi hj hij => ?_
  simp only [allSymbols_length] at hi hj
  rw [allSymbols_getElem, allSymbols_getElem, BitVec.toNat_ofNat, BitVec.toNat_ofNat,
    Nat.mod_eq_of_lt (by omega), Nat.mod_eq_of_lt (by omega)]
  exact hij

theorem allSymbols_nodup : allSymbols.Nodup :=
  allSymbols_ascending.imp fun h e => by subst e; omega

/-- The entries of a table, each with its symbol. -/
theorem Table.entries_eq_map (t : Table α) : t.entries = allSymbols.map fun c => (c, t.at c) := by
  refine List.ext_getElem (by simp [Table.entries]) fun i h1 h2 => ?_
  have hi : i < 256 := by simpa [Table.entries] using h1
  simp [Table.entries, allSymbols_getElem, Table.at, Nat.mod_eq_of_lt hi]

theorem Table.toList_eq_map (t : Table α) : t.toList = allSymbols.map t.at := by
  have h : t.entries.map Prod.snd = t.toList := by
    unfold Table.entries
    rw [List.map_snd_zip]
    simp
  rw [← h, Table.entries_eq_map, List.map_map]
  rfl

theorem Table.mem_entries {t : Table α} {c : Byte} {x : α} : (c, x) ∈ t.entries ↔ t.at c = x := by
  simp [Table.entries_eq_map]

end Sys2Proof.Machine
end

