-- ==== Sys2Proof/Machine/HostProgram.lean ====
section
/-! DEFINITION. Host programs (spec/30_encoding.md R95 to R97): the statements and pseudo-statements, and the
inputs each stands for. They are no part of the hardware (spec/92 D28). -/

namespace Sys2Proof.Machine

/-- The statements of R95. An expected value is a check of the program, not an effect. -/
inductive Stmt where
  /-- `WR reg, v` -/
  | wr (r : Reg) (v : Word)
  /-- `RD reg`, `RD reg == v` -/
  | rd (r : Reg) (expected : Option Word)
  /-- `WRB SP[i], v`; R95 gives no range for v, and that v is one byte here is the model's choice (DESIGN
  CHOICE, assumption log 14) -/
  | wrb (sp : Space) (i : Nat) (v : Byte)
  /-- `RDB SP[i]`, `RDB SP[i] == v`; that the expected v is one byte is the model's choice (DESIGN CHOICE,
  assumption log 14) -/
  | rdb (sp : Space) (i : Nat) (expected : Option Byte)
  /-- `CMD m` -/
  | cmd (m : Instr)
  /-- `CMD` with a word that is not a command's (as spec/95 2.9 writes it) -/
  | cmdWord (w : Word)
  /-- `WAIT` -/
  | wait
  deriving DecidableEq, Repr

/-- The pseudo-statements of R96. -/
inductive PseudoStmt where
  /-- a statement of R95 -/
  | plain (st : Stmt)
  /-- `RUN m` -/
  | run (m : Instr)
  /-- `TEXT "s"`, the bytes of the string -/
  | text (bytes : List Byte)
  /-- `RECBYTES b0 b1 ...` -/
  | recBytes (bytes : List Byte)
  /-- `CLRDONE` -/
  | clrDone
  /-- `EXPECT reg == v` -/
  | expect (r : Reg) (v : Word)
  /-- `FLIPB SP[i], mask`; R96 gives no range for the mask, and that it is one byte here is the model's choice
  (DESIGN CHOICE, assumption log 14) -/
  | flipb (sp : Space) (i : Nat) (mask : Byte)
  deriving DecidableEq, Repr

/-- `off(reg)` as a host address (R95). -/
def regAddr (r : Reg) : Word := BitVec.ofNat 32 r.offset

/-- `base(SP) + i` (R95). R95 and R96 give no range for i; that any i is taken, and the sum wraps to the 32 bits
of an address (R61), is the model's choice (DESIGN CHOICE, assumption log 15). -/
def byteAddr (sp : Space) (i : Nat) : Word := BitVec.ofNat 32 (spaceBase sp + i)

/-- The input of a statement (R95). -/
def Stmt.input : Stmt → HostInput
  | .wr r v => .transaction (.write (regAddr r) .word v)
  | .rd r _ => .transaction (.read (regAddr r) .word)
  | .wrb sp i v => .transaction (.write (byteAddr sp i) .byte (v.setWidth 32))
  | .rdb sp i _ => .transaction (.read (byteAddr sp i) .byte)
  | .cmd m => .transaction (.write 0x00C .word (encode m))
  | .cmdWord w => .transaction (.write 0x00C .word w)
  | .wait => .pollIdle

/-- `WRB SP[i]` for each byte, from index `i` on. -/
def storeInputs (sp : Space) (i : Nat) : List Byte → List HostInput
  | [] => []
  | b :: bs => (Stmt.wrb sp i b).input :: storeInputs sp (i + 1) bs

/-- The expansion of a pseudo-statement (R96). R96 gives no range for the number n of bytes of TEXT and m of
RECBYTES; that they wrap to the 32 bits of a length register is the model's choice (DESIGN CHOICE, assumption
log 15). -/
def PseudoStmt.inputs : PseudoStmt → List HostInput
  | .plain st => [st.input]
  | .run m => [(Stmt.cmd m).input, Stmt.wait.input]
  | .text bs => storeInputs .text 0 bs ++ [(Stmt.wr .textLen (BitVec.ofNat 32 bs.length)).input]
  | .recBytes bs => storeInputs .record 0 bs ++ [(Stmt.wr .recLen (BitVec.ofNat 32 bs.length)).input]
  | .clrDone => [(Stmt.wr .status 0x2).input]
  | .expect r v => [(Stmt.rd r (some v)).input]
  | .flipb sp i mask => [(Stmt.rdb sp i none).input, .writeBackXor (byteAddr sp i) mask]

/-- The encoding of a host program: the ordered list of its transactions (R97). -/
def programInputs (p : List PseudoStmt) : List HostInput := p.flatMap PseudoStmt.inputs

/-- The machine with a host program still to run. -/
def State.withProgram (s : State) (p : List PseudoStmt) : State := { s with inputs := programInputs p }

end Sys2Proof.Machine
end

