-- ==== Sys2Proof/Tests/Slice0.lean ====
section
/-! SUPPORT. Tests of the model against spec/95_test_vectors.md and the encodings of spec/30_encoding.md, the
well-formedness smoke tests, and a witness for the hypotheses of every statement. -/

open Sys2Proof Sys2Proof.Machine Sys2Proof.Spec

namespace Sys2Proof.Tests

/-! ### Small states -/

/-- TEXT_CAP = 4096 and PACK_CAP = 1024, the convention of spec/95_test_vectors.md. -/
def caps : Params := ⟨4095, 1023⟩

/-- TEXT_CAP = 4 and PACK_CAP = 1, so that boundaries are near. -/
def tinyCaps : Params := ⟨3, 0⟩

def idle : State := State.resetWith caps 0

def tiny : State := State.resetWith tinyCaps 0

/-- The state after the host has stored a text and its length. -/
def withText (s : State) (bs : List Byte) : State :=
  { s with textMem := s.textMem.writeBytes 0 bs, textLen := BitVec.ofNat 32 bs.length }

/-- The state after the host has stored a record and its length. -/
def withRecord (s : State) (bs : List Byte) : State :=
  { s with recMem := s.recMem.writeBytes 0 bs, recLen := BitVec.ofNat 32 bs.length }

/-- The next state of an outcome. -/
def nextOf : Host.Outcome State Fault Refusal → State
  | .next t => t
  | .fault _ => idle
  | .refused _ => idle

def run (i : Instr) (s : State) : State := nextOf (exec i s)

/-- `run` names the next state `exec` answers. -/
theorem run_eq (i : Instr) (s : State) : exec i s = .next (run i s) := by
  obtain ⟨r, hr⟩ := exec_eq_outcome i s
  simp only [run, hr]
  rfl

/-- The bytes of the record in REC. -/
def record (s : State) : List Byte := s.recMem.readBytes .record 0 s.recLen.toNat

/-- "aaab", "abcd" and "zzz". -/
def textAaab : List Byte := [0x61, 0x61, 0x61, 0x62]
def textAbcd : List Byte := [0x61, 0x62, 0x63, 0x64]
def textZzz : List Byte := [0x7A, 0x7A, 0x7A]

/-- A frequency table with the listed entries. -/
def freqOf (es : List (Byte × Word)) : Table Word := es.foldl (fun F e => F.put e.1 e.2) zeroFreq

def freqAaab : Table Word := freqOf [(0x61, 3), (0x62, 1)]

/-- ENCODE of "aaab" has been run. -/
def afterAaab : State := run .encode (withText idle textAaab)

/-! ### Decoding: a word written out for every command (30_encoding.md R93), and words no command has -/

theorem test_decode_nop : decode 0b00000000_000000000000000000000000 = .ok .nop := by decide
theorem test_decode_clear : decode 0b00000001_000000000000000000000000 = .ok .clear := by decide
theorem test_decode_count : decode 0b00000010_000000000000000000000000 = .ok .count := by decide
theorem test_decode_build : decode 0b00000011_000000000000000000000000 = .ok .build := by decide
theorem test_decode_emit : decode 0b00000100_000000000000000000000000 = .ok .emit := by decide
theorem test_decode_encode : decode 0b00000101_000000000000000000000000 = .ok .encode := by decide
theorem test_decode_decode : decode 0b00000110_000000000000000000000000 = .ok .decode := by decide
theorem test_decode_pack : decode 0b00000111_000000000000000000000000 = .ok .pack := by decide
theorem test_decode_unpack : decode 0b00001000_000000000000000000000000 = .ok .unpack := by decide
theorem test_decode_crc : decode 0b00001001_000000000000000000000000 = .ok .crc := by decide

theorem test_decode_reserved : decode 0xFF000000 = .error (.reservedOpcode 0xFF) := by decide
theorem test_decode_z : decode 0x0A000001 = .error (.nonzeroZ 1) := by decide
theorem test_table_word : decodeTableWord 32 117440512 = some .pack := by decide

/-- Each check of WellFormed refuses an ill-formed word, and lets a word of the map pass. -/
theorem smoke_z_refused : zFieldClear 0x02000001 = false ∧ commandWordWellFormed 0x02000001 = false := by
  decide
theorem smoke_opcode_refused : opcodeDefined 0x0A000000 = false ∧ commandWordWellFormed 0x0A000000 = false := by
  decide
theorem smoke_wellformed : Instr.all.all (fun i => commandWordWellFormed (encode i)) = true := by decide

/-! ### One step each, against spec/95_test_vectors.md -/

theorem test_nop : (run .nop { idle with err := .malformedWalk, errPos := 4 }).statusWord = 0x2 ∧
    (run .nop { idle with err := .malformedWalk, errPos := 4 }).errPos = 0 := by decide +kernel

theorem test_clear : (run .clear afterAaab).statusWord = 0x2 ∧ (run .clear afterAaab).crcOut = 0 ∧
    record (run .clear afterAaab) = record afterAaab := by decide +kernel

theorem test_count :
    let t := run .count (withText { idle with freq := freqOf [(0x7A, 9)] } textAaab)
    t.freq.at 0x61 = 3 ∧ t.freq.at 0x62 = 1 ∧ t.freq.at 0x7A = 0 ∧ t.statusWord = 0x2 := by decide +kernel

theorem test_count_keeps_tree :
    (run .count (withText afterAaab [0x7A, 0x7A])).codes.at 0x61 = [true] ∧
    (run .count (withText afterAaab [0x7A, 0x7A])).freq.at 0x61 = 0 := by decide +kernel

/-- 2.3: the sum is exactly 0xFFFF_FFFF, and B < A in frequency, so B is the left child. -/
theorem test_build_largest_sum :
    let t := run .build { idle with freq := freqOf [(0x41, 0xFFFFFFFE), (0x42, 1)] }
    t.statusWord = 0x6 ∧ t.node 2 = .internal 0xFFFFFFFF 1 0 ∧ t.codes.at 0x42 = [false] := by decide +kernel

/-- 2.3: ties go to the smaller arena index, symbols being unsigned. -/
theorem test_build_ties :
    let t := run .build { idle with freq := freqOf [(0x00, 1), (0x80, 1), (0xFF, 1)] }
    t.node 4 = .internal 3 2 3 ∧ t.codes.at 0x80 = [true, true] ∧ t.codes.at 0xFF = [false] := by decide +kernel

theorem test_emit : record (run .emit (withText afterAaab [0x62, 0x62, 0x62, 0x61])) =
    [0x04, 0, 0, 0, 0, 0, 0, 0, 0x10, 0xE4, 0xF4, 0x9C, 0x7B] := by decide +kernel

theorem test_emit_no_code : (run .emit (withText afterAaab [0x61, 0x62, 0x63])).statusWord = 0x606 ∧
    (run .emit (withText afterAaab [0x61, 0x62, 0x63])).errPos = 2 := by decide +kernel

/-- 2.5: ENCODE of "aaab" with CTRL = 0x4, the big-endian record. -/
theorem test_encode_big_endian : record (run .encode { withText idle textAaab with be := true }) =
    [0, 0, 0, 0, 0, 0, 0, 0x04, 0xE0, 0xAC, 0xFE, 0xF8, 0x61] := by decide +kernel

/-- 2.5: ENCODE of "abcd" with CTRL = 0x2, the text checksum. -/
theorem test_encode_text_crc : record (run .encode { withText idle textAbcd with crcsrc := true }) =
    [0x08, 0, 0, 0, 0, 0, 0, 0, 0x1B, 0x11, 0xCD, 0x82, 0xED] := by decide +kernel

theorem test_decode_text : (run .decode afterAaab).statusWord = 0x6 ∧ (run .decode afterAaab).outLen = 4 ∧
    (run .decode afterAaab).outMem.readBytes .out 0 4 = textAaab := by decide +kernel

/-- 2.8: PACK of "01" decoded with the tree of "zzz": the bit 1 at index 1. -/
theorem test_decode_walk_failure :
    let s := run .pack (withText (run .encode (withText idle textZzz)) [0x30, 0x31])
    (run .decode s).statusWord = 0xA06 ∧ (run .decode s).errPos = 1 ∧ (run .decode s).crcOut = 0xCF412436 := by
  decide +kernel

theorem test_pack : record (run .pack (withText idle [0x31, 0x30, 0x31])) =
    [0x03, 0, 0, 0, 0, 0, 0, 0, 0xA0, 0x7C, 0x60, 0x70, 0x54] := by decide +kernel

theorem test_pack_bad_bit : (run .pack (withText idle [0x31, 0x61, 0x32])).statusWord = 0x702 ∧
    (run .pack (withText idle [0x31, 0x61, 0x32])).errPos = 1 := by decide +kernel

/-- 2.7: padding bits set are ignored. -/
theorem test_unpack_padding :
    let t := run .unpack (withRecord idle [0x03, 0, 0, 0, 0, 0, 0, 0, 0xAF, 0x7C, 0x60, 0x70, 0x54])
    t.outMem.readBytes .out 0 3 = [0x31, 0x30, 0x31] ∧ t.outLen = 3 ∧ t.crcOut = 0x5470607C := by decide +kernel

/-- 2.7: L = 0 needs exactly 12 bytes. -/
theorem test_unpack_trailing_byte :
    (run .unpack (withRecord idle (List.replicate 13 0))).statusWord = 0x902 := by decide +kernel

/-- 2.1: the check value over "123456789". -/
theorem test_crc : (run .crc (withText idle [0x31, 0x32, 0x33, 0x34, 0x35, 0x36, 0x37, 0x38, 0x39])).crcOut
    = 0xCBF43926 := by decide +kernel

theorem test_crc_too_long : (run .crc { tiny with textLen := 5, crcOut := 7 }).crcOut = 7 ∧
    (run .crc { tiny with textLen := 5 }).statusWord = 0x202 := by decide +kernel

/-! ### Steps, windows and the bus, against spec/95_test_vectors.md -/

theorem test_illegal_word :
    let t := nextOf (step (afterAaab.withFetchWord 32 0x0A000000))
    t.cmd = 0x0A000000 ∧ t.statusWord = 0x106 ∧ t.recLen = 13 ∧ t.pending = none := by decide +kernel

theorem test_node_window : ({ afterAaab with nodeSel := 2 }).regValue .nodeInfo = 0x00000001 ∧
    ({ afterAaab with nodeSel := 0 }).regValue .nodeInfo = 0x81840000 ∧
    ({ afterAaab with nodeSel := 3 }).regValue .nodeInfo = 0 := by decide +kernel

theorem test_code_window : ({ afterAaab with codeSel := 0x61 }).regValue (.codeBits 0) = 0x80000000 ∧
    ({ afterAaab with codeSel := 0x61 }).regValue .codeLen = 1 ∧
    ({ afterAaab with codeSel := 0x7A }).regValue .codeLen = 0 := by decide +kernel

theorem test_bus : idle.hostRead 0x000 .word = .data 0x48460001 ∧ idle.hostRead 0x000 .half = .busError ∧
    idle.hostRead 0x002 .word = .busError ∧ idle.hostRead 0xFFC .word = .data 0 ∧
    idle.hostRead 0x1000 .word = .busError ∧ idle.hostRead 0x10000000 .word = .busError ∧
    idle.hostRead 0x10001000 .byte = .busError ∧ idle.hostRead 0x2000040C .byte = .busError ∧
    idle.hostRead 0x30002000 .byte = .busError ∧ idle.hostRead 0x40000000 .byte = .busError := by decide +kernel

theorem test_bus_last_bytes :
    (idle.hostWrite 0x2000040B .byte 0x161).1.hostRead 0x2000040B .byte = .data 0x61 ∧
    (idle.hostWrite 0x30001FFF .byte 0x7).2 = .ok := by decide +kernel

theorem test_select_registers :
    (idle.hostWrite 0x034 .word 0xFFFFFFFF).1.hostRead 0x034 .word = .data 0x1FF ∧
    (idle.hostWrite 0x040 .word 0x1FF).1.hostRead 0x040 .word = .data 0xFF := by decide +kernel

theorem test_register_offsets : ∀ r ∈ lowRegs, regAt r.offset = some r := by decide

/-- R96: RUN NOP stands for the write to CMD and the wait. -/
theorem test_run_expansion : programInputs [.run .nop, .clrDone] =
    [.transaction (.write 0x00C .word 0x00000000), .pollIdle, .transaction (.write 0x008 .word 0x2)] := by
  decide

/-! ### Witnesses: for every statement with hypotheses, states and operands that meet them -/

/-- A command is pending and the engine moves next. -/
def pendingCrc : State := idle.withFetchWord 32 0x09000000

/-- A command is pending, one input may still pass, and one is there. -/
def waiting : State := { pendingCrc with latencyLeft := 1, inputs := [.pollIdle] }

theorem witness_EngineStepDecodesPendingWord_z :
    let s := idle.withFetchWord 32 0x00000001
    s.busy = true ∧ s.inReset = false ∧ s.pending = some 0x00000001 ∧ s.inputs = [] ∧
    (0x00000001 : Word).extractLsb' 0 24 ≠ 0 := by decide +kernel
theorem witness_EngineStepDecodesPendingWord_reserved :
    let s := idle.withFetchWord 32 0x0A000000
    s.busy = true ∧ s.inReset = false ∧ s.pending = some 0x0A000000 ∧ s.inputs = [] ∧
    0x09 < ((0x0A000000 : Word).extractLsb' 24 8).toNat := by decide +kernel
theorem witness_EngineStepDecodesPendingWord_command :
    pendingCrc.busy = true ∧ pendingCrc.inReset = false ∧ pendingCrc.pending = some 0x09000000 ∧
    pendingCrc.latencyLeft = 0 ∧ (0x09000000 : Word).extractLsb' 0 24 = 0 ∧
    ((0x09000000 : Word).extractLsb' 24 8).toNat ≤ 0x09 := by decide +kernel
theorem witness_StepRunsTheDecodedCommand :
    pendingCrc.busy = true ∧ pendingCrc.inReset = false ∧ pendingCrc.pending = some 0x09000000 ∧
    pendingCrc.latencyLeft = 0 ∧ decode 0x09000000 = .ok .crc := by decide +kernel
/-- An idle core with a read to come, a waiting one, one under `rst` with its release to come. -/
theorem witness_StepRunsTheDecodedCommand_inputs :
    (({ idle with inputs := [.transaction (.read 0x000 .word)] }).busy = false) ∧
    (waiting.busy = true ∧ waiting.inputs = [.pollIdle] ∧ waiting.latencyLeft ≠ 0) ∧
    (({ idle.assertReset with inputs := [.resetPin false] }).inReset = true) ∧
    (let s := { (idle.transact (.read 0x000 .word)) with inputs := [.writeBackXor 0x10000000 0x1] }
     s.busy = false ∧ s.response = some (.data 0x48460001)) ∧
    idle.inputs = [] ∧ idle.busy = false := by decide +kernel
theorem witness_OnlyTableWordsAreCommands : ∀ i : Instr, (0x0A000000 : Word) ≠ encode i := by
  intro i; cases i <;> decide
theorem witness_WriteToCmdAcceptsCommand :
    idle.inReset = false ∧ idle.busy = false ∧ pendingCrc.busy = true ∧ idle.inputs = [] ∧
    decode 0x09000000 = .ok .crc := by decide +kernel
theorem witness_CommandCompletesWithinLatency :
    waiting.busy = true ∧ waiting.inReset = false ∧ waiting.pending = some 0x09000000 ∧
    ∀ b, HostInput.resetPin b ∉ waiting.inputs := by decide +kernel
theorem witness_RunningCommandIsUndisturbed :
    waiting.busy = true ∧ waiting.turn = .input .pollIdle [] ∧ (∀ b, HostInput.pollIdle ≠ .resetPin b) ∧
    step waiting = .next (waiting.serveInput .pollIdle []) :=
  have ht : waiting.turn = .input .pollIdle [] := State.turn_eq_input.2 ⟨rfl, .inr (by decide)⟩
  ⟨rfl, ht, by decide, by simp only [step, ht]⟩
theorem witness_ErrorPositionReported_noCode :
    (run .emit (withText afterAaab [0x63])).err = .noCode := by decide +kernel
theorem witness_ErrorPositionReported_badBit : (run .pack (withText idle [0x61])).err = .badBit := by
  decide +kernel
theorem witness_ErrorPositionReported_walk :
    (run .decode (run .pack (withText (run .encode (withText idle textZzz)) [0x31]))).err = .malformedWalk := by
  decide +kernel

/-- LEN_RANGE at TEXT_CAP + 1, success at TEXT_CAP. -/
theorem witness_text_length_boundary :
    ({ tiny with textLen := 5 }).params.textCap < ({ tiny with textLen := 5 }).textLen.toNat ∧
    (withText tiny textAbcd).textLen.toNat = (withText tiny textAbcd).params.textCap := by decide +kernel
theorem witness_CountTalliesText :
    ({ tiny with textLen := 5 }).params.textCap < ({ tiny with textLen := 5 }).textLen.toNat ∧
    (withText tiny textAbcd).textLen.toNat ≤ (withText tiny textAbcd).params.textCap := by decide +kernel
theorem witness_CrcChecksumsText :
    ({ tiny with textLen := 5 }).params.textCap < ({ tiny with textLen := 5 }).textLen.toNat ∧
    (withText tiny textAbcd).textLen.toNat ≤ (withText tiny textAbcd).params.textCap := by decide +kernel

theorem witness_ExtractMinTakesSmallestKey :
    (leafNodes freqAaab)[1]? = some (.leaf 0x62 1) ∧ ([⟨1, 0⟩] : List QueueEntry) ≠ [] := by decide +kernel
theorem witness_MergePassJoinsTwoSmallest :
    ([⟨1, 0⟩] : List QueueEntry).length < 2 ∧ 2 ≤ ([⟨3, 0⟩, ⟨1, 1⟩] : List QueueEntry).length := by decide
theorem witness_LeavesInAscendingSymbolOrder :
    Node.leaf 0x61 3 ∈ leafNodes freqAaab ∧ freqAaab.at 0x61 ≠ 0 := by decide +kernel
theorem witness_BuildInstallsTreeOfFreq_empty : distinct idle.freq = 0 := by decide +kernel
theorem witness_BuildInstallsTreeOfFreq_overflow :
    distinct (freqOf [(0x41, 0xFFFFFFFF), (0x42, 1)]) ≠ 0 ∧
    0xFFFFFFFF < total (freqOf [(0x41, 0xFFFFFFFF), (0x42, 1)]) := by decide +kernel
theorem witness_BuildInstallsTreeOfFreq_success :
    distinct (freqOf [(0x41, 0xFFFFFFFE), (0x42, 1)]) ≠ 0 ∧
    total (freqOf [(0x41, 0xFFFFFFFE), (0x42, 1)]) = 0xFFFFFFFF := by decide +kernel
theorem witness_SingleSymbolGetsCodeZero :
    (freqOf [(0x7A, 3)]).at 0x7A ≠ 0 ∧ ∀ d, d ≠ 0x7A → (freqOf [(0x7A, 3)]).at d = 0 := by
  refine ⟨by decide +kernel, fun d hd => ?_⟩
  exact (Table.at_put_other hd zeroFreq 3).trans (zeroFreq_at d)
theorem witness_BuiltTreeHasItsShape : distinct freqAaab ≠ 0 ∧ total freqAaab ≤ 0xFFFFFFFF ∧
    (buildNodes freqAaab)[2]? = some (.internal 4 1 0) := by decide +kernel
theorem witness_CodesArePrefixFree : distinct freqAaab ≠ 0 ∧ total freqAaab ≤ 0xFFFFFFFF ∧
    2 ≤ distinct freqAaab ∧ (0x61 : Byte) ≠ 0x62 ∧ (codesOf freqAaab).at 0x61 ≠ [] := by decide +kernel
theorem witness_CodesFillTheTree : distinct freqAaab = 2 ∧ total freqAaab ≤ 0xFFFFFFFF := by decide +kernel
theorem witness_EncodedLengthIsWeightedSum : textAaab.length ≤ 268435456 := by decide
theorem witness_BuildDependsOnFreqAlone : idle.freq = tiny.freq := rfl

theorem aaab_holds_tree : afterAaab.HoldsTreeOf freqAaab where
  nonempty := by decide +kernel
  sumFits := by decide +kernel
  nodes := by decide +kernel
  codes := Vector.toList_inj.1 (by decide +kernel)
  nodeCount := by decide +kernel
  root := by decide +kernel

/-- ENCODE of "abcd" has been run. -/
def afterAbcd : State := run .encode (withText idle textAbcd)

theorem abcd_holds_tree : afterAbcd.HoldsTreeOf (freqCount textAbcd) where
  nonempty := by decide +kernel
  sumFits := by decide +kernel
  nodes := by decide +kernel
  codes := Vector.toList_inj.1 (by decide +kernel)
  nodeCount := by decide +kernel
  root := by decide +kernel

theorem witness_WalkReadsBackTheText :
    afterAaab.HoldsTreeOf freqAaab ∧ (∀ c ∈ textAaab, freqAaab.at c ≠ 0) ∧ distinct freqAaab = 2 ∧
    descend afterAaab.node (afterAaab.codes.at 0x61) afterAaab.root.toNat = some 0 ∧
    descend afterAaab.node (afterAaab.codes.at 0x62) afterAaab.root.toNat = some 1 ∧ freqAaab.at 0x7A = 0 :=
  ⟨aaab_holds_tree, by decide +kernel, by decide +kernel, by decide +kernel, by decide +kernel,
    by decide +kernel⟩
theorem witness_UnterminatedCodewordFailsWalk :
    afterAbcd.HoldsTreeOf (freqCount textAbcd) ∧ (∀ d ∈ textAbcd, (freqCount textAbcd).at d ≠ 0) ∧
    ([true] : Bitstring) ≠ [] ∧ [true] ≠ afterAbcd.codes.at 0x63 ∧ [true] <+: afterAbcd.codes.at 0x63 :=
  ⟨abcd_holds_tree, by decide +kernel, by decide, by decide +kernel, by decide +kernel⟩
theorem witness_LeafRootWalk :
    (run .encode (withText idle textZzz)).node 0 = .leaf 0x7A 3 ∧ true ∉ ([false] : Bitstring) ∧
    ([false, true] : Bitstring)[1]? = some true ∧ true ∉ ([false, true] : Bitstring).take 1 := by decide +kernel
theorem witness_PackUnpackRoundTrip : ([0xA0] : List Byte).length = ceilDiv 3 8 := by decide
theorem witness_CrcDetectsChangedByte : (0x30 : Byte) ≠ 0x31 := by decide

/-- One packed byte exactly fills PACK_CAP = 1; nine bits overflow it. -/
theorem witness_WriteRecordLaysOutRecord :
    ceilDiv (List.replicate 8 true).length 8 = tiny.params.packCap ∧
    tiny.params.packCap < ceilDiv (List.replicate 9 true).length 8 := by decide +kernel
theorem witness_ParseInvertsWrite : ceilDiv (List.replicate 8 true).length 8 ≤ tiny.params.packCap := by
  decide +kernel
theorem witness_FramingCheckAndParse_short :
    (withRecord tiny (List.replicate 11 0)).recLen.toNat ≤ tiny.params.recCap ∧
    (withRecord tiny (List.replicate 11 0)).recLen.toNat < 12 := by decide +kernel
theorem witness_FramingCheckAndParse_trailing :
    (withRecord tiny (List.replicate 13 0)).recLen.toNat = tiny.params.recCap ∧
    (withRecord tiny (List.replicate 13 0)).recLen.toNat ≠
      12 + ceilDiv (headerValue (withRecord tiny (List.replicate 13 0))) 8 := by decide +kernel
theorem witness_FramingCheckAndParse_fits :
    let s := withRecord tiny [8, 0, 0, 0, 0, 0, 0, 0, 0xFF, 0, 0, 0, 0]
    s.recLen.toNat = s.params.recCap ∧ 12 ≤ s.recLen.toNat ∧
    s.recLen.toNat = 12 + ceilDiv (headerValue s) 8 := by decide +kernel

theorem witness_EmitEncodesText_errors :
    ({ tiny with textLen := 5 }).params.textCap < ({ tiny with textLen := 5 }).textLen.toNat ∧
    ((withText idle textAaab).textLen.toNat ≤ idle.params.textCap ∧ (withText idle textAaab).treeValid = false) ∧
    (let s := withText afterAaab [0x61, 0x63]
     s.textLen.toNat ≤ s.params.textCap ∧ s.treeValid = true ∧ 1 < s.textLen.toNat ∧
     s.codes.at (s.memRead .text 1) = [] ∧ ∀ j, j < 1 → s.codes.at (s.memRead .text j) ≠ []) := by decide +kernel
/-- Nine symbols of a one-bit code overflow PACK_CAP = 1, eight fill it. -/
theorem witness_EmitEncodesText_overflow :
    let s := withText { afterAaab with params := ⟨15, 0⟩ } (List.replicate 9 0x61)
    s.textLen.toNat ≤ s.params.textCap ∧ s.treeValid = true ∧
    (∀ i, i < s.textLen.toNat → s.codes.at (s.memRead .text i) ≠ []) ∧
    s.params.packCap < ceilDiv ((text s).flatMap fun c => s.codes.at c).length 8 := by decide +kernel
theorem witness_EmitEncodesText_success :
    let s := withText { afterAaab with params := ⟨15, 0⟩ } (List.replicate 8 0x61)
    s.textLen.toNat ≤ s.params.textCap ∧ s.treeValid = true ∧
    (∀ i, i < s.textLen.toNat → s.codes.at (s.memRead .text i) ≠ []) ∧
    ceilDiv ((text s).flatMap fun c => s.codes.at c).length 8 = s.params.packCap := by decide +kernel
theorem witness_EncodeRunsItsThreeStages_all :
    (run .count (withText idle textAaab)).err = .ok ∧
    (run .build (run .count (withText idle textAaab))).err = .ok := by decide +kernel
theorem witness_EncodeRunsItsThreeStages_stops :
    (run .count { tiny with textLen := 5 }).err = .lenRange ∧ (run .count idle).err = .ok ∧
    (run .build (run .count idle)).err = .emptyInput := by decide +kernel
theorem witness_EncodeRunsItsThreeStages :
    exec .count (withText idle textAaab) = .next (run .count (withText idle textAaab)) ∧
    exec .build (run .count (withText idle textAaab)) =
      .next (run .build (run .count (withText idle textAaab))) :=
  ⟨run_eq _ _, run_eq _ _⟩
theorem witness_EncodeSucceedsOnFittingText :
    let s := withText tiny textAbcd
    1 ≤ s.textLen.toNat ∧ s.textLen.toNat = s.params.textCap ∧
    ceilDiv ((text s).flatMap fun c => (codesOf (freqCount (text s))).at c).length 8 = s.params.packCap := by
  decide +kernel
theorem witness_PackPacksAsciiBits_errors :
    ({ tiny with textLen := 5 }).params.textCap < ({ tiny with textLen := 5 }).textLen.toNat ∧
    (let s := withText idle [0x31, 0x32]
     s.textLen.toNat ≤ s.params.textCap ∧ 1 < s.textLen.toNat ∧ s.memRead .text 1 ≠ 0x30 ∧
     s.memRead .text 1 ≠ 0x31 ∧ ∀ j, j < 1 → s.memRead .text j = 0x30 ∨ s.memRead .text j = 0x31) := by
  decide +kernel
theorem witness_PackPacksAsciiBits_overflow :
    let s := withText (State.resetWith ⟨15, 0⟩ 0) (List.replicate 9 0x31)
    s.textLen.toNat ≤ s.params.textCap ∧
    (∀ i, i < s.textLen.toNat → s.memRead .text i = 0x30 ∨ s.memRead .text i = 0x31) ∧
    s.params.packCap < ceilDiv s.textLen.toNat 8 := by decide +kernel
theorem witness_PackPacksAsciiBits_success :
    let s := withText (State.resetWith ⟨15, 0⟩ 0) (List.replicate 8 0x31)
    s.textLen.toNat ≤ s.params.textCap ∧
    (∀ i, i < s.textLen.toNat → s.memRead .text i = 0x30 ∨ s.memRead .text i = 0x31) ∧
    ceilDiv s.textLen.toNat 8 = s.params.packCap := by decide +kernel

/-- A record of eight bits, which exactly fills REC_CAP = 13. -/
def fullRecord : State := withRecord tiny [8, 0, 0, 0, 0, 0, 0, 0, 0xFF, 0, 0, 0, 0]

theorem witness_UnpackWritesAsciiBits :
    ({ tiny with recLen := 14 }).params.recCap < ({ tiny with recLen := 14 }).recLen.toNat ∧
    ({ tiny with recLen := 11 }).recLen.toNat ≤ tiny.params.recCap ∧
    ({ tiny with recLen := 11 }).parseRecord = none ∧
    fullRecord.recLen.toNat = fullRecord.params.recCap ∧
    fullRecord.parseRecord = some ⟨8, List.replicate 8 true, 0⟩ := by decide +kernel
theorem witness_DecodeWalksAndVerifies_before_framing :
    ({ tiny with recLen := 14 }).params.recCap < ({ tiny with recLen := 14 }).recLen.toNat ∧
    (fullRecord.recLen.toNat ≤ fullRecord.params.recCap ∧ fullRecord.treeValid = false) ∧
    ({ afterAaab with recLen := 11 }).recLen.toNat ≤ afterAaab.params.recCap ∧
    ({ afterAaab with recLen := 11 }).treeValid = true ∧
    ({ afterAaab with recLen := 11 }).parseRecord = none := by decide +kernel
theorem witness_DecodeWalksAndVerifies_success :
    afterAaab.recLen.toNat ≤ afterAaab.params.recCap ∧ afterAaab.treeValid = true ∧
    afterAaab.parseRecord = some ⟨4, [true, true, true, false], 0xACFEF861⟩ ∧
    walk afterAaab.node afterAaab.root [true, true, true, false] = ⟨textAaab, none⟩ ∧
    crc32 (covered afterAaab [true, true, true, false] textAaab) = 0xACFEF861 := by decide +kernel
/-- A flipped bit, and a record of "0" that ends inside a codeword of the tree of "abcd". -/
theorem witness_DecodeWalksAndVerifies_failures :
    (run .decode (afterAaab.memWrite .record 8 [0x60])).err = .integrity ∧
    (run .decode (run .pack (withText afterAbcd [0x30]))).err = .malformedWalk := by decide +kernel
theorem witness_EncodeThenDecodeRestoresText :
    1 ≤ (withText idle textAaab).textLen.toNat ∧
    (withText idle textAaab).textLen.toNat ≤ (withText idle textAaab).params.textCap ∧
    exec .encode (withText idle textAaab) = .next afterAaab ∧ afterAaab.err = .ok :=
  ⟨by decide +kernel, by decide +kernel, run_eq _ _, by decide +kernel⟩
theorem witness_FlippedBitGivesIntegrity :
    afterAaab.crcsrc = false ∧ exec .decode afterAaab = .next (run .decode afterAaab) ∧
    (run .decode afterAaab).err = .ok ∧ 3 < (run .decode afterAaab).bitLen.toNat :=
  ⟨by decide +kernel, run_eq _ _, by decide +kernel, by decide +kernel⟩
theorem witness_FlippedPaddingIsIgnored :
    exec .decode afterAaab = .next (run .decode afterAaab) ∧ (run .decode afterAaab).err = .ok ∧
    (run .decode afterAaab).bitLen.toNat = 4 ∧ 7 < 8 * ceilDiv (run .decode afterAaab).bitLen.toNat 8 :=
  ⟨run_eq _ _, by decide +kernel, by decide +kernel, by decide +kernel⟩
theorem witness_CommandsWriteOnlyTheirOwn : exec .nop idle = .next (run .nop idle) :=
  run_eq _ _
theorem witness_TreeValidHasFourWriters :
    let s := afterAaab.withFetchWord 32 0x01000000
    step s = .next (nextOf (step s)) ∧ (nextOf (step s)).treeValid = false ∧ s.treeValid = true := by
  refine ⟨?_, by decide +kernel, by decide +kernel⟩
  simp only [step]
  split
  · split
    · rename_i i _
      rw [run_eq i]
      rfl
    · rfl
  · rfl
  · rfl

theorem witness_BusErrorChangesNothing :
    (idle.transact (.read 0x1000 .word)).response = some .busError ∧
    (pendingCrc.transact (.write 0x00C .word 0)).response = some .busError := by decide +kernel
theorem witness_BusyLocksTheHostOut : pendingCrc.busy = true ∧ pendingCrc.inReset = false ∧
    ¬ (AccessSize.half = .word ∧ ((0x000 : Word) = 0x000 ∨ (0x000 : Word) = 0x008)) := by decide +kernel
theorem witness_ReadOnlyAndReservedAreInert : idle.busy = false ∧ idle.inReset = false ∧
    (∀ off ∈ [0x000, 0x3FC, 0x800, 0xFFC], off < 0x1000 ∧ off % 4 = 0 ∧
      off ∉ [0x004, 0x008, 0x00C, 0x010, 0x014, 0x034, 0x040] ∧ (off < 0x400 ∨ 0x800 ≤ off)) ∧
    ∀ off ∈ [0x048, 0x04C, 0x070, 0x3FC, 0x800, 0xFFC], off < 0x1000 ∧ off % 4 = 0 ∧
      (off = 0x048 ∨ off = 0x04C ∨ (0x070 ≤ off ∧ off < 0x400) ∨ 0x800 ≤ off) := by decide +kernel
theorem witness_WritableRegistersReadBack : idle.busy = false ∧ idle.inReset = false := by decide
theorem witness_MemoryWindowHoldsBytes : idle.busy = false ∧ idle.inReset = false ∧
    4095 < idle.params.spaceCap .text ∧ 1035 < idle.params.spaceCap .record ∧
    8191 < idle.params.spaceCap .out := by decide +kernel
theorem witness_OutsideTheMapIsBusError_register :
    (0x002 : Word).toNat < 0x1000 ∧ ¬ (AccessSize.word = .word ∧ (0x002 : Word).toNat % 4 = 0) := by decide
theorem witness_OutsideTheMapIsBusError_memory : ∀ a ∈ ([0x1000, 0x10001000, 0x40000000] : List Word),
    0x1000 ≤ a.toNat ∧
    ∀ sp, ¬ (spaceBase sp ≤ a.toNat ∧ a.toNat < spaceBase sp + idle.params.spaceCap sp) := by
  have hc : idle.params.spaceCap .text = 4096 ∧ idle.params.spaceCap .record = 1036 ∧
      idle.params.spaceCap .out = 8192 := by decide
  intro a ha
  have hn : a.toNat = 0x1000 ∨ a.toNat = 0x10001000 ∨ a.toNat = 0x40000000 := by
    simp at ha
    rcases ha with rfl | rfl | rfl <;> simp
  refine ⟨by omega, fun sp => ?_⟩
  cases sp <;> simp only [spaceBase] <;> omega
theorem witness_StatusAndCtrlBits : (0 : Nat) < 32 ∧ 31 < 32 := by decide
theorem witness_InterruptFollowsDoneAndEnable : idle.busy = false ∧ idle.inReset = false := by decide
theorem witness_NodeWindowShowsSelectedNode :
    (idle.busy = false ∧ idle.inReset = false) ∧ idle.nodeCount.toNat ≤ idle.nodeSel.toNat ∧
    (let s := { afterAaab with nodeSel := 2 }
     s.nodeSel.toNat < s.nodeCount.toNat ∧ s.node s.nodeSel.toNat = .internal 4 1 0) ∧
    (let s := { afterAaab with nodeSel := 0 }
     s.nodeSel.toNat < s.nodeCount.toNat ∧ s.node s.nodeSel.toNat = .leaf 0x61 3) := by decide +kernel
theorem witness_CodeWindowShowsSelectedCode :
    (afterAaab.busy = false ∧ afterAaab.inReset = false) ∧
    (({ afterAaab with codeSel := 0x61 }).codes.at 0x61).length = 1 ∧ (31 : Nat) < 32 := by decide +kernel

/-- The invariant holds of a small idle machine. -/
theorem idle_inv : idle.Inv where
  memories := ⟨.nil, .nil, .nil, by simp [idle, State.resetWith], by simp [idle, State.resetWith],
    by simp [idle, State.resetWith]⟩
  latch := ⟨rfl, nofun, nofun, nofun⟩
  tree := ⟨nofun, fun _ => ⟨rfl, rfl, rfl⟩, by decide⟩
  outLen := by decide
  fresh := ⟨by decide, by decide, by decide, by decide⟩

/-- A write to CMD is the next input. -/
def aboutToAccept : State := { idle with inputs := [.transaction (.write 0x00C .word 0)] }

theorem aboutToAccept_turn :
    aboutToAccept.turn = .input (.transaction (.write 0x00C .word 0)) [] :=
  State.turn_eq_input.2 ⟨rfl, .inl rfl⟩
theorem witness_InvariantKeptByEveryStep :
    aboutToAccept.Inv ∧ step aboutToAccept =
      .next (aboutToAccept.serveInput (.transaction (.write 0x00C .word 0)) []) :=
  ⟨⟨⟨idle_inv.memories.1, idle_inv.memories.2, idle_inv.memories.3, idle_inv.memories.4, idle_inv.memories.5,
      idle_inv.memories.6⟩, ⟨rfl, nofun, nofun, nofun⟩, ⟨nofun, fun _ => ⟨rfl, rfl, rfl⟩, by decide⟩,
    by decide, ⟨by decide, by decide, by decide, by decide⟩⟩, by simp only [step, aboutToAccept_turn]⟩
theorem witness_ParametersNeverChange : step idle = .next idle := by
  have h : idle.turn = .idle := State.turn_eq_idle.2 ⟨rfl, rfl⟩
  simp only [step, h]

end Sys2Proof.Tests
end

section
/-! SUPPORT. What no command writes: the host's own registers, TEXT, the reset input, the parameters and the
model's own fields on the host's side (spec/10_state.md R51, spec/20_memory.md R60). -/

namespace Sys2Proof.Machine

/-- `t` agrees with `s` on every field that only the host, the reset input or the model's timing writes. -/
structure State.SameHostSide (s t : State) : Prop where
  params : t.params = s.params
  inReset : t.inReset = s.inReset
  ie : t.ie = s.ie
  crcsrc : t.crcsrc = s.crcsrc
  be : t.be = s.be
  cmd : t.cmd = s.cmd
  textLen : t.textLen = s.textLen
  nodeSel : t.nodeSel = s.nodeSel
  codeSel : t.codeSel = s.codeSel
  textMem : t.textMem = s.textMem
  inputs : t.inputs = s.inputs
  response : t.response = s.response
  latencyLeft : t.latencyLeft = s.latencyLeft

theorem State.SameHostSide.refl (s : State) : s.SameHostSide s := by constructor <;> rfl

theorem State.SameHostSide.trans {s t u : State} (h : s.SameHostSide t) (k : t.SameHostSide u) :
    s.SameHostSide u where
  params := k.params.trans h.params
  inReset := k.inReset.trans h.inReset
  ie := k.ie.trans h.ie
  crcsrc := k.crcsrc.trans h.crcsrc
  be := k.be.trans h.be
  cmd := k.cmd.trans h.cmd
  textLen := k.textLen.trans h.textLen
  nodeSel := k.nodeSel.trans h.nodeSel
  codeSel := k.codeSel.trans h.codeSel
  textMem := k.textMem.trans h.textMem
  inputs := k.inputs.trans h.inputs
  response := k.response.trans h.response
  latencyLeft := k.latencyLeft.trans h.latencyLeft

/-! ### The updates a command makes -/

theorem State.sameHostSide_invalidateTree (s : State) : s.SameHostSide s.invalidateTree := by
  constructor <;> rfl

theorem State.sameHostSide_installTree (s : State) (F : Table Word) :
    s.SameHostSide (s.installTree F) := by constructor <;> rfl

theorem State.sameHostSide_writeRecord (s : State) (B : Bitstring) (crc : Word) :
    s.SameHostSide (s.writeRecord B crc) := by constructor <;> rfl

/-! ### Each command's body -/

/-- The state a command's body ends in, before its completion. -/
def CmdEnd.reached : CmdEnd → State
  | .finished s => s
  | .raised _ _ s => s

/-- Completion acts on the state the body has reached. -/
theorem CmdEnd.complete_eq (r : CmdEnd) : ∃ e p, r.complete = r.reached.complete e p := by
  cases r with
  | finished s => exact ⟨.ok, 0, rfl⟩
  | raised e p s => exact ⟨e, p, rfl⟩

theorem CmdEnd.sameHostSide_andThen {s : State} {r : CmdEnd} {stage : State → CmdEnd}
    (hr : s.SameHostSide r.reached) (hstage : ∀ t : State, t.SameHostSide (stage t).reached) :
    s.SameHostSide (r.andThen stage).reached := by
  cases r with
  | finished t => exact hr.trans (hstage t)
  | raised e p t => exact hr

theorem CmdEnd.sameHostSide_clearOutLenOnRaise {s : State} {r : CmdEnd}
    (hr : s.SameHostSide r.reached) : s.SameHostSide r.clearOutLenOnRaise.reached := by
  cases r with
  | finished t => exact hr
  | raised e p t => exact hr.trans (by constructor <;> rfl)

theorem sameHostSide_clearBody (s : State) : s.SameHostSide (clearBody s).reached := by
  constructor <;> rfl

theorem sameHostSide_countBody (s : State) : s.SameHostSide (countBody s).reached := by
  rcases countBody_cases s with ⟨-, h⟩ | ⟨-, h⟩ <;> rw [h]
  · exact .refl s
  · constructor <;> rfl

theorem sameHostSide_buildBody (s : State) : s.SameHostSide (buildBody s).reached := by
  rcases buildBody_cases s with ⟨-, h⟩ | ⟨-, -, h⟩ | ⟨-, -, h⟩ <;> rw [h]
  · exact s.sameHostSide_invalidateTree
  · exact s.sameHostSide_invalidateTree
  · exact s.sameHostSide_installTree _

theorem sameHostSide_emitBody (s : State) : s.SameHostSide (emitBody s).reached := by
  rcases emitBody_cases s with
    ⟨-, h⟩ | ⟨-, -, h⟩ | ⟨-, -, i, -, h⟩ | ⟨-, -, -, -, h⟩ | ⟨-, -, -, -, h⟩ <;> rw [h]
  · exact .refl s
  · exact .refl s
  · exact .refl s
  · exact .refl s
  · exact s.sameHostSide_writeRecord _ _

theorem sameHostSide_encodeBody (s : State) : s.SameHostSide (encodeBody s).reached :=
  CmdEnd.sameHostSide_andThen
    (CmdEnd.sameHostSide_andThen (sameHostSide_countBody s) sameHostSide_buildBody) sameHostSide_emitBody

theorem sameHostSide_decodeParsed (s : State) (r : ParsedRecord) :
    s.SameHostSide (decodeParsed s r).reached := by
  rcases decodeParsed_cases s r with ⟨-, h⟩ | ⟨-, p, -, h⟩ | ⟨-, -, h⟩ <;> rw [h] <;>
    constructor <;> rfl

theorem sameHostSide_decodeBody (s : State) : s.SameHostSide (decodeBody s).reached := by
  rcases decodeBody_cases s with ⟨-, h⟩ | ⟨-, -, h⟩ | ⟨-, -, -, h⟩ | ⟨-, -, r, -, h⟩ <;> rw [h]
  · constructor <;> rfl
  · constructor <;> rfl
  · constructor <;> rfl
  · exact CmdEnd.sameHostSide_clearOutLenOnRaise (sameHostSide_decodeParsed s r)

theorem sameHostSide_packBody (s : State) : s.SameHostSide (packBody s).reached := by
  rcases packBody_cases s with ⟨-, h⟩ | ⟨-, i, -, h⟩ | ⟨-, -, -, h⟩ | ⟨-, -, -, h⟩ <;> rw [h]
  · exact .refl s
  · exact .refl s
  · exact .refl s
  · exact s.sameHostSide_writeRecord _ _

theorem sameHostSide_unpackBody (s : State) : s.SameHostSide (unpackBody s).reached := by
  rcases unpackBody_cases s with ⟨-, h⟩ | ⟨-, -, h⟩ | ⟨-, r, -, h⟩ <;> rw [h] <;> constructor <;> rfl

theorem sameHostSide_crcBody (s : State) : s.SameHostSide (crcBody s).reached := by
  rcases crcBody_cases s with ⟨-, h⟩ | ⟨-, h⟩ <;> rw [h]
  · exact .refl s
  · constructor <;> rfl

/-- Every command completes the body of its own meaning, which keeps the host's side. -/
theorem exec_eq_outcome_sameHostSide (i : Instr) (s : State) :
    ∃ r : CmdEnd, exec i s = r.outcome ∧ s.SameHostSide r.reached := by
  cases i with
  | nop => exact ⟨_, rfl, .refl s⟩
  | clear => exact ⟨_, rfl, sameHostSide_clearBody s⟩
  | count => exact ⟨_, rfl, sameHostSide_countBody s⟩
  | build => exact ⟨_, rfl, sameHostSide_buildBody s⟩
  | emit => exact ⟨_, rfl, sameHostSide_emitBody s⟩
  | encode => exact ⟨_, rfl, sameHostSide_encodeBody s⟩
  | decode => exact ⟨_, rfl, sameHostSide_decodeBody s⟩
  | pack => exact ⟨_, rfl, sameHostSide_packBody s⟩
  | unpack => exact ⟨_, rfl, sameHostSide_unpackBody s⟩
  | crc => exact ⟨_, rfl, sameHostSide_crcBody s⟩

/-- Every command ends in a completion step (spec/60_exceptions.md R262) from a state that has kept the host's
side. -/
theorem exec_eq_complete (i : Instr) (s : State) :
    ∃ (r : State) (e : ErrCode) (p : Word), exec i s = .next (r.complete e p) ∧ s.SameHostSide r := by
  obtain ⟨r, hexec, hr⟩ := exec_eq_outcome_sameHostSide i s
  obtain ⟨e, p, hc⟩ := r.complete_eq
  exact ⟨r.reached, e, p, by rw [hexec, CmdEnd.outcome, hc], hr⟩

end Sys2Proof.Machine
end

section
/-! SUPPORT. What a word transaction at a register's own address does in an idle core out of reset, and that
every write to a busy core is refused (spec/10_state.md R22, R23; spec/20_memory.md R61 to R66). -/

namespace Sys2Proof.Machine

/-! ### Every register's offset reaches that register -/

theorem Reg.offset_lt (r : Reg) : r.offset < 0x1000 := by
  cases r with
  | codeBits j => have := j.isLt; simp only [Reg.offset]; omega
  | freq c => have := c.isLt; simp only [Reg.offset]; omega
  | _ => decide

theorem Reg.offset_mod_four (r : Reg) : r.offset % 4 = 0 := by
  cases r with
  | codeBits j => simp only [Reg.offset]; omega
  | freq c => simp only [Reg.offset]; omega
  | _ => rfl

@[simp] theorem regAt_offset (r : Reg) : regAt r.offset = some r := by
  cases r with
  | codeBits j =>
    have hk : (0x050 + 4 * j.val) / 4 = 20 + j.val := by omega
    have hj := j.isLt
    simp [regAt, Reg.offset, hk, show ¬ 20 + j.val < 18 by omega, show 20 + j.val < 28 by omega]
  | freq c =>
    have hk : (0x400 + 4 * c.toNat) / 4 = 256 + c.toNat := by omega
    have hc := c.isLt
    simp [regAt, Reg.offset, hk, show ¬ 256 + c.toNat < 18 by omega, show ¬ 256 + c.toNat < 28 by omega,
      show 256 + c.toNat < 512 by omega]
  | _ => rfl

@[simp] theorem regAddr_toNat (r : Reg) : (regAddr r).toNat = r.offset := by
  have := r.offset_lt
  simp only [regAddr, BitVec.toNat_ofNat]
  omega

@[simp] theorem busTarget_regAddr (p : Params) (r : Reg) :
    busTarget p (regAddr r) .word = .register r.offset := by
  simp [busTarget, r.offset_lt, r.offset_mod_four]

/-! ### Who is answered -/

theorem State.lockedOut_of_idle {s : State} (hb : s.busy = false) (hr : s.inReset = false)
    (t : Transaction) : s.lockedOut t = false := by
  simp [State.lockedOut, hb, hr]

/-- A word read at a register's address answers its value (R63). -/
theorem State.hostRead_regAddr {s : State} (hb : s.busy = false) (hr : s.inReset = false) (r : Reg) :
    s.hostRead (regAddr r) .word = .data (s.regValue r) := by
  simp [State.hostRead, State.lockedOut_of_idle hb hr, State.apertureRead]

/-- A word write at a register's address performs its write rule (R63). -/
theorem State.hostWrite_regAddr {s : State} (hb : s.busy = false) (hr : s.inReset = false) (r : Reg)
    (v : Word) : s.hostWrite (regAddr r) .word v = (s.regWrite r v, .ok) := by
  simp [State.hostWrite, State.lockedOut_of_idle hb hr, State.apertureWrite]

/-- Under BUSY every write is a bus error without effect (R66, R67). -/
theorem State.hostWrite_of_busy {s : State} (hb : s.busy = true) (a : Word) (size : AccessSize)
    (v : Word) : s.hostWrite a size v = (s, .busError) := by
  simp [State.hostWrite, State.lockedOut_write_of_busy hb]

end Sys2Proof.Machine
end

section
/-! SUPPORT. What the arena window and the code window read (spec/10_state.md R40 to R44). -/

namespace Sys2Proof.Machine

/-! ### The arena window -/

theorem State.selectedNode_of_lt {s : State} (h : s.nodeSel.toNat < s.nodeCount.toNat) :
    s.selectedNode = some (s.node s.nodeSel.toNat) := if_pos h

theorem State.selectedNode_of_le {s : State} (h : s.nodeCount.toNat ≤ s.nodeSel.toNat) :
    s.selectedNode = none := if_neg (Nat.not_lt.2 h)

/-- Concatenation puts its left part above the `n` bits of the right one. -/
theorem toNat_append_eq_add {m n : Nat} (x : BitVec m) (y : BitVec n) :
    (x ++ y).toNat = 2 ^ n * x.toNat + y.toNat := by
  rw [BitVec.toNat_append, ← Nat.shiftLeft_add_eq_or_of_lt y.isLt, Nat.shiftLeft_eq, Nat.mul_comm]

theorem nodeInfoWord_leaf_toNat (c : Byte) (f : Word) :
    (nodeInfoWord (.leaf c f)).toNat = 2 ^ 31 + 2 ^ 18 * c.toNat := by
  simp only [nodeInfoWord, toNat_append_eq_add, BitVec.reduceToNat]
  omega

theorem nodeInfoWord_internal_toNat (f : Word) (l r : BitVec 9) :
    (nodeInfoWord (.internal f l r)).toNat = 2 ^ 9 * r.toNat + l.toNat := by
  simp only [nodeInfoWord, toNat_append_eq_add, BitVec.reduceToNat]
  omega

/-! ### The code window -/

/-- Bit `n - 1 - k` of the number of a bitstring is its bit `k`, 0 past the end. -/
theorem natOfBits_testBit {n k : Nat} (hk : k < n) (B : Bitstring) :
    (natOfBits n B).testBit (n - 1 - k) = B[k]?.getD false := by
  induction n generalizing k B with
  | zero => omega
  | succ n ih =>
    cases B with
    | nil => simp [natOfBits]
    | cons b B =>
      cases k with
      | zero =>
        have hlow := Nat.testBit_lt_two_pow (natOfBits_lt n B)
        cases b <;> simp [natOfBits, Nat.testBit_two_pow_add_eq, hlow]
      | succ k =>
        have hkn : n - 1 - k < n := by omega
        have hidx : n + 1 - 1 - (k + 1) = n - 1 - k := by omega
        rw [hidx, List.getElem?_cons_succ, ← ih (by omega) B]
        cases b <;> simp [natOfBits, Nat.testBit_two_pow_add_gt hkn]

/-- `msbFirst` puts bit `k` of a bitstring at position `n - 1 - k` (R183, R44). -/
theorem msbFirst_getLsbD {n k : Nat} (hk : k < n) (B : Bitstring) :
    (msbFirst n B).getLsbD (n - 1 - k) = B[k]?.getD false := by
  rw [BitVec.getLsbD, msbFirst_toNat, natOfBits_testBit hk]

theorem State.regValue_codeLen_toNat {s : State} (h : (s.codes.at s.codeSel).length ≤ 255) :
    (s.regValue .codeLen).toNat = (s.codes.at s.codeSel).length := by
  simp only [State.regValue, State.selectedCode, BitVec.toNat_setWidth, BitVec.toNat_ofNat]
  omega

theorem State.regValue_codeBits_getLsbD (s : State) (j : Fin 8) {k : Nat} (hk : k < 32) :
    (s.regValue (.codeBits j)).getLsbD (31 - k) = (s.codes.at s.codeSel)[32 * j.val + k]?.getD false := by
  rw [State.regValue, msbFirst_getLsbD hk, List.getElem?_drop, State.selectedCode]

end Sys2Proof.Machine
end

section
/-! PROOFS. The statements on acceptance, the interrupt and the two windows (spec/10_state.md). -/

open Sys2Proof Sys2Proof.Machine

namespace Sys2Proof.Proofs

/-- When the engine moves on a command's word, the step is that command. -/
theorem step_of_turn_engine {s : State} {w : Word} {i : Instr} (ht : s.turn = .engine w)
    (hd : decode w = .ok i) : step s = exec i s := by
  simp only [step, ht, hd]

/-- An accepted word is pending: the engine moves on it once no input is left or its LATENCY is 0. -/
theorem acceptCommand_turn {s : State} (hr : s.inReset = false) (w : Word)
    (h : s.inputs = [] ∨ Config.latency s.draws = 0) : (s.acceptCommand w).turn = .engine w :=
  State.turn_eq_engine.2 ⟨State.fetched_eq_some.2 ⟨rfl, hr, rfl⟩, h⟩

/-- Settles O10: the idle core performs the write rule of CMD, `State.acceptCommand`, after which the engine's
turn is on `w`; a busy core refuses every write. -/
theorem writeToCmdAcceptsCommand : Obligations.WriteToCmdAcceptsCommand := by
  unfold Obligations.WriteToCmdAcceptsCommand
  refine ⟨fun s w hr hb => ⟨State.hostRead_regAddr hb hr .cmd, ?_⟩, fun s w hb => ?_, rfl⟩
  · refine ⟨s.acceptCommand w, Config.latency s.draws, s.draws + 1,
      State.hostWrite_regAddr hb hr .cmd w, rfl, fun h i hd => ?_⟩
    exact step_of_turn_engine (acceptCommand_turn hr w h) hd
  · exact State.hostWrite_of_busy hb _ _ w

/-- Settles O56, by whether NODE_SEL is below NODE_COUNT and by the kind of the selected node. -/
theorem nodeWindowShowsSelectedNode : Obligations.NodeWindowShowsSelectedNode := by
  unfold Obligations.NodeWindowShowsSelectedNode
  refine fun s => ⟨fun hb hr => ?_, fun hle => ?_, fun hlt => ?_⟩
  · exact ⟨State.hostRead_regAddr hb hr .nodeFreq, State.hostRead_regAddr hb hr .nodeInfo⟩
  · simp [State.regValue, State.selectedNode_of_le hle]
  · have hsel := State.selectedNode_of_lt hlt
    have hinfo : s.regValue .nodeInfo = nodeInfoWord (s.node s.nodeSel.toNat) := by
      simp [State.regValue, hsel]
    refine ⟨by simp [State.regValue, hsel], fun c f hn => ?_, fun f l r hn => ?_⟩
    · rw [hinfo, hn, nodeInfoWord_leaf_toNat]
    · rw [hinfo, hn, nodeInfoWord_internal_toNat]

/-- Settles O57: CODE_LEN does not wrap below 256 bits, and CODE_BITSj is `msbFirst` of the code from bit 32·j
on. -/
theorem codeWindowShowsSelectedCode : Obligations.CodeWindowShowsSelectedCode := by
  unfold Obligations.CodeWindowShowsSelectedCode
  refine fun s hlen => ⟨fun hb hr => ⟨?_, fun j => ?_⟩, ?_, fun j k hk => ?_⟩
  · exact State.hostRead_regAddr hb hr .codeLen
  · exact State.hostRead_regAddr hb hr (.codeBits j)
  · exact State.regValue_codeLen_toNat hlen
  · exact s.regValue_codeBits_getLsbD j hk

/-- Settles O53: a completion sets DONE and no command's body writes IE; the host's writes are the write rules of
STATUS, CTRL and CMD. -/
theorem interruptFollowsDoneAndEnable : Obligations.InterruptFollowsDoneAndEnable := by
  unfold Obligations.InterruptFollowsDoneAndEnable
  refine ⟨fun s => rfl, fun i s => ?_, fun s v hb hr => ?_, fun s => ⟨rfl, rfl, rfl, rfl⟩⟩
  · obtain ⟨r, e, p, hexec, hside⟩ := exec_eq_complete i s
    exact ⟨r.complete e p, hexec, rfl, by simp [State.irq, hside.ie]⟩
  · have hstatus := State.hostWrite_regAddr hb hr .status v
    have hctrl := State.hostWrite_regAddr hb hr .ctrl v
    have hcmd := State.hostWrite_regAddr hb hr .cmd v
    exact ⟨hstatus, congrArg (·.1.irq) hctrl, congrArg (·.1.done) hcmd, congrArg (·.1.irq) hcmd⟩

end Sys2Proof.Proofs
end

section
/-! SUPPORT. What an address reaches, and what a transaction that reaches nothing, or a memory byte, does
(spec/20_memory.md R61 to R67). -/

namespace Sys2Proof.Machine

/-! ### The address map -/

/-- Every space lies within its window of 2^28 addresses (R7, R62). -/
theorem spaceCap_le (p : Params) (sp : Space) : p.spaceCap sp ≤ 0x10000000 := by
  have htext := p.textCapPred.isLt
  have hpack := p.packCapPred.isLt
  cases sp <;>
    simp only [Params.spaceCap, Params.textCap, Params.recCap, Params.outCap, Params.packCap] <;> omega

theorem windowTarget_within {p : Params} {sp : Space} {i : Nat} (h : i < p.spaceCap sp) :
    windowTarget p sp .byte (spaceBase sp + i) = .memory sp i := by
  simp [windowTarget, h]

theorem windowTarget_of_ne_byte {size : AccessSize} (h : size ≠ .byte) (p : Params) (sp : Space) (n : Nat) :
    windowTarget p sp size n = .nothing := if_neg fun hin => h hin.1

theorem windowTarget_past {p : Params} {sp : Space} {n : Nat} (h : spaceBase sp + p.spaceCap sp ≤ n)
    (size : AccessSize) : windowTarget p sp size n = .nothing :=
  if_neg fun hin => by omega

/-- Within the 2^28 addresses of a space, that space's window decides. -/
theorem busTarget_window {a : Word} {sp : Space} (hlo : spaceBase sp ≤ a.toNat)
    (hhi : a.toNat < spaceBase sp + 0x10000000) (p : Params) (size : AccessSize) :
    busTarget p a size = windowTarget p sp size a.toNat := by
  cases sp with
  | text =>
    simp only [spaceBase] at hlo hhi
    simp [busTarget, show ¬ a.toNat < 0x1000 by omega, show ¬ a.toNat < 0x10000000 by omega,
      show a.toNat < 0x20000000 by omega]
  | record =>
    simp only [spaceBase] at hlo hhi
    simp [busTarget, show ¬ a.toNat < 0x1000 by omega, show ¬ a.toNat < 0x10000000 by omega,
      show ¬ a.toNat < 0x20000000 by omega, show a.toNat < 0x30000000 by omega]
  | out =>
    simp only [spaceBase] at hlo hhi
    simp [busTarget, show ¬ a.toNat < 0x1000 by omega, show ¬ a.toNat < 0x10000000 by omega,
      show ¬ a.toNat < 0x20000000 by omega, show ¬ a.toNat < 0x30000000 by omega,
      show a.toNat < 0x40000000 by omega]

/-- Between the aperture and the windows, and past the last one, nothing is mapped. -/
theorem busTarget_between {a : Word}
    (h : 0x1000 ≤ a.toNat ∧ a.toNat < spaceBase .text ∨ spaceBase .out + 0x10000000 ≤ a.toNat)
    (p : Params) (size : AccessSize) : busTarget p a size = .nothing := by
  simp only [spaceBase] at h
  rcases h with ⟨hlo, hhi⟩ | hlo
  · simp [busTarget, Nat.not_lt.2 hlo, hhi]
  · simp [busTarget, show ¬ a.toNat < 0x1000 by omega, show ¬ a.toNat < 0x10000000 by omega,
      show ¬ a.toNat < 0x20000000 by omega, show ¬ a.toNat < 0x30000000 by omega,
      show ¬ a.toNat < 0x40000000 by omega]

/-- A register access of the wrong width or alignment reaches nothing (R63). -/
theorem busTarget_aperture_malformed {a : Word} {size : AccessSize} (ha : a.toNat < 0x1000)
    (h : ¬ (size = .word ∧ a.toNat % 4 = 0)) (p : Params) : busTarget p a size = .nothing := by
  simp only [busTarget, if_pos ha, if_neg h]

/-- An address above the aperture and in no space reaches nothing (R65). -/
theorem busTarget_outside_spaces {p : Params} {a : Word} (ha : 0x1000 ≤ a.toNat)
    (h : ∀ sp, ¬ (spaceBase sp ≤ a.toNat ∧ a.toNat < spaceBase sp + p.spaceCap sp)) (size : AccessSize) :
    busTarget p a size = .nothing := by
  by_cases hw : ∀ sp, ¬ (spaceBase sp ≤ a.toNat ∧ a.toNat < spaceBase sp + 0x10000000)
  · refine busTarget_between ?_ p size
    have htext := hw .text
    have hrecord := hw .record
    have hout := hw .out
    simp only [spaceBase] at htext hrecord hout ⊢
    omega
  · obtain ⟨sp, hin⟩ := not_forall_not.1 hw
    rw [busTarget_window hin.1 hin.2]
    exact windowTarget_past (by have := h sp; omega) size

/-- The address of byte `i` of a space: what it reaches is what the space's window holds there. -/
theorem busTarget_windowAddr {p : Params} {sp : Space} {i : Nat} (h : i < p.spaceCap sp)
    (size : AccessSize) :
    busTarget p (BitVec.ofNat 32 (spaceBase sp + i)) size = windowTarget p sp size (spaceBase sp + i) := by
  have hcap := spaceCap_le p sp
  have hbase : spaceBase sp ≤ 0x30000000 := by cases sp <;> decide
  have haddr : (BitVec.ofNat 32 (spaceBase sp + i)).toNat = spaceBase sp + i := by
    rw [BitVec.toNat_ofNat]; omega
  rw [busTarget_window (sp := sp) (by omega) (by omega), haddr]

/-! ### What a transaction does -/

theorem State.hostRead_of_lockedOut {s : State} {a : Word} {size : AccessSize}
    (h : s.lockedOut (.read a size) = true) : s.hostRead a size = .busError := if_pos h

theorem State.hostRead_of_nothing {s : State} {a : Word} {size : AccessSize}
    (h : busTarget s.params a size = .nothing) : s.hostRead a size = .busError := by
  simp [State.hostRead, h]

theorem State.hostWrite_of_nothing {s : State} {a : Word} {size : AccessSize}
    (h : busTarget s.params a size = .nothing) (v : Word) : s.hostWrite a size v = (s, .busError) := by
  simp [State.hostWrite, h]

theorem State.hostRead_of_memory {s : State} (hb : s.busy = false) (hr : s.inReset = false) {a : Word}
    {size : AccessSize} {sp : Space} {i : Nat} (h : busTarget s.params a size = .memory sp i) :
    s.hostRead a size = .data ((s.memRead sp i).setWidth 32) := by
  simp [State.hostRead, State.lockedOut_of_idle hb hr, h]

theorem State.hostWrite_of_memory {s : State} (hb : s.busy = false) (hr : s.inReset = false) {a : Word}
    {size : AccessSize} {sp : Space} {i : Nat} (h : busTarget s.params a size = .memory sp i) (v : Word) :
    s.hostWrite a size v = (s.memWrite sp i [v.setWidth 8], .ok) := by
  simp [State.hostWrite, State.lockedOut_of_idle hb hr, h]

/-- A write that ends in BUSERR changes nothing (R67). -/
theorem State.hostWrite_eq_of_busError {s : State} {a : Word} {size : AccessSize} {v : Word}
    (h : (s.hostWrite a size v).2 = .busError) : s.hostWrite a size v = (s, .busError) := by
  rcases s.hostWrite_cases a size v with hw | ⟨-, off, -, hw⟩ | ⟨-, sp, i, -, hw⟩
  · exact hw
  · rw [hw] at h; cases h
  · rw [hw] at h; cases h

/-! ### What BUSY lets pass -/

/-- Under BUSY a read other than of ID and STATUS is locked out (R66). -/
theorem State.lockedOut_read_of_busy {s : State} (hb : s.busy = true) {a : Word} {size : AccessSize}
    (h : ¬ (size = .word ∧ (a = 0x000 ∨ a = 0x008))) : s.lockedOut (.read a size) = true := by
  cases size with
  | word =>
    have hother : a ≠ 0x000 ∧ a ≠ 0x008 := ⟨fun ha => h ⟨rfl, .inl ha⟩, fun ha => h ⟨rfl, .inr ha⟩⟩
    simpa [State.lockedOut, hb] using .inr hother
  | byte => simp [State.lockedOut, hb]
  | half => simp [State.lockedOut, hb]

/-- A word read at a register's address, where the core accepts it, answers the register's value. -/
theorem State.hostRead_regAddr_of_accepted {s : State} {r : Reg}
    (h : s.lockedOut (.read (regAddr r) .word) = false) :
    s.hostRead (regAddr r) .word = .data (s.regValue r) := by
  simp [State.hostRead, h, State.apertureRead]

/-! ### One byte written to a space -/

@[simp] theorem State.setMem_params (s : State) (sp : Space) (m : Memory) :
    (s.setMem sp m).params = s.params := by cases sp <;> rfl

@[simp] theorem State.setMem_busy (s : State) (sp : Space) (m : Memory) :
    (s.setMem sp m).busy = s.busy := by cases sp <;> rfl

@[simp] theorem State.setMem_inReset (s : State) (sp : Space) (m : Memory) :
    (s.setMem sp m).inReset = s.inReset := by cases sp <;> rfl

theorem State.memWrite_singleton (s : State) (sp : Space) (i : Nat) (b : Byte) :
    s.memWrite sp i [b] = s.setMem sp ((s.mem sp).write i b) := rfl

@[simp] theorem State.memRead_setMem_same (s : State) (sp : Space) (m : Memory) (i : Nat) :
    (s.setMem sp m).memRead sp i = m.read sp i := by
  rw [State.memRead, State.mem_setMem_same]

/-- The low byte of a word, zero-extended. -/
theorem setWidth_setWidth_eq_and (v : Word) : (v.setWidth 8).setWidth 32 = v &&& 0xFF := by
  refine BitVec.eq_of_toNat_eq ?_
  have hmask : (0xFF : Nat) = 2 ^ 8 - 1 := rfl
  simp only [BitVec.toNat_setWidth, BitVec.toNat_and, BitVec.reduceToNat, hmask, Nat.and_two_pow_sub_one_eq_mod]
  omega

end Sys2Proof.Machine
end

section
/-! SUPPORT. Fields of bytes and their digits, the bits of packed bytes, and what a well-framed record parses to
(spec/00_scope.md R11; spec/20_memory.md R70 to R73; spec/43_bit_packer_crc.md R184, R188). -/

namespace Sys2Proof.Machine

open Sys2Proof.Spec

/-- Byte `i` is the digit of weight 256^i of the number `from_le` makes of the bytes (R11). -/
theorem fromLe_digit (bs : List Byte) (i : Nat) :
    fromLe bs / 256 ^ i % 256 = (bs[i]?.getD 0).toNat := by
  induction bs generalizing i with
  | nil => simp [fromLe]
  | cons b bs ih =>
    have hb := b.isLt
    cases i with
    | zero => simp only [fromLe, List.getElem?_cons_zero, Option.getD_some]; omega
    | succ i =>
      have hdiv : fromLe (b :: bs) / 256 = fromLe bs := by rw [fromLe]; omega
      rw [Nat.pow_succ', ← Nat.div_div_eq_div_mul, hdiv, ih, List.getElem?_cons_succ]

/-- Byte `i` of a field is its digit at the place the byte order gives it (R71). -/
theorem fieldValue_digit (be : Bool) {bs : List Byte} {i : Nat} (h : i < bs.length) :
    fieldValue be bs / 256 ^ place be bs.length i % 256 = bs[i].toNat := by
  cases be
  · simpa [fieldValue, place, h] using fromLe_digit bs i
  · have hlt : bs.length - 1 - i < bs.length := by omega
    have hback : bs.length - 1 - (bs.length - 1 - i) = i := by omega
    simpa [fieldValue, fromBe, place, List.getElem?_reverse hlt, hback, h] using
      fromLe_digit bs.reverse (bs.length - 1 - i)

/-- A field of `n` bytes read into a word that has room for it: byte `i` of it stands at its place. -/
theorem extractLsb'_fieldValue (be : Bool) {w n i : Nat} {bs : List Byte} (hn : bs.length = n)
    (hw : 8 * n ≤ w) (hi : i < n) :
    (BitVec.ofNat w (fieldValue be bs)).extractLsb' (8 * place be n i) 8 = bs[i] := by
  subst hn
  have hlt : fieldValue be bs < 2 ^ w :=
    calc fieldValue be bs < 256 ^ bs.length := fieldValue_lt be bs
      _ = 2 ^ (8 * bs.length) := by rw [Nat.pow_mul]
      _ ≤ 2 ^ w := Nat.pow_le_pow_right (by decide) hw
  refine BitVec.eq_of_toNat_eq ?_
  rw [BitVec.extractLsb'_toNat, BitVec.toNat_ofNat, Nat.mod_eq_of_lt hlt, Nat.shiftRight_eq_div_pow,
    Nat.pow_mul]
  exact fieldValue_digit be hi

theorem fromLe_append_singleton (bs : List Byte) (b : Byte) :
    fromLe (bs ++ [b]) = fromLe bs + b.toNat * 256 ^ bs.length := by
  induction bs with
  | nil => simp [fromLe]
  | cons c bs ih => rw [List.cons_append, fromLe, ih, fromLe, List.length_cons]; ring

/-- The first byte of a field, at its place, and the field of the others, shifted up by it in the
little-endian order. -/
theorem fieldValue_cons (be : Bool) (b : Byte) (bs : List Byte) :
    fieldValue be (b :: bs) =
      b.toNat * 256 ^ place be (bs.length + 1) 0 + fieldValue be bs * (if be then 1 else 256) := by
  cases be
  · simp [fieldValue, fromLe, place, Nat.mul_comm]
  · simp [fieldValue, fromBe, fromLe_append_singleton, place, Nat.add_comm]

/-- A field's value is the sum of its bytes, each at its place (R11, R71). -/
theorem fieldValue_eq_sum (be : Bool) (bs : List Byte) :
    fieldValue be bs =
      ((List.range bs.length).map fun i => (bs[i]?.getD 0).toNat * 256 ^ place be bs.length i).sum := by
  induction bs with
  | nil => cases be <;> rfl
  | cons b bs ih =>
    have hplace (i : Nat) (hi : i < bs.length) : 256 ^ place be (bs.length + 1) (i + 1) =
        256 ^ place be bs.length i * (if be then 1 else 256) := by
      cases be
      · simp [place, Nat.pow_succ]
      · simp [place, Nat.sub_sub, Nat.add_comm]
    rw [fieldValue_cons, ih, ← List.sum_map_mul_right, List.length_cons, List.range_succ_eq_map,
      List.map_cons, List.sum_cons, List.map_map]
    congr 2
    refine List.map_congr_left fun i hi => ?_
    simp only [Function.comp_apply, List.getElem?_cons_succ, Nat.succ_eq_add_one,
      hplace i (List.mem_range.1 hi), Nat.mul_assoc]

theorem headerValue_eq_recordBitLength (s : State) : headerValue s = s.recordBitLength := by
  rw [headerValue, State.recordBitLength, fieldValue_eq_sum, Memory.readBytes_length]
  refine congrArg List.sum (List.map_congr_left fun i hi => ?_)
  rw [Memory.readBytes_getElem?, if_pos (List.mem_range.1 hi), Nat.zero_add, Option.getD_some]
  rfl

theorem byteBits_getElem? {b : Byte} {k : Nat} (h : k < 8) :
    (byteBits b)[k]? = some (b.getLsbD (7 - k)) := by
  simp [byteBits, h]

/-- Bit `k` of expanded bytes is bit `7 - k % 8` of byte `k / 8` (R184). -/
theorem flatMap_byteBits_getElem? (P : List Byte) (k : Nat) :
    (P.flatMap byteBits)[k]? = P[k / 8]?.map fun b => b.getLsbD (7 - k % 8) := by
  induction P generalizing k with
  | nil => simp
  | cons b P ih =>
    rw [List.flatMap_cons]
    by_cases hk : k < 8
    · rw [List.getElem?_append_left (by simpa using hk), byteBits_getElem? hk]
      simp [Nat.div_eq_of_lt hk, Nat.mod_eq_of_lt hk]
    · rw [List.getElem?_append_right (by simpa using hk), byteBits_length, ih]
      have hdiv : k / 8 = (k - 8) / 8 + 1 := by omega
      have hmod : (k - 8) % 8 = k % 8 := by omega
      rw [hdiv, hmod, List.getElem?_cons_succ]

theorem unpackBits_getElem? {P : List Byte} {L k : Nat} (h : k < L) :
    (unpackBits P L)[k]? = P[k / 8]?.map fun b => b.getLsbD (7 - k % 8) := by
  rw [unpackBits, List.getElem?_take_of_lt h, flatMap_byteBits_getElem?]

/-- A record whose length is 12 bytes more than its header's bits need parses; 12 ≤ REC_LEN follows (R73). -/
theorem parseRecord_of_framed {s : State} (h : s.recLen.toNat = 12 + ceilDiv s.recordBitLength 8) :
    s.parseRecord = some ⟨s.recordBitLength,
      unpackBits (s.recordPacked (ceilDiv s.recordBitLength 8)) s.recordBitLength,
      s.recordChecksum (ceilDiv s.recordBitLength 8)⟩ := by
  simp [State.parseRecord, h]

theorem parseRecord_of_not_framed {s : State} (h : s.recLen.toNat ≠ 12 + ceilDiv s.recordBitLength 8) :
    s.parseRecord = none := by
  simp [State.parseRecord, h]

theorem recordPacked_getElem? (s : State) {n k : Nat} (h : k < n) :
    (s.recordPacked n)[k]? = some (s.memRead .record (8 + k)) := by
  rw [State.recordPacked, Memory.readBytes_getElem?, if_pos h]
  rfl

/-- Byte `i` of the checksum field stands at its place in the stored checksum (R71, R188). -/
theorem recordChecksum_byte (s : State) (n : Nat) {i : Nat} (h : i < 4) :
    (s.recordChecksum n).extractLsb' (8 * place s.be 4 i) 8 = s.memRead .record (8 + n + i) := by
  have hbyte := Memory.readBytes_getElem? .record s.recMem (8 + n) 4 i
  rw [if_pos h] at hbyte
  rw [State.recordChecksum, extractLsb'_fieldValue s.be (by simp) (by decide) h]
  exact (List.getElem_eq_iff _).2 hbyte

/-- A packed record within REC_CAP has at most OUT_CAP bits (R7, R73). -/
theorem le_outCap_of_framed {p : Params} {L : Nat} (h : 12 + ceilDiv L 8 ≤ p.recCap) : L ≤ p.outCap := by
  have hbits := le_eight_mul_ceilDiv L
  simp only [Params.recCap, Params.outCap] at h ⊢
  omega

end Sys2Proof.Machine
end

section
/-! PROOFS. The statements on the host's transactions and on the record's framing (spec/20_memory.md). -/

open Sys2Proof Sys2Proof.Machine

namespace Sys2Proof.Proofs

/-- Settles O46: a read writes the response only, and the one write that answers BUSERR keeps the state. -/
theorem busErrorChangesNothing : Obligations.BusErrorChangesNothing := by
  unfold Obligations.BusErrorChangesNothing
  intro s t h
  cases t with
  | read a size =>
    rw [State.transact_read] at h ⊢
    exact congrArg (fun r => { s with response := r }) h
  | write a size v =>
    have hw := State.hostWrite_eq_of_busError (Option.some.inj h)
    rw [State.transact_write, hw]

/-- Settles O47: `State.lockedOut` lets the word reads of ID and STATUS pass and nothing else. -/
theorem busyLocksTheHostOut : Obligations.BusyLocksTheHostOut := by
  unfold Obligations.BusyLocksTheHostOut
  intro s hb hr
  refine ⟨?_, ?_, fun a size h => ?_, State.hostWrite_of_busy hb⟩
  · exact State.hostRead_regAddr_of_accepted (r := .id) (by simp [State.lockedOut, hr, regAddr, Reg.offset])
  · exact State.hostRead_regAddr_of_accepted (r := .status)
      (by simp [State.lockedOut, hr, regAddr, Reg.offset])
  · exact State.hostRead_of_lockedOut (State.lockedOut_read_of_busy hb h)

/-- Settles O50: within a space's capacity a byte access reaches that byte, any other access nothing. -/
theorem memoryWindowHoldsBytes : Obligations.MemoryWindowHoldsBytes := by
  unfold Obligations.MemoryWindowHoldsBytes
  intro s sp i v hb hr hi
  have hbyte : busTarget s.params (BitVec.ofNat 32 (spaceBase sp + i)) .byte = .memory sp i := by
    rw [busTarget_windowAddr hi, windowTarget_within hi]
  have hwrite := State.hostWrite_of_memory hb hr hbyte v
  rw [State.memWrite_singleton] at hwrite
  refine ⟨State.hostRead_of_memory hb hr hbyte, ⟨_, hwrite, ?_, fun j hj => ?_⟩, ?_, fun size hsize => ?_⟩
  · exact Memory.read_write_same ..
  · exact Memory.read_write_other hj ..
  · rw [hwrite, State.hostRead_of_memory (by simpa using hb) (by simpa using hr) (by simpa using hbyte),
      State.memRead_setMem_same, Memory.read_write_same, setWidth_setWidth_eq_and]
  · have hnothing := (busTarget_windowAddr hi size).trans (windowTarget_of_ne_byte hsize ..)
    exact ⟨State.hostRead_of_nothing hnothing, State.hostWrite_of_nothing hnothing v⟩

/-- Settles O51: such an access reaches nothing, in the aperture by its form and above it by its address. -/
theorem outsideTheMapIsBusError : Obligations.OutsideTheMapIsBusError := by
  unfold Obligations.OutsideTheMapIsBusError
  intro s a size v h
  have hnothing : busTarget s.params a size = .nothing := by
    rcases h with ⟨ha, hform⟩ | ⟨ha, hspaces⟩
    · exact busTarget_aperture_malformed ha hform s.params
    · exact busTarget_outside_spaces ha hspaces size
  exact ⟨State.hostRead_of_nothing hnothing, State.hostWrite_of_nothing hnothing v⟩

/-- Settles O32: the parse succeeds exactly when REC_LEN is 12 plus the bytes the header's bits need, and then
reads each bit and each checksum byte at its place in REC. -/
theorem framingCheckAndParse : Obligations.FramingCheckAndParse := by
  unfold Obligations.FramingCheckAndParse
  intro s hcap
  rw [headerValue_eq_recordBitLength]
  refine ⟨fun h => parseRecord_of_not_framed (by omega), fun _ hm => ?_⟩
  have hlen := le_eight_mul_ceilDiv s.recordBitLength
  refine ⟨_, _, parseRecord_of_framed hm, ?_, ?_, fun k hk => ?_, fun i hi => ?_⟩
  · exact unpackBits_length (by simpa [State.recordPacked] using hlen)
  · exact le_outCap_of_framed (p := s.params) (by omega)
  · rw [unpackBits_getElem? hk, recordPacked_getElem? s (by omega), Option.map_some]
  · exact recordChecksum_byte s _ hi

end Sys2Proof.Proofs
end

section
/-! SUPPORT. The decoder by the two fields of a word (spec/30_encoding.md R90, R93, R94): which operation codes
select a command, which word encodes it, which words are refused. -/

namespace Sys2Proof

/-! ### The two fields of a word -/

/-- A word is its OPC field followed by its Z field (R90). -/
theorem opcField_append_zField (w : Word) : opcField w ++ zField w = w := by
  have h := BitVec.extractLsb'_append_extractLsb'_eq_extractLsb' (x := w) (start₂ := 24) (len₂ := 8)
    (start₁ := 0) (len₁ := 24) rfl
  exact h.trans BitVec.extractLsb'_eq_self

theorem encodedWord (i : Instr) : Laws.EncodedWord.Statement i := by
  cases i with
  | nop => exact Laws.EncodedWord.nop
  | clear => exact Laws.EncodedWord.clear
  | count => exact Laws.EncodedWord.count
  | build => exact Laws.EncodedWord.build
  | emit => exact Laws.EncodedWord.emit
  | encode => exact Laws.EncodedWord.encode
  | decode => exact Laws.EncodedWord.decode
  | pack => exact Laws.EncodedWord.pack
  | unpack => exact Laws.EncodedWord.unpack
  | crc => exact Laws.EncodedWord.crc

/-- A word encodes a command exactly when Z is zero and OPC is the command's operation code (R90, R93). -/
theorem eq_encode_iff {w : Word} {i : Instr} : w = encode i ↔ zField w = 0 ∧ opcField w = opcodeOf i := by
  constructor
  · rintro rfl
    obtain ⟨hz, hopc, -⟩ := encodedWord i
    exact ⟨hz, hopc⟩
  · rintro ⟨hz, hopc⟩
    rw [← opcField_append_zField w, hz, hopc, encode]

/-! ### Operation codes -/

theorem instrOfOpcode_opcodeOf (i : Instr) : instrOfOpcode (opcodeOf i) = some i := by
  cases i <;> rfl

/-- The reserved operation codes are those above 0x09 (R94). -/
theorem instrOfOpcode_eq_none_iff {opc : BitVec 8} : instrOfOpcode opc = none ↔ 0x09 < opc.toNat := by
  unfold instrOfOpcode
  split <;> simp only [reduceCtorEq, false_iff, true_iff, imp_false] at * <;> omega

/-- The row of the opcode map with a command's code is the command's own (R93). -/
theorem instrOfOpcode_eq_some_iff {opc : BitVec 8} {i : Instr} :
    instrOfOpcode opc = some i ↔ opc = opcodeOf i := by
  constructor
  · intro h
    unfold instrOfOpcode at h
    split at h <;> cases h <;> exact BitVec.eq_of_toNat_eq ‹_›
  · rintro rfl
    exact instrOfOpcode_opcodeOf i

/-! ### The decoder -/

theorem decode_eq_ok_iff {w : Word} {i : Instr} : decode w = .ok i ↔ w = encode i := by
  rw [eq_encode_iff, ← instrOfOpcode_eq_some_iff, decode]
  by_cases hz : zField w = 0#24
  · cases hopc : instrOfOpcode (opcField w) <;> simp [hz]
  · simp [hz]

theorem decode_refuses_iff {w : Word} :
    (∃ r, decode w = .error r) ↔ zField w ≠ 0 ∨ 0x09 < (opcField w).toNat := by
  rw [← instrOfOpcode_eq_none_iff, decode]
  by_cases hz : zField w = 0#24
  · cases hopc : instrOfOpcode (opcField w) <;> simp [hz]
  · simp [hz]

/-- The decoder is total: it refuses the words that encode no command (R94). -/
theorem encode_or_refused (w : Word) : (∃ i, w = encode i) ∨ ∃ r, decode w = .error r := by
  cases hd : decode w with
  | ok i => exact .inl ⟨i, decode_eq_ok_iff.1 hd⟩
  | error r => exact .inr ⟨r, rfl⟩

end Sys2Proof
end

section
/-! PROOFS. The statements on the decoder and the engine's step (spec/30_encoding.md). -/

open Sys2Proof Sys2Proof.Machine

namespace Sys2Proof.Proofs

/-- When the engine moves on a word the decoder refuses, the step completes it as ILLEGAL_CMD. -/
theorem step_of_turn_engine_refused {s : State} {w : Word} {r : DecodeReject} (ht : s.turn = .engine w)
    (hd : decode w = .error r) : step s = .next s.illegalCommand := by
  simp only [step, ht, hd]

/-- Settles O3: decoding inverts encoding, and a word that encodes no command is refused. -/
theorem onlyTableWordsAreCommands : Obligations.OnlyTableWordsAreCommands := by
  unfold Obligations.OnlyTableWordsAreCommands
  refine ⟨by decide, fun w i => decode_eq_ok_iff, fun w hne => ?_⟩
  exact (encode_or_refused w).resolve_left fun ⟨i, hi⟩ => hne i hi

/-- Settles O4: the two clauses are the words `decode` refuses and the words it reads a command from. -/
theorem engineStepDecodesPendingWord : Obligations.EngineStepDecodesPendingWord := by
  unfold Obligations.EngineStepDecodesPendingWord
  intro s w hb hr hp hmove
  have hturn : s.turn = .engine w := State.turn_eq_engine.2 ⟨State.fetched_eq_some.2 ⟨hb, hr, hp⟩, hmove⟩
  refine ⟨fun hbad => ?_, fun hz hopc => ?_⟩
  · obtain ⟨r, hd⟩ := decode_refuses_iff.2 hbad
    exact step_of_turn_engine_refused hturn hd
  · have haccepted : ¬ ∃ r, decode w = .error r := by
      rw [decode_refuses_iff]
      exact not_or.2 ⟨not_not.2 hz, Nat.not_lt.2 hopc⟩
    obtain ⟨i, hi⟩ := (encode_or_refused w).resolve_right haccepted
    exact ⟨i, hi, step_of_turn_engine hturn (decode_eq_ok_iff.2 hi)⟩

end Sys2Proof.Proofs
end

section
/-! SUPPORT. The FrequencyCounter tallies occurrences (spec/40_frequency_counter.md R110). -/

namespace Sys2Proof.Machine

/-- One pass of the loop of R110 adds one to the counter of the symbol read and to no other. -/
theorem countSymbol_at (F : Table Word) (x c : Byte) :
    (countSymbol F x).at c = F.at c + if x = c then 1 else 0 := by
  by_cases h : x = c
  · subst h
    simp [countSymbol]
  · simp [countSymbol, h, Table.at_put_other (Ne.symm h)]

/-- The loop of R110 from any table: each counter grows by its symbol's occurrences, modulo 2^32. -/
theorem foldl_countSymbol_at (T : List Byte) (F : Table Word) (c : Byte) :
    (T.foldl countSymbol F).at c = F.at c + BitVec.ofNat 32 (T.count c) := by
  induction T generalizing F with
  | nil => simp
  | cons x xs ih =>
    rw [List.foldl_cons, ih, countSymbol_at, List.count_cons]
    by_cases h : x = c
    · simp [h, BitVec.ofNat_add, BitVec.add_assoc, BitVec.add_comm 1#32]
    · simp [h]

theorem freqCount_at (T : List Byte) (c : Byte) :
    (freqCount T).at c = BitVec.ofNat 32 (T.count c) := by
  rw [freqCount, foldl_countSymbol_at, zeroFreq_at, zero_add]

/-- No counter wraps over a text whose length a word holds. -/
theorem freqCount_at_toNat {T : List Byte} (hT : T.length < 2 ^ 32) (c : Byte) :
    ((freqCount T).at c).toNat = T.count c := by
  rw [freqCount_at, BitVec.toNat_ofNat, Nat.mod_eq_of_lt (List.count_le_length.trans_lt hT)]

/-- The model's run of reads is TEXT[0 .. TEXT_LEN-1] as the statements write it. -/
theorem State.textBytes_eq_text (s : State) : s.textBytes = Spec.text s := by
  refine List.ext_getElem? fun i => ?_
  rw [State.textBytes_getElem?, Spec.text, List.getElem?_map]
  by_cases h : i < s.textLen.toNat <;> simp [h]

end Sys2Proof.Machine
end

section
/-! PROOFS. The statement on COUNT (spec/40_frequency_counter.md). -/

open Sys2Proof Sys2Proof.Machine

namespace Sys2Proof.Proofs

theorem exec_count (s : State) : exec .count s = (countBody s).outcome := rfl

/-- Settles O15: COUNT's two ends exclude each other at TEXT_CAP, and no counter wraps since TEXT_LEN is a word. -/
theorem countTalliesText : Obligations.CountTalliesText := by
  unfold Obligations.CountTalliesText
  intro s
  rcases countBody_cases s with ⟨hlong, hbody⟩ | ⟨hfits, hbody⟩
  · refine ⟨fun _ => ?_, fun hfits => absurd hfits (Nat.not_le.2 hlong)⟩
    rw [exec_count, hbody, CmdEnd.outcome, CmdEnd.complete_raised]
  · refine ⟨fun hlong => absurd hfits (Nat.not_le.2 hlong), fun _ => ⟨freqCount s.textBytes, ?_, fun c => ?_⟩⟩
    · rw [exec_count, hbody, CmdEnd.outcome, CmdEnd.complete_finished]
    · have hlen : s.textBytes.length < 2 ^ 32 := s.textBytes_length.trans_lt s.textLen.isLt
      rw [freqCount_at_toNat hlen, s.textBytes_eq_text]

end Sys2Proof.Proofs
end

section
/-! SUPPORT. The min-priority structure and the merging loop of the CodeTreeBuilder
(spec/41_code_tree_builder.md R130 to R132). -/

namespace Sys2Proof.Machine

open Sys2Proof.Spec

/-! ### The min-priority structure (R130) -/

/-- The key (freq, index) of `x` is not above that of `y`, as the statements on Q write it. -/
def QueueEntry.keyLe (x y : QueueEntry) : Prop :=
  x.freq.toNat < y.freq.toNat ∨ (x.freq = y.freq ∧ x.index ≤ y.index)

theorem QueueEntry.keyLe_refl (x : QueueEntry) : x.keyLe x := .inr ⟨rfl, Nat.le_refl _⟩

theorem QueueEntry.keyLe_trans {x y z : QueueEntry} (h : x.keyLe y) (k : y.keyLe z) : x.keyLe z := by
  simp only [QueueEntry.keyLe, ← BitVec.toNat_inj] at *
  omega

theorem QueueEntry.before_eq_true {x y : QueueEntry} : y.before x = true ↔ ¬ x.keyLe y := by
  simp only [QueueEntry.before, QueueEntry.keyLe, ← BitVec.toNat_inj, Bool.or_eq_true, Bool.and_eq_true,
    beq_iff_eq, decide_eq_true_eq]
  omega

theorem QueueEntry.least_eq_left {x y : QueueEntry} (h : x.keyLe y) : x.least y = x :=
  if_neg fun hb => QueueEntry.before_eq_true.1 hb h

theorem QueueEntry.least_eq_right {x y : QueueEntry} (h : ¬ x.keyLe y) : x.least y = y :=
  if_pos (QueueEntry.before_eq_true.2 h)

theorem QueueEntry.keyLe_of_not_keyLe {x y : QueueEntry} (h : ¬ x.keyLe y) : y.keyLe x := by
  simp only [QueueEntry.keyLe, ← BitVec.toNat_inj] at *
  omega

theorem foldl_least_mem (q : List QueueEntry) (x : QueueEntry) : q.foldl QueueEntry.least x ∈ x :: q := by
  induction q generalizing x with
  | nil => exact List.mem_singleton_self x
  | cons y q ih =>
    rw [List.foldl_cons]
    by_cases h : x.keyLe y
    · rw [QueueEntry.least_eq_left h]
      exact List.cons_subset_cons x (List.subset_cons_self y q) (ih x)
    · rw [QueueEntry.least_eq_right h]
      exact List.mem_cons_of_mem x (ih y)

theorem foldl_least_keyLe (q : List QueueEntry) (x : QueueEntry) :
    ∀ y ∈ x :: q, (q.foldl QueueEntry.least x).keyLe y := by
  induction q generalizing x with
  | nil => simp [QueueEntry.keyLe_refl]
  | cons z q ih =>
    simp only [List.foldl_cons, List.forall_mem_cons] at ih ⊢
    by_cases h : x.keyLe z
    · obtain ⟨hx, hq⟩ := ih x
      rw [QueueEntry.least_eq_left h]
      exact ⟨hx, QueueEntry.keyLe_trans hx h, hq⟩
    · obtain ⟨hz, hq⟩ := ih z
      rw [QueueEntry.least_eq_right h]
      exact ⟨QueueEntry.keyLe_trans hz (QueueEntry.keyLe_of_not_keyLe h), hz, hq⟩

/-- `ExtractMin(Q)` on a non-empty Q takes out an entry with the smallest key (R130). -/
theorem extractMin_eq_some_of_ne_nil {q : List QueueEntry} (hq : q ≠ []) :
    ∃ e rest, extractMin q = some (e, rest) ∧ q.Perm (e :: rest) ∧ ∀ x ∈ rest, e.keyLe x := by
  cases q with
  | nil => exact absurd rfl hq
  | cons x q =>
    refine ⟨_, _, rfl, List.perm_cons_erase (foldl_least_mem q x), fun y hy => ?_⟩
    exact foldl_least_keyLe q x y (List.mem_of_mem_erase hy)

/-! ### The merging loop (R132) -/

/-- The node a pass makes from the entries it extracts, `a` first. -/
def joinedNode (a b : QueueEntry) : Node :=
  .internal (a.freq + b.freq) (BitVec.ofNat 9 a.index) (BitVec.ofNat 9 b.index)

theorem mergeNodes_of_length_lt (k : Nat) (ns : List Node) {q : List QueueEntry} (h : q.length < 2) :
    mergeNodes k ns q = ns := by
  cases k with
  | zero => rfl
  | succ k =>
    match q, h with
    | [], _ => rfl
    | [x], _ => simp [mergeNodes, extractMin]

/-- One pass: the two entries with the smallest keys are joined, and the new node is inserted under the next
arena index. -/
theorem mergeNodes_succ (k : Nat) (ns : List Node) {q : List QueueEntry} (h : 2 ≤ q.length) :
    ∃ a b rest, q.Perm (a :: b :: rest) ∧ (∀ x ∈ b :: rest, a.keyLe x) ∧ (∀ x ∈ rest, b.keyLe x) ∧
      mergeNodes (k + 1) ns q =
        mergeNodes k (ns ++ [joinedNode a b]) (rest ++ [⟨a.freq + b.freq, ns.length⟩]) := by
  obtain ⟨a, q1, ha, hperm, hmin⟩ := extractMin_eq_some_of_ne_nil (q := q) (by rintro rfl; simp at h)
  have hlen : q.length = q1.length + 1 := hperm.length_eq
  obtain ⟨b, rest, hb, hperm1, hmin1⟩ :=
    extractMin_eq_some_of_ne_nil (q := q1) (by rintro rfl; simp at hlen; omega)
  refine ⟨a, b, rest, hperm.trans (hperm1.cons a), fun x hx => ?_, hmin1, ?_⟩
  · exact hmin x (hperm1.mem_iff.2 hx)
  · simp only [mergeNodes, ha, hb, joinedNode]

/-- The loop keeps every relation of nodes and queue that a pass keeps, and ends with fewer than two entries when
it is given a pass for every entry but one. -/
theorem mergeNodes_invariant {P : List Node → List QueueEntry → Prop}
    (hpass : ∀ ns q a b rest, P ns q → q.Perm (a :: b :: rest) →
      P (ns ++ [joinedNode a b]) (rest ++ [⟨a.freq + b.freq, ns.length⟩]))
    {k : Nat} {ns : List Node} {q : List QueueEntry} (h : P ns q) (hk : q.length ≤ k + 1) :
    ∃ q', q'.length < 2 ∧ P (mergeNodes k ns q) q' := by
  induction k generalizing ns q with
  | zero => exact ⟨q, by omega, h⟩
  | succ k ih =>
    by_cases hq : q.length < 2
    · exact ⟨q, hq, by rwa [mergeNodes_of_length_lt _ _ hq]⟩
    · obtain ⟨a, b, rest, hperm, -, -, heq⟩ := mergeNodes_succ k ns (Nat.le_of_not_lt hq)
      have hlen : q.length = rest.length + 2 := hperm.length_eq
      rw [heq]
      exact ih (hpass ns q a b rest h hperm) (by simp; omega)

/-! ### The leaves (R131) -/

theorem codedSymbols_eq (F : Table Word) :
    codedSymbols F = (allSymbols.filter fun c => F.at c != 0).map fun c => (c, F.at c) := by
  rw [codedSymbols, Table.entries_eq_map, List.filter_map]
  rfl

theorem codedSymbols_length (F : Table Word) : (codedSymbols F).length = distinct F := by
  rw [codedSymbols_eq, List.length_map, distinct, List.countP_eq_length_filter]

theorem leafNodes_eq (F : Table Word) :
    leafNodes F = (allSymbols.filter fun c => F.at c != 0).map fun c => .leaf c (F.at c) := by
  rw [leafNodes, codedSymbols_eq, List.map_map]
  rfl

theorem leafNodes_length (F : Table Word) : (leafNodes F).length = distinct F := by
  rw [leafNodes, List.length_map, codedSymbols_length]

theorem distinct_le (F : Table Word) : distinct F ≤ 256 :=
  List.countP_le_length.trans_eq allSymbols_length

theorem distinct_ne_zero {F : Table Word} {c : Byte} (hc : F.at c ≠ 0) : distinct F ≠ 0 :=
  fun h => List.countP_eq_zero.1 h c (mem_allSymbols c) (bne_iff_ne.2 hc)

theorem mem_leafNodes {F : Table Word} {n : Node} :
    n ∈ leafNodes F ↔ ∃ c, F.at c ≠ 0 ∧ n = .leaf c (F.at c) := by
  simp [leafNodes_eq, eq_comm (a := n)]

theorem leaf_mem_leafNodes {F : Table Word} {c : Byte} {f : Word} :
    .leaf c f ∈ leafNodes F ↔ F.at c ≠ 0 ∧ f = F.at c := by
  simp [mem_leafNodes]

theorem leafNodes_ascending (F : Table Word) : (leafNodes F).Pairwise fun a b =>
    ∃ c d, a = .leaf c (F.at c) ∧ b = .leaf d (F.at d) ∧ c.toNat < d.toNat := by
  rw [leafNodes_eq, List.pairwise_map]
  exact (allSymbols_ascending.filter _).imp fun h => ⟨_, _, rfl, rfl, h⟩

theorem leafQueue_length (ns : List Node) : (leafQueue ns).length = ns.length := by simp [leafQueue]

theorem leafQueue_getElem? {ns : List Node} {i : Nat} {n : Node} (h : ns[i]? = some n) :
    (leafQueue ns)[i]? = some ⟨nodeFreq n, i⟩ := by
  simp [leafQueue, h]

/-- Merging only appends to the leaves. -/
theorem leafNodes_prefix_buildNodes (F : Table Word) : leafNodes F <+: buildNodes F := by
  obtain ⟨-, -, h⟩ := mergeNodes_invariant (P := fun ns _ => leafNodes F <+: ns)
    (fun ns q a b rest h _ => h.trans (List.prefix_append ns _)) (List.prefix_refl _)
    (k := (leafNodes F).length) (q := leafQueue (leafNodes F)) (by rw [leafQueue_length]; omega)
  exact h

end Sys2Proof.Machine
end

section
/-! PROOFS. The statements on Q, the leaves and a merge pass (spec/41_code_tree_builder.md R130 to R132). -/

open Sys2Proof Sys2Proof.Machine

namespace Sys2Proof.Proofs

/-- Settles O16: the entry taken is the fold of `least` over the queue. -/
theorem extractMinTakesSmallestKey : Obligations.ExtractMinTakesSmallestKey := by
  unfold Obligations.ExtractMinTakesSmallestKey
  exact ⟨fun F i n hn => leafQueue_getElem? hn, rfl, fun q hq => extractMin_eq_some_of_ne_nil hq⟩

/-- Settles O17: the leaves are the ascending list of symbols, filtered, and the loop only appends to them. -/
theorem leavesInAscendingSymbolOrder : Obligations.LeavesInAscendingSymbolOrder := by
  unfold Obligations.LeavesInAscendingSymbolOrder
  intro F
  refine ⟨leafNodes_length F, fun n hn => mem_leafNodes.1 hn, fun c hc => leaf_mem_leafNodes.2 ⟨hc, rfl⟩,
    leafNodes_ascending F, ?_⟩
  rw [← leafNodes_length F]
  exact (List.prefix_iff_eq_take.1 (leafNodes_prefix_buildNodes F)).symm

/-- Settles O18: a pass extracts twice, so the second entry is the smallest of what the first has left. -/
theorem mergePassJoinsTwoSmallest : Obligations.MergePassJoinsTwoSmallest := by
  unfold Obligations.MergePassJoinsTwoSmallest
  exact ⟨fun k ns q hq => mergeNodes_of_length_lt k ns hq, fun k ns q hq => mergeNodes_succ k ns hq⟩

end Sys2Proof.Proofs
end

section
/-! SUPPORT. The shape of the tree BUILD makes (spec/41_code_tree_builder.md R132): the relation of arena and queue
that every merge pass keeps. -/

namespace Sys2Proof.Machine

open Sys2Proof.Spec

@[simp] theorem childIndices_append (ns ms : List Node) :
    childIndices (ns ++ ms) = childIndices ns ++ childIndices ms := by
  simp [childIndices]

@[simp] theorem childIndices_joinedNode {a b : QueueEntry} (ha : a.index < 512) (hb : b.index < 512) :
    childIndices [joinedNode a b] = [a.index, b.index] := by
  simp [childIndices, joinedNode, Nat.mod_eq_of_lt ha, Nat.mod_eq_of_lt hb]

/-- A child index occurs in some node. -/
theorem exists_parent {ns : List Node} {v : Nat} (h : v ∈ childIndices ns) :
    ∃ (i : Nat) (f : Word) (l r : BitVec 9), ns[i]? = some (.internal f l r) ∧ (v = l.toNat ∨ v = r.toNat) := by
  obtain ⟨n, hn, hv⟩ := List.mem_flatMap.1 h
  obtain ⟨i, hi⟩ := List.getElem?_of_mem hn
  cases n with
  | leaf c f => simp at hv
  | internal f l r => exact ⟨i, f, l, r, hi, by simpa using hv⟩

theorem childIndices_leafNodes (F : Table Word) : childIndices (leafNodes F) = [] := by
  refine List.flatMap_eq_nil_iff.2 fun n hn => ?_
  obtain ⟨c, -, rfl⟩ := mem_leafNodes.1 hn
  rfl

/-- Every child lies below its parent in the arena. -/
def ChildrenBelow (ns : List Node) : Prop :=
  ∀ (i : Nat) (f : Word) (l r : BitVec 9), ns[i]? = some (.internal f l r) → l.toNat < i ∧ r.toNat < i

/-- What holds of the nodes and the queue between two passes over the leaves `ls`: the leaves are the ones inserted
first, each pass has made one node for two entries, each node is the child of one node or waits in the queue, and
children lie below their parents. -/
structure MergeInv (ls ns : List Node) (q : List QueueEntry) : Prop where
  leaves : ns.filter nodeIsLeaf = ls
  size : ns.length + q.length = 2 * ls.length
  parents : (childIndices ns ++ q.map QueueEntry.index).Perm (List.range ns.length)
  below : ChildrenBelow ns

theorem MergeInv.index_lt {ls ns : List Node} {q : List QueueEntry} (h : MergeInv ls ns q) {e : QueueEntry}
    (he : e ∈ q) : e.index < ns.length :=
  List.mem_range.1 (h.parents.mem_iff.1 (List.mem_append_right _ (List.mem_map_of_mem he)))

theorem mergeInv_leaves (F : Table Word) : MergeInv (leafNodes F) (leafNodes F) (leafQueue (leafNodes F)) where
  leaves := List.filter_eq_self.2 fun n hn => by
    obtain ⟨c, -, rfl⟩ := mem_leafNodes.1 hn
    rfl
  size := by rw [leafQueue_length]; omega
  parents := by
    rw [childIndices_leafNodes, List.nil_append]
    refine List.Perm.of_eq (List.ext_getElem (by simp [leafQueue]) fun i _ _ => by simp [leafQueue])
  below := fun i f l r hi => by
    obtain ⟨c, -, hc⟩ := mem_leafNodes.1 (List.mem_of_getElem? hi)
    cases hc

theorem ChildrenBelow.append_joinedNode {ns : List Node} (h : ChildrenBelow ns) {a b : QueueEntry}
    (ha : a.index < ns.length) (hb : b.index < ns.length) : ChildrenBelow (ns ++ [joinedNode a b]) := by
  intro i f l r hi
  obtain hlt | hge := Nat.lt_or_ge i ns.length
  · exact h i f l r (by rwa [List.getElem?_append_left hlt] at hi)
  · rw [List.getElem?_append_right hge, List.getElem?_singleton] at hi
    obtain ⟨-, hn⟩ := Option.ite_none_right_eq_some.1 hi
    cases hn
    rw [BitVec.toNat_ofNat, BitVec.toNat_ofNat]
    exact ⟨by have := Nat.mod_le a.index (2 ^ 9); omega, by have := Nat.mod_le b.index (2 ^ 9); omega⟩

theorem MergeInv.pass {ls ns : List Node} {q rest : List QueueEntry} {a b : QueueEntry}
    (hls : ls.length ≤ 256) (h : MergeInv ls ns q) (hperm : q.Perm (a :: b :: rest)) :
    MergeInv ls (ns ++ [joinedNode a b]) (rest ++ [⟨a.freq + b.freq, ns.length⟩]) := by
  have hq : q.length = rest.length + 2 := hperm.length_eq
  have hsize := h.size
  have ha : a.index < ns.length := h.index_lt (hperm.mem_iff.2 (by simp))
  have hb : b.index < ns.length := h.index_lt (hperm.mem_iff.2 (by simp))
  refine ⟨?_, ?_, ?_, h.below.append_joinedNode ha hb⟩
  · rw [List.filter_append, h.leaves]
    simp [joinedNode, nodeIsLeaf]
  · simp
    omega
  · have hold : (childIndices ns ++ (a.index :: b.index :: rest.map QueueEntry.index)).Perm
        (List.range ns.length) := ((hperm.map QueueEntry.index).symm.append_left _).trans h.parents
    rw [childIndices_append, childIndices_joinedNode (by omega) (by omega), List.length_append,
      List.length_singleton, List.range_succ, List.map_append, ← List.append_assoc]
    exact List.Perm.append_right _ (by simpa using hold)

/-- The last node has no parent above it, so it waits in the queue. -/
theorem MergeInv.last_queued {ls ns : List Node} {q : List QueueEntry} (h : MergeInv ls ns q) (hns : ns ≠ []) :
    ∃ e ∈ q, e.index = ns.length - 1 := by
  have hpos : 0 < ns.length := List.length_pos_of_ne_nil hns
  have hmem : ns.length - 1 ∈ childIndices ns ++ q.map QueueEntry.index :=
    h.parents.mem_iff.2 (List.mem_range.2 (by omega))
  obtain hchild | hqueue := List.mem_append.1 hmem
  · obtain ⟨i, f, l, r, hi, hc⟩ := exists_parent hchild
    have hlt : i < ns.length := (List.getElem?_eq_some_iff.1 hi).1
    have hbelow := h.below i f l r hi
    omega
  · exact List.mem_map.1 hqueue

/-- The loop over the leaves ends with one entry, the last node made. -/
theorem buildNodes_mergeInv {F : Table Word} (hF : distinct F ≠ 0) :
    ∃ e : QueueEntry, e.index = (buildNodes F).length - 1 ∧ MergeInv (leafNodes F) (buildNodes F) [e] := by
  obtain ⟨q, hq, h⟩ := mergeNodes_invariant (P := MergeInv (leafNodes F)) (k := (leafNodes F).length)
    (fun ns q a b rest h hperm => h.pass ((leafNodes_length F).trans_le (distinct_le F)) hperm)
    (mergeInv_leaves F) (by rw [leafQueue_length]; omega)
  have hne : buildNodes F ≠ [] := fun hnil => by
    have hleaves := leafNodes_prefix_buildNodes F
    rw [hnil, List.prefix_nil] at hleaves
    exact hF (by rw [← leafNodes_length, hleaves, List.length_nil])
  obtain ⟨e, he, hroot⟩ := h.last_queued hne
  obtain ⟨x, rfl⟩ : ∃ x, q = [x] :=
    List.length_eq_one_iff.1 (by have := List.length_pos_of_mem he; omega)
  cases List.mem_singleton.1 he
  exact ⟨e, hroot, h⟩

theorem buildNodes_length {F : Table Word} (hF : distinct F ≠ 0) :
    (buildNodes F).length = 2 * distinct F - 1 := by
  obtain ⟨e, -, h⟩ := buildNodes_mergeInv hF
  have hsize := h.size
  rw [leafNodes_length, List.length_singleton] at hsize
  omega

/-- Every node but the root, the last one, is a child exactly once. -/
theorem childIndices_buildNodes_perm {F : Table Word} (hF : distinct F ≠ 0) :
    (childIndices (buildNodes F)).Perm (List.range (2 * distinct F - 2)) := by
  obtain ⟨e, hroot, h⟩ := buildNodes_mergeInv hF
  have hlen := buildNodes_length hF
  have hparents := h.parents
  rw [List.map_singleton, hroot, hlen, show 2 * distinct F - 1 = 2 * distinct F - 2 + 1 by omega,
    List.range_succ] at hparents
  exact (List.perm_append_right_iff _).1 hparents

theorem buildNodes_childrenBelow {F : Table Word} (hF : distinct F ≠ 0) : ChildrenBelow (buildNodes F) := by
  obtain ⟨e, -, h⟩ := buildNodes_mergeInv hF
  exact h.below

theorem leaf_mem_buildNodes {F : Table Word} (hF : distinct F ≠ 0) {c : Byte} {f : Word} :
    .leaf c f ∈ buildNodes F ↔ F.at c ≠ 0 ∧ f = F.at c := by
  obtain ⟨e, -, h⟩ := buildNodes_mergeInv hF
  rw [← leaf_mem_leafNodes, ← h.leaves, List.mem_filter]
  exact (and_iff_left rfl).symm

end Sys2Proof.Machine
end

section
/-! SUPPORT. The code generator lists root-to-leaf paths, and every leaf is listed
(spec/41_code_tree_builder.md R135, R136). -/

namespace Sys2Proof.Machine

open Sys2Proof.Spec

/-! ### Paths -/

theorem descend_append (node : Nat → Node) (p p' : Bitstring) (v : Nat) :
    descend node (p ++ p') v = (descend node p v).bind (descend node p') := by
  induction p generalizing v with
  | nil => rfl
  | cons b p ih =>
    rw [List.cons_append]
    cases hv : node v with
    | leaf c f => simp [descend, hv]
    | internal f l r => simp [descend, hv, ih]

theorem descend_cons_of_internal {node : Nat → Node} {v : Nat} {f : Word} {l r : BitVec 9}
    (h : node v = .internal f l r) (b : Bool) (p : Bitstring) :
    descend node (b :: p) v = descend node p (if b then r else l).toNat := by
  cases b <;> simp [descend, h]

theorem descend_cons_of_leaf {node : Nat → Node} {v : Nat} {c : Byte} {f : Word} (h : node v = .leaf c f)
    (b : Bool) (p : Bitstring) : descend node (b :: p) v = none := by
  simp [descend, h]

/-- The path `p` leads from the node `v` to the leaf of the symbol `c` with the frequency `f`. -/
def LeadsToLeaf (node : Nat → Node) (v : Nat) (p : Bitstring) (c : Byte) (f : Word) : Prop :=
  ∃ i, descend node p v = some i ∧ node i = .leaf c f

theorem leadsToLeaf_of_leaf {node : Nat → Node} {v : Nat} {p : Bitstring} {c d : Byte} {f g : Word}
    (h : node v = .leaf d g) : LeadsToLeaf node v p c f ↔ p = [] ∧ c = d ∧ f = g := by
  cases p with
  | nil => simp [LeadsToLeaf, descend, h, eq_comm]
  | cons b p => simp [LeadsToLeaf, descend_cons_of_leaf h]

theorem not_leadsToLeaf_nil_of_internal {node : Nat → Node} {v : Nat} {c : Byte} {f g : Word} {l r : BitVec 9}
    (h : node v = .internal g l r) : ¬ LeadsToLeaf node v [] c f := by
  simp [LeadsToLeaf, descend, h]

theorem leadsToLeaf_cons_of_internal {node : Nat → Node} {v : Nat} {c : Byte} {f g : Word} {l r : BitVec 9}
    {b : Bool} {p : Bitstring} (h : node v = .internal g l r) :
    LeadsToLeaf node v (b :: p) c f ↔ LeadsToLeaf node (if b then r else l).toNat p c f := by
  simp [LeadsToLeaf, descend_cons_of_internal h]

/-- The arena `node` holds the nodes `ns` from index 0 on. -/
def ArenaHolds (node : Nat → Node) (ns : List Node) : Prop :=
  ∀ (i : Nat) (n : Node), ns[i]? = some n → node i = n

theorem ArenaHolds.getElem? {node : Nat → Node} {ns : List Node} (h : ArenaHolds node ns) {i : Nat}
    (hi : i < ns.length) : ns[i]? = some (node i) := by
  rw [h i _ (List.getElem?_eq_getElem hi), List.getElem?_eq_getElem hi]

/-- `CodeOf(v, p)` lists, for each leaf below `v`, its symbol with the path to it put after `p` (R135). -/
theorem mem_codesBelow {node : Nat → Node} {ns : List Node} (hnode : ArenaHolds node ns)
    (hbelow : ChildrenBelow ns) {k v : Nat} (hk : v < k) (hv : v < ns.length) {c : Byte} {p pre : Bitstring} :
    (c, p) ∈ codesBelow ns k v pre ↔ ∃ p' f, p = pre ++ p' ∧ LeadsToLeaf node v p' c f := by
  induction k generalizing v pre with
  | zero => omega
  | succ k ih =>
    have hget : ns[v]? = some (node v) := hnode.getElem? hv
    cases hat : node v with
    | leaf d g =>
      rw [hat] at hget
      simp [codesBelow, hget, leadsToLeaf_of_leaf hat, and_comm]
    | internal g l r =>
      rw [hat] at hget
      obtain ⟨hl, hr⟩ := hbelow v g l r hget
      have ihl (pre : Bitstring) := ih (v := l.toNat) (pre := pre) (by omega) (by omega)
      have ihr (pre : Bitstring) := ih (v := r.toNat) (pre := pre) (by omega) (by omega)
      simp only [codesBelow, hget, List.mem_append, ihl, ihr]
      constructor
      · rintro (⟨p', f, rfl, h⟩ | ⟨p', f, rfl, h⟩)
        · exact ⟨false :: p', f, by simp, (leadsToLeaf_cons_of_internal hat).2 h⟩
        · exact ⟨true :: p', f, by simp, (leadsToLeaf_cons_of_internal hat).2 h⟩
      · rintro ⟨_ | ⟨_ | _, p'⟩, f, rfl, h⟩
        · exact absurd h (not_leadsToLeaf_nil_of_internal hat)
        · exact .inl ⟨p', f, by simp, (leadsToLeaf_cons_of_internal hat).1 h⟩
        · exact .inr ⟨p', f, by simp, (leadsToLeaf_cons_of_internal hat).1 h⟩

theorem ChildrenBelow.descend_le {node : Nat → Node} {ns : List Node} (hbelow : ChildrenBelow ns)
    (hnode : ArenaHolds node ns) {p : Bitstring} {v i : Nat} (hv : v < ns.length)
    (h : descend node p v = some i) : i ≤ v := by
  induction p generalizing v with
  | nil => exact (Option.some_injective _ h).ge
  | cons b p ih =>
    have hget : ns[v]? = some (node v) := hnode.getElem? hv
    cases hat : node v with
    | leaf c f => simp [descend_cons_of_leaf hat] at h
    | internal f l r =>
      rw [descend_cons_of_internal hat] at h
      have hchild : (if b then r else l).toNat < v := by
        obtain ⟨hl, hr⟩ := hbelow v f l r (hget.trans (congrArg some hat))
        cases b <;> assumption
      exact (ih (hchild.trans hv) h).trans hchild.le

/-! ### The built tree's paths -/

/-- The root of a tree of two or more symbols is no leaf. -/
theorem buildNodes_root_internal {F : Table Word} (hK : 2 ≤ distinct F) :
    ∃ (f : Word) (l r : BitVec 9), (buildNodes F)[2 * distinct F - 2]? = some (.internal f l r) := by
  have hchild : 2 * distinct F - 3 ∈ childIndices (buildNodes F) :=
    (childIndices_buildNodes_perm (by omega)).mem_iff.2 (List.mem_range.2 (by omega))
  obtain ⟨i, f, l, r, hi, hc⟩ := exists_parent hchild
  have hbelow := buildNodes_childrenBelow (by omega) i f l r hi
  have hlt := (List.getElem?_eq_some_iff.1 hi).1
  rw [buildNodes_length (by omega)] at hlt
  obtain rfl : i = 2 * distinct F - 2 := by omega
  exact ⟨f, l, r, hi⟩

/-- Every node is on a path from the root: climb to the root from parent to parent. -/
theorem exists_path {F : Table Word} (hF : distinct F ≠ 0) {node : Nat → Node}
    (hnode : ArenaHolds node (buildNodes F)) {v : Nat} (hv : v ≤ 2 * distinct F - 2) :
    ∃ p, descend node p (2 * distinct F - 2) = some v := by
  obtain rfl | hlt := hv.eq_or_lt
  · exact ⟨[], rfl⟩
  · obtain ⟨i, f, l, r, hi, hchild⟩ :=
      exists_parent ((childIndices_buildNodes_perm hF).mem_iff.2 (List.mem_range.2 hlt))
    have hbelow := buildNodes_childrenBelow hF i f l r hi
    have hilt := (List.getElem?_eq_some_iff.1 hi).1
    rw [buildNodes_length hF] at hilt
    obtain ⟨p, hp⟩ := exists_path hF hnode (v := i) (by omega)
    have hstep (b : Bool) : descend node (p ++ [b]) (2 * distinct F - 2) = some (if b then r else l).toNat := by
      rw [descend_append, hp, Option.bind_some, descend_cons_of_internal (hnode i _ hi), descend]
    obtain rfl | rfl := hchild
    · exact ⟨_, hstep false⟩
    · exact ⟨_, hstep true⟩
termination_by 2 * distinct F - v
decreasing_by omega

theorem exists_leadsToLeaf {F : Table Word} {node : Nat → Node} (hnode : ArenaHolds node (buildNodes F))
    {c : Byte} (hc : F.at c ≠ 0) : ∃ p, LeadsToLeaf node (2 * distinct F - 2) p c (F.at c) := by
  have hF : distinct F ≠ 0 := distinct_ne_zero hc
  obtain ⟨i, hi⟩ := List.getElem?_of_mem ((leaf_mem_buildNodes hF).2 ⟨hc, rfl⟩)
  have hlt := (List.getElem?_eq_some_iff.1 hi).1
  rw [buildNodes_length hF] at hlt
  obtain ⟨p, hp⟩ := exists_path hF hnode (v := i) (by omega)
  exact ⟨p, i, hp, hnode i _ hi⟩

/-- A leaf below the root carries its symbol's frequency. -/
theorem freq_of_leadsToLeaf {F : Table Word} (hF : distinct F ≠ 0) {node : Nat → Node}
    (hnode : ArenaHolds node (buildNodes F)) {p : Bitstring} {c : Byte} {f : Word}
    (h : LeadsToLeaf node (2 * distinct F - 2) p c f) : f = F.at c := by
  obtain ⟨i, hi, hleaf⟩ := h
  have hlen := buildNodes_length hF
  have hle := (buildNodes_childrenBelow hF).descend_le hnode (by omega) hi
  have hget := hnode.getElem? (i := i) (by omega)
  exact ((leaf_mem_buildNodes hF).1 (hleaf ▸ List.mem_of_getElem? hget)).2

/-! ### The code table -/

theorem codeTable_concat (cs : List (Byte × Bitstring)) (x : Byte × Bitstring) :
    codeTable (cs ++ [x]) = (codeTable cs).put x.1 x.2 := by
  simp [codeTable]

/-- The code of a listed symbol is one that is listed for it; every other symbol has none. -/
theorem codeTable_at_cases (cs : List (Byte × Bitstring)) (c : Byte) :
    (c, (codeTable cs).at c) ∈ cs ∨ ((∀ p, (c, p) ∉ cs) ∧ (codeTable cs).at c = []) := by
  induction cs using List.reverseRecOn with
  | nil => exact .inr ⟨fun p => List.not_mem_nil, noCodes_at c⟩
  | append_singleton cs x ih =>
    rw [codeTable_concat]
    by_cases hc : c = x.1
    · subst hc
      simp
    · rw [Table.at_put_other hc]
      obtain h | ⟨hnone, hnil⟩ := ih
      · exact .inl (List.mem_append_left _ h)
      · refine .inr ⟨fun p hp => ?_, hnil⟩
        obtain h | h := List.mem_append.1 hp
        · exact hnone p h
        · exact hc (congrArg Prod.fst (List.mem_singleton.1 h))

theorem codeTable_at_mem {cs : List (Byte × Bitstring)} {c : Byte} {p : Bitstring} (h : (c, p) ∈ cs) :
    (c, (codeTable cs).at c) ∈ cs :=
  (codeTable_at_cases cs c).resolve_right fun ⟨hnone, _⟩ => hnone p h

theorem codeTable_at_eq_nil {cs : List (Byte × Bitstring)} {c : Byte} (h : ∀ p, (c, p) ∉ cs) :
    (codeTable cs).at c = [] :=
  ((codeTable_at_cases cs c).resolve_left (h _)).2

/-! ### The codes of the built tree -/

theorem treeCodes_of_length_ne_one {ns : List Node} (h : ns.length ≠ 1) :
    treeCodes ns = codesBelow ns ns.length (ns.length - 1) [] := by
  unfold treeCodes
  split
  · exact absurd rfl h
  · rfl

theorem leaf_mem_of_mem_codesBelow {ns : List Node} {k v : Nat} {pre p : Bitstring} {c : Byte}
    (h : (c, p) ∈ codesBelow ns k v pre) : ∃ f, .leaf c f ∈ ns := by
  induction k generalizing v pre with
  | zero => cases h
  | succ k ih =>
    cases hv : ns[v]? with
    | none => simp [codesBelow, hv] at h
    | some n =>
      cases n with
      | leaf d f =>
        obtain ⟨rfl, -⟩ : c = d ∧ p = pre := by simpa [codesBelow, hv] using h
        exact ⟨f, List.mem_of_getElem? hv⟩
      | internal f l r =>
        simp only [codesBelow, hv, List.mem_append] at h
        exact h.elim ih ih

theorem leaf_mem_of_mem_treeCodes {ns : List Node} {p : Bitstring} {c : Byte} (h : (c, p) ∈ treeCodes ns) :
    ∃ f, .leaf c f ∈ ns := by
  unfold treeCodes at h
  split at h
  · obtain ⟨rfl, -⟩ := Prod.mk.inj (List.mem_singleton.1 h)
    exact ⟨_, List.mem_singleton_self _⟩
  · exact leaf_mem_of_mem_codesBelow h

theorem codesOf_at_eq_nil {F : Table Word} (hF : distinct F ≠ 0) {c : Byte} (hc : F.at c = 0) :
    (codesOf F).at c = [] := by
  refine codeTable_at_eq_nil fun p hp => ?_
  obtain ⟨f, hf⟩ := leaf_mem_of_mem_treeCodes hp
  exact ((leaf_mem_buildNodes hF).1 hf).1 hc

theorem mem_treeCodes {F : Table Word} (hK : 2 ≤ distinct F) {node : Nat → Node}
    (hnode : ArenaHolds node (buildNodes F)) {c : Byte} {p : Bitstring} :
    (c, p) ∈ treeCodes (buildNodes F) ↔ ∃ f, LeadsToLeaf node (2 * distinct F - 2) p c f := by
  have hlen := buildNodes_length (F := F) (by omega)
  rw [treeCodes_of_length_ne_one (by omega),
    mem_codesBelow hnode (buildNodes_childrenBelow (by omega)) (by omega) (by omega), hlen]
  simp [Nat.sub_sub]

/-- The code of a symbol that occurs leads from the root to the symbol's leaf. -/
theorem codesOf_leadsToLeaf {F : Table Word} (hK : 2 ≤ distinct F) {node : Nat → Node}
    (hnode : ArenaHolds node (buildNodes F)) {c : Byte} (hc : F.at c ≠ 0) :
    LeadsToLeaf node (2 * distinct F - 2) ((codesOf F).at c) c (F.at c) := by
  obtain ⟨p, hp⟩ := exists_leadsToLeaf hnode hc
  obtain ⟨f, hf⟩ := (mem_treeCodes hK hnode).1 (codeTable_at_mem ((mem_treeCodes hK hnode).2 ⟨_, hp⟩))
  exact freq_of_leadsToLeaf (by omega) hnode hf ▸ hf

/-! ### The only symbol of a table (R136) -/

theorem exists_only_symbol {F : Table Word} (hK : distinct F = 1) :
    ∃ c, F.at c ≠ 0 ∧ ∀ d, d ≠ c → F.at d = 0 := by
  rw [← leafNodes_length] at hK
  obtain ⟨n, hn⟩ := List.length_eq_one_iff.1 hK
  obtain ⟨c, hc, rfl⟩ := mem_leafNodes.1 (hn ▸ List.mem_singleton_self n)
  refine ⟨c, hc, fun d hd => by_contra fun hdF => hd ?_⟩
  have hmem := leaf_mem_leafNodes.2 ⟨hdF, rfl⟩
  rw [hn, List.mem_singleton] at hmem
  exact (Node.leaf.inj hmem).1

theorem leafNodes_of_only_symbol {F : Table Word} {c : Byte} (hc : F.at c ≠ 0)
    (hother : ∀ d, d ≠ c → F.at d = 0) : leafNodes F = [.leaf c (F.at c)] := by
  have hperm : (allSymbols.filter fun d => F.at d != 0).Perm [c] := by
    refine (List.perm_ext_iff_of_nodup (allSymbols_nodup.filter _) (List.nodup_singleton c)).2 fun d => ?_
    simp only [List.mem_filter, mem_allSymbols, true_and, bne_iff_ne, List.mem_singleton]
    exact ⟨fun hd => by_contra fun hne => hd (hother d hne), fun hd => hd ▸ hc⟩
  rw [leafNodes_eq, List.perm_singleton.1 hperm, List.map_singleton]

theorem buildNodes_of_only_symbol {F : Table Word} {c : Byte} (hc : F.at c ≠ 0)
    (hother : ∀ d, d ≠ c → F.at d = 0) : buildNodes F = [.leaf c (F.at c)] := by
  rw [buildNodes, leafNodes_of_only_symbol hc hother]
  exact mergeNodes_of_length_lt _ _ (by simp [leafQueue])

theorem codesOf_only_symbol {F : Table Word} {c : Byte} (hc : F.at c ≠ 0)
    (hother : ∀ d, d ≠ c → F.at d = 0) : (codesOf F).at c = [false] := by
  rw [codesOf, buildNodes_of_only_symbol hc hother]
  exact Table.at_put_same noCodes c [false]

end Sys2Proof.Machine
end

section
/-! SUPPORT. The walk over codewords emits their symbols (spec/44_decoder.md R210, R211). -/

namespace Sys2Proof.Machine

open Sys2Proof.Spec

/-- A walk over a bit and a path to a leaf emits the leaf's symbol and is back at the root. -/
theorem walkFrom_cons_append {node : Nat → Node} {root rl rr cur l r : BitVec 9} {b : Bool} {p : Bitstring}
    {c : Byte} {f : Word} (h : LeadsToLeaf node (if b then r else l).toNat p c f) (B : Bitstring)
    (start k : Nat) :
    walkFrom node root rl rr (b :: p ++ B) cur l r start k =
      (walkFrom node root rl rr B root rl rr (k + (p.length + 1)) (k + (p.length + 1))).emit c := by
  induction p generalizing b cur l r k with
  | nil =>
    obtain ⟨i, hi, hleaf⟩ := h
    obtain rfl : _ = i := Option.some_injective _ hi
    simp [walkFrom, hleaf]
  | cons b' p ih =>
    cases hat : node (if b then r else l).toNat with
    | leaf d g =>
      obtain ⟨hnil, -⟩ := (leadsToLeaf_of_leaf hat).1 h
      cases hnil
    | internal g l' r' =>
      have hrest := ih (cur := if b then r else l) ((leadsToLeaf_cons_of_internal hat).1 h) (k + 1)
      rw [List.cons_append, List.cons_append, walkFrom]
      simp only [hat]
      rw [← List.cons_append, hrest, List.length_cons, Nat.add_assoc, Nat.add_comm 1]

theorem walkFrom_codeword {node : Nat → Node} {root rl rr : BitVec 9} {g : Word}
    (hroot : node root.toNat = .internal g rl rr) {p : Bitstring} {c : Byte} {f : Word}
    (h : LeadsToLeaf node root.toNat p c f) (B : Bitstring) (k : Nat) :
    walkFrom node root rl rr (p ++ B) root rl rr k k =
      (walkFrom node root rl rr B root rl rr (k + p.length) (k + p.length)).emit c := by
  cases p with
  | nil => exact absurd h (not_leadsToLeaf_nil_of_internal hroot)
  | cons b p => exact walkFrom_cons_append ((leadsToLeaf_cons_of_internal hroot).1 h) B k k

@[simp] theorem foldr_emit (T : List Byte) (w : WalkResult) :
    T.foldr WalkResult.emit w = ⟨T ++ w.symbols, w.failure⟩ := by
  induction T with
  | nil => rfl
  | cons c T ih => rw [List.foldr_cons, ih]; rfl

theorem concatCodes_cons (codes : Table Bitstring) (c : Byte) (T : List Byte) :
    concatCodes codes (c :: T) = codes.at c ++ concatCodes codes T := List.flatMap_cons

/-- From an internal root, the walk over the codes of a text emits the text and goes on at the root. -/
theorem walkFrom_concatCodes {node : Nat → Node} {root rl rr : BitVec 9} {g : Word}
    (hroot : node root.toNat = .internal g rl rr) {codes : Table Bitstring} {T : List Byte}
    (hT : ∀ c ∈ T, ∃ f, LeadsToLeaf node root.toNat (codes.at c) c f) (B : Bitstring) (k : Nat) :
    walkFrom node root rl rr (concatCodes codes T ++ B) root rl rr k k =
      T.foldr WalkResult.emit (walkFrom node root rl rr B root rl rr
        (k + (concatCodes codes T).length) (k + (concatCodes codes T).length)) := by
  induction T generalizing k with
  | nil => rfl
  | cons c T ih =>
    obtain ⟨⟨f, hc⟩, hT⟩ := List.forall_mem_cons.1 hT
    rw [concatCodes_cons, List.append_assoc, walkFrom_codeword hroot hc, ih hT, List.foldr_cons,
      List.length_append, Nat.add_assoc]

theorem walkLeaf_replicate_false (c : Byte) (n k : Nat) :
    walkLeaf c (List.replicate n false) k = ⟨List.replicate n c, none⟩ := by
  induction n generalizing k with
  | zero => rfl
  | succ n ih => simp [List.replicate_succ, walkLeaf, ih, WalkResult.emit]

theorem concatCodes_replicate {codes : Table Bitstring} {c : Byte} (h : codes.at c = [false]) (n : Nat) :
    concatCodes codes (List.replicate n c) = List.replicate n false := by
  induction n with
  | zero => rfl
  | succ n ih => rw [List.replicate_succ, concatCodes_cons, h, ih]; rfl

end Sys2Proof.Machine
end

section
/-! SUPPORT. What BUILD leaves, in the terms of the statements (spec/41_code_tree_builder.md R137). -/

namespace Sys2Proof.Machine

open Sys2Proof.Spec

theorem codedSymbols_eq_nil_iff {F : Table Word} : codedSymbols F = [] ↔ distinct F = 0 := by
  rw [← codedSymbols_length, List.length_eq_zero_iff]

theorem freqSum_eq_total (F : Table Word) : freqSum F = total F := by
  rw [freqSum, Table.toList_eq_map, List.map_map, total]
  rfl

theorem State.installTree_eq (s : State) (F : Table Word) :
    s.installTree F =
      { s with
        arena := s.arena.overwrite (buildNodes F), codes := codesOf F, treeValid := true,
        nodeCount := BitVec.ofNat 10 (2 * distinct F - 1), root := BitVec.ofNat 9 (2 * distinct F - 2) } := by
  rw [State.installTree, codedSymbols_length]
  rfl

/-- The three ends of BUILD, which exclude each other (R137). -/
theorem exec_build_cases (s : State) :
    (distinct s.freq = 0 ∧ exec .build s = .next (s.invalidateTree.complete .emptyInput 0)) ∨
    (distinct s.freq ≠ 0 ∧ 0xFFFFFFFF < total s.freq ∧
      exec .build s = .next (s.invalidateTree.complete .freqOverflow 0)) ∨
    (distinct s.freq ≠ 0 ∧ total s.freq ≤ 0xFFFFFFFF ∧
      exec .build s = .next ((s.installTree s.freq).complete .ok 0)) := by
  have hexec : exec .build s = (buildBody s).outcome := rfl
  simp only [← freqSum_eq_total, ne_eq, ← codedSymbols_eq_nil_iff, hexec]
  rcases buildBody_cases s with ⟨hK, hbody⟩ | ⟨hK, hsum, hbody⟩ | ⟨hK, hsum, hbody⟩ <;> rw [hbody]
  · exact .inl ⟨hK, rfl⟩
  · exact .inr (.inl ⟨hK, hsum, rfl⟩)
  · exact .inr (.inr ⟨hK, hsum, rfl⟩)

theorem Arena.take_overwrite (a : Arena) (ns : List Node) : (a.overwrite ns).nodes.take ns.length = ns :=
  List.take_left

theorem State.arenaHolds_of_take {s : State} {n : Nat} {ns : List Node} (h : s.arena.nodes.take n = ns) :
    ArenaHolds s.node ns := by
  intro i m hi
  subst h
  obtain ⟨-, hi⟩ := Option.ite_none_right_eq_some.1 (List.getElem?_take.symm.trans hi)
  rw [State.node, hi, Option.getD_some]

/-- Arenas that begin with the same nodes agree on them. -/
theorem State.node_eq_of_take {s u : State} {n : Nat} {ns : List Node} (hs : s.arena.nodes.take n = ns)
    (hu : u.arena.nodes.take n = ns) {i : Nat} (hi : i < ns.length) : s.node i = u.node i :=
  State.arenaHolds_of_take hs i _ ((State.arenaHolds_of_take hu).getElem? hi)

theorem State.HoldsTreeOf.arenaHolds {s : State} {F : Table Word} (h : s.HoldsTreeOf F) :
    ArenaHolds s.node (buildNodes F) := State.arenaHolds_of_take h.nodes

theorem State.HoldsTreeOf.distinct_ne_zero {s : State} {F : Table Word} (h : s.HoldsTreeOf F) :
    distinct F ≠ 0 := fun hF => h.nonempty (codedSymbols_eq_nil_iff.2 hF)

theorem State.HoldsTreeOf.root_eq {s : State} {F : Table Word} (h : s.HoldsTreeOf F) :
    s.root.toNat = 2 * distinct F - 2 := by
  rw [h.root, codedSymbols_length]

theorem State.HoldsTreeOf.codes_eq {s : State} {F : Table Word} (h : s.HoldsTreeOf F) :
    s.codes = codesOf F := h.codes

/-- In a tree of two or more symbols each symbol's code leads from the root to the symbol's leaf (R135). -/
theorem State.HoldsTreeOf.leadsToLeaf {s : State} {F : Table Word} (h : s.HoldsTreeOf F)
    (hK : 2 ≤ distinct F) {c : Byte} (hc : F.at c ≠ 0) :
    LeadsToLeaf s.node s.root.toNat (s.codes.at c) c (F.at c) := by
  rw [h.root_eq, h.codes_eq]
  exact codesOf_leadsToLeaf hK h.arenaHolds hc

theorem State.HoldsTreeOf.root_internal {s : State} {F : Table Word} (h : s.HoldsTreeOf F)
    (hK : 2 ≤ distinct F) : ∃ (f : Word) (l r : BitVec 9), s.node s.root.toNat = .internal f l r := by
  obtain ⟨f, l, r, hget⟩ := buildNodes_root_internal hK
  exact ⟨f, l, r, h.root_eq ▸ h.arenaHolds _ _ hget⟩

theorem State.HoldsTreeOf.walk_of_two_le {s : State} {F : Table Word} (h : s.HoldsTreeOf F)
    (hK : 2 ≤ distinct F) {T : List Byte} (hT : ∀ c ∈ T, F.at c ≠ 0) :
    walk s.node s.root (concatCodes s.codes T) = ⟨T, none⟩ := by
  obtain ⟨f, l, r, hroot⟩ := h.root_internal hK
  have hwalk := walkFrom_concatCodes hroot (fun c hc => ⟨_, h.leadsToLeaf hK (hT c hc)⟩) [] 0
  rw [List.append_nil] at hwalk
  simp [walk, hroot, hwalk, walkFrom]

theorem State.HoldsTreeOf.walk_of_eq_one {s : State} {F : Table Word} (h : s.HoldsTreeOf F)
    (hK : distinct F = 1) {T : List Byte} (hT : ∀ c ∈ T, F.at c ≠ 0) :
    walk s.node s.root (concatCodes s.codes T) = ⟨T, none⟩ := by
  obtain ⟨c, hc, hother⟩ := exists_only_symbol hK
  have hroot : s.node s.root.toNat = .leaf c (F.at c) := by
    refine h.arenaHolds _ _ ?_
    rw [h.root_eq, hK, buildNodes_of_only_symbol hc hother]
    rfl
  have hrep : T = List.replicate T.length c :=
    List.eq_replicate_iff.2 ⟨rfl, fun d hd => by_contra fun hne => hT d hd (hother d hne)⟩
  rw [walk, hroot, hrep, concatCodes_replicate (h.codes_eq ▸ codesOf_only_symbol hc hother)]
  exact walkLeaf_replicate_false c _ 0

end Sys2Proof.Machine
end

section
/-! PROOFS. The statements on BUILD, its codes and the walk over them (spec/41_code_tree_builder.md R134 to
R137). -/

open Sys2Proof Sys2Proof.Machine Sys2Proof.Spec

namespace Sys2Proof.Proofs

/-- Settles O26: codes are root-to-leaf paths, since the code generator lists exactly these and every leaf is below
the root; the walk follows one path per symbol. For K = 1 the text repeats the only symbol, and its codes are
zeros. -/
theorem walkReadsBackTheText : Obligations.WalkReadsBackTheText := by
  unfold Obligations.WalkReadsBackTheText
  intro s F h
  have hF := h.distinct_ne_zero
  refine ⟨fun hK c hc => h.leadsToLeaf hK hc, fun c hc => h.codes_eq ▸ codesOf_at_eq_nil hF hc, fun T hT => ?_⟩
  obtain hK | hK : distinct F = 1 ∨ 2 ≤ distinct F := by omega
  · exact h.walk_of_eq_one hK hT
  · exact h.walk_of_two_le hK hT

/-- Settles O19, by the three ends of BUILD; the installed arena begins with the tree, which has 2K-1 nodes. -/
theorem buildInstallsTreeOfFreq : Obligations.BuildInstallsTreeOfFreq := by
  unfold Obligations.BuildInstallsTreeOfFreq
  intro s
  rcases exec_build_cases s with ⟨hK, hexec⟩ | ⟨hK, hsum, hexec⟩ | ⟨hK, hsum, hexec⟩
  · exact ⟨fun _ => hexec, fun h => absurd hK h, fun h => absurd hK h⟩
  · exact ⟨fun h => absurd h hK, fun _ _ => hexec, fun _ h => absurd hsum (Nat.not_lt.2 h)⟩
  · refine ⟨fun h => absurd h hK, fun _ h => absurd h (Nat.not_lt.2 hsum), fun _ _ =>
      ⟨s.arena.overwrite (buildNodes s.freq), ?_, ?_⟩⟩
    · rw [hexec, State.installTree_eq]
    · rw [← buildNodes_length hK, Arena.take_overwrite]

/-- Settles O20: the loop makes no pass over the only leaf. -/
theorem singleSymbolGetsCodeZero : Obligations.SingleSymbolGetsCodeZero := by
  unfold Obligations.SingleSymbolGetsCodeZero
  intro F c hc hother
  exact ⟨buildNodes_of_only_symbol hc hother, codesOf_only_symbol hc hother,
    fun d hd => codesOf_at_eq_nil (distinct_ne_zero hc) (hother d hd)⟩

/-- Settles O25: each end of BUILD is chosen by FREQ, and writes what FREQ gives; of the arena only the entries of
the tree are below NODE_COUNT. -/
theorem buildDependsOnFreqAlone : Obligations.BuildDependsOnFreqAlone := by
  unfold Obligations.BuildDependsOnFreqAlone
  intro s u hfreq
  obtain ⟨hempty, hover, hfits⟩ := buildInstallsTreeOfFreq s
  obtain ⟨hempty', hover', hfits'⟩ := buildInstallsTreeOfFreq u
  rw [← hfreq] at hempty' hover' hfits'
  by_cases hK : distinct s.freq = 0
  · exact ⟨_, _, hempty hK, hempty' hK, rfl, rfl, rfl, rfl, rfl, fun i hi => absurd hi (Nat.not_lt_zero i)⟩
  obtain hsum | hsum := Nat.lt_or_ge 0xFFFFFFFF (total s.freq)
  · exact ⟨_, _, hover hK hsum, hover' hK hsum, rfl, rfl, rfl, rfl, rfl,
      fun i hi => absurd hi (Nat.not_lt_zero i)⟩
  · obtain ⟨a, hexec, ha⟩ := hfits hK hsum
    obtain ⟨a', hexec', ha'⟩ := hfits' hK hsum
    refine ⟨_, _, hexec, hexec', rfl, rfl, rfl, rfl, rfl, fun i hi => ?_⟩
    have hlt : i < (buildNodes s.freq).length := by
      rw [buildNodes_length hK]
      exact Nat.lt_of_lt_of_le hi (Nat.mod_le _ _)
    exact State.node_eq_of_take ha ha' hlt

end Sys2Proof.Proofs
end

section
/-! SUPPORT. A record that has been written parses to what was written, and the parse depends on the record's bytes
alone (spec/20_memory.md R70 to R73; spec/43_bit_packer_crc.md R183 to R188). -/

namespace Sys2Proof.Machine

/-! ### Packing -/

theorem packGroups_getElem? {n i : Nat} (h : i < n) (B : Bitstring) :
    (packGroups n B)[i]? = some (msbFirst 8 (B.drop (8 * i))) := by
  induction n generalizing i B with
  | zero => omega
  | succ n ih =>
    cases i with
    | zero => rfl
    | succ i =>
      rw [packGroups, List.getElem?_cons_succ, ih (by omega), List.drop_drop, Nat.mul_succ, Nat.add_comm 8]

/-- Unpacking undoes packing (R185). -/
theorem unpackBits_packBits (B : Bitstring) : unpackBits (packBits B) B.length = B := by
  have hceil := le_eight_mul_ceilDiv B.length
  have hlen : (unpackBits (packBits B) B.length).length = B.length := unpackBits_length (by simpa using hceil)
  refine List.ext_getElem? fun k => ?_
  obtain hk | hk := Nat.lt_or_ge k B.length
  · have hbit := msbFirst_getLsbD (n := 8) (k := k % 8) (by omega) (B.drop (8 * (k / 8)))
    rw [List.getElem?_drop, Nat.div_add_mod] at hbit
    rw [unpackBits_getElem? hk, packBits, packGroups_getElem? (by omega), Option.map_some, hbit]
    simp [hk]
  · rw [List.getElem?_eq_none (by omega), List.getElem?_eq_none hk]

/-! ### Reading part of a run of stores -/

theorem Memory.readBytes_writeBytes_middle (sp : Space) (m : Memory) (i : Nat) (xs ys zs : List Byte) :
    (m.writeBytes i (xs ++ ys ++ zs)).readBytes sp (i + xs.length) ys.length = ys := by
  refine List.ext_getElem? fun k => ?_
  rw [Memory.readBytes_getElem?, Nat.add_assoc]
  split
  · rename_i hk
    have hall : xs.length + k < (xs ++ ys ++ zs).length := by simp only [List.length_append]; omega
    rw [Memory.read_writeBytes_inside hall, List.getElem?_eq_getElem hk]
    simp [hk]
  · rename_i hk
    rw [List.getElem?_eq_none (by omega)]

/-! ### The record just written -/

theorem Params.packCap_le (p : Params) : p.packCap ≤ 33554432 := p.packCapPred.isLt

section
variable {s : State} {B : Bitstring} (crc : Word)

theorem State.writeRecord_recLen_toNat (h : ceilDiv B.length 8 ≤ s.params.packCap) :
    (s.writeRecord B crc).recLen.toNat = 12 + ceilDiv B.length 8 := by
  have hcap := Params.packCap_le s.params
  rw [State.writeRecord_recLen, BitVec.toNat_ofNat]
  omega

theorem State.writeRecord_recordBitLength (h : ceilDiv B.length 8 ≤ s.params.packCap) :
    (s.writeRecord B crc).recordBitLength = B.length := by
  have hcap := Params.packCap_le s.params
  have hceil := le_eight_mul_ceilDiv B.length
  have hread := Memory.readBytes_writeBytes_middle .record s.recMem 0 []
    (fieldBytes s.be 8 B.length) (packBits B ++ fieldBytes s.be 4 crc.toNat)
  rw [List.nil_append, ← List.append_assoc, fieldBytes_length] at hread
  rw [State.recordBitLength, State.writeRecord_be, State.writeRecord_recMem]
  exact (congrArg (fieldValue s.be) hread).trans
    ((fieldValue_fieldBytes s.be 8 B.length).trans (Nat.mod_eq_of_lt (by omega)))

theorem State.writeRecord_recordPacked :
    (s.writeRecord B crc).recordPacked (ceilDiv B.length 8) = packBits B := by
  have hread := Memory.readBytes_writeBytes_middle .record s.recMem 0
    (fieldBytes s.be 8 B.length) (packBits B) (fieldBytes s.be 4 crc.toNat)
  rwa [fieldBytes_length, packBits_length] at hread

theorem State.writeRecord_recordChecksum :
    (s.writeRecord B crc).recordChecksum (ceilDiv B.length 8) = crc := by
  have hread := Memory.readBytes_writeBytes_middle .record s.recMem 0
    (fieldBytes s.be 8 B.length ++ packBits B) (fieldBytes s.be 4 crc.toNat) []
  rw [List.append_nil, Nat.zero_add, List.length_append, fieldBytes_length, fieldBytes_length,
    packBits_length] at hread
  rw [State.recordChecksum, State.writeRecord_be, State.writeRecord_recMem]
  refine (congrArg (fun bs => BitVec.ofNat 32 (fieldValue s.be bs)) hread).trans ?_
  rw [fieldValue_fieldBytes, Nat.mod_eq_of_lt (b := 256 ^ 4) crc.isLt, BitVec.ofNat_toNat, BitVec.setWidth_eq]

/-- Parsing undoes writing, in either byte order. -/
theorem State.parseRecord_writeRecord (h : ceilDiv B.length 8 ≤ s.params.packCap) :
    (s.writeRecord B crc).parseRecord = some ⟨B.length, B, crc⟩ := by
  have hbits := State.writeRecord_recordBitLength crc h
  rw [parseRecord_of_framed (by rw [hbits, State.writeRecord_recLen_toNat crc h]), hbits,
    State.writeRecord_recordPacked, State.writeRecord_recordChecksum, unpackBits_packBits]

end

/-! ### Two states with the same record -/

/-- States with the same byte order, REC_LEN and record bytes parse alike. -/
theorem State.parseRecord_congr {t u : State} (hbe : u.be = t.be) (hlen : u.recLen = t.recLen)
    (hbytes : ∀ i, i < t.recLen.toNat → u.memRead .record i = t.memRead .record i) :
    u.parseRecord = t.parseRecord := by
  have hread {i n : Nat} (h : i + n ≤ t.recLen.toNat) :
      u.recMem.readBytes .record i n = t.recMem.readBytes .record i n :=
    Memory.readBytes_congr fun k hk => hbytes (i + k) (by omega)
  by_cases hshort : t.recLen.toNat < 12
  · simp [State.parseRecord, hlen, hshort]
  have hbits : u.recordBitLength = t.recordBitLength := by
    rw [State.recordBitLength, State.recordBitLength, hbe, hread (by omega)]
  by_cases hframed : t.recLen.toNat = 12 + ceilDiv t.recordBitLength 8
  · rw [parseRecord_of_framed hframed, parseRecord_of_framed (by rw [hbits, hlen, hframed]), hbits,
      State.recordPacked, State.recordPacked, State.recordChecksum, State.recordChecksum, hbe,
      hread (by omega), hread (by omega)]
  · rw [parseRecord_of_not_framed hframed, parseRecord_of_not_framed (by rwa [hbits, hlen])]

end Sys2Proof.Machine
end

section
/-! SUPPORT. A walk stays in the tree: two arenas that hold the same tree walk alike, whatever they hold past it
(spec/10_state.md R46; spec/44_decoder.md R210, R211). -/

namespace Sys2Proof.Machine

variable {node node' : Nat → Node} {ns : List Node}

theorem ArenaHolds.node_eq (h : ArenaHolds node ns) (h' : ArenaHolds node' ns) {i : Nat}
    (hi : i < ns.length) : node' i = node i := h' i _ (h.getElem? hi)

theorem walkFrom_eq_of_arenaHolds (h : ArenaHolds node ns) (h' : ArenaHolds node' ns) (hbelow : ChildrenBelow ns)
    {root rl rr : BitVec 9} (hrl : rl.toNat < ns.length) (hrr : rr.toNat < ns.length) (B : Bitstring)
    {cur l r : BitVec 9} (hl : l.toNat < ns.length) (hr : r.toNat < ns.length) (start k : Nat) :
    walkFrom node' root rl rr B cur l r start k = walkFrom node root rl rr B cur l r start k := by
  induction B generalizing cur l r start k with
  | nil => rfl
  | cons b B ih =>
    have hchild : (if b then r else l).toNat < ns.length := by
      cases b
      · exact hl
      · exact hr
    simp only [walkFrom, h.node_eq h' hchild]
    cases hat : node (if b then r else l).toNat with
    | leaf c f => simp only [ih hrl hrr]
    | internal f l' r' =>
      obtain ⟨hl', hr'⟩ := hbelow _ f l' r' (hat ▸ h.getElem? hchild)
      exact ih (hl'.trans hchild) (hr'.trans hchild) start (k + 1)

theorem walk_eq_of_arenaHolds (h : ArenaHolds node ns) (h' : ArenaHolds node' ns) (hbelow : ChildrenBelow ns)
    {root : BitVec 9} (hroot : root.toNat < ns.length) (B : Bitstring) :
    walk node' root B = walk node root B := by
  simp only [walk, h.node_eq h' hroot]
  cases hat : node root.toNat with
  | leaf c f => rfl
  | internal f l r =>
    obtain ⟨hl, hr⟩ := hbelow _ f l r (hat ▸ h.getElem? hroot)
    exact walkFrom_eq_of_arenaHolds h h' hbelow (hl.trans hroot) (hr.trans hroot) B (hl.trans hroot)
      (hr.trans hroot) 0 0

end Sys2Proof.Machine
end

section
/-! SUPPORT. The text's bytes as the commands search them, the table and codes of a text's own symbols, and the ends
of ENCODE (spec/42_encoder.md R160 to R167). -/

namespace Sys2Proof.Machine

open Sys2Proof.Spec

/-! ### Searching the text -/

theorem State.textBytes_getElem (s : State) {i : Nat} (hi : i < s.textBytes.length) :
    s.textBytes[i] = s.memRead .text i :=
  (List.getElem_eq_iff _).2 (by rw [State.textBytes_getElem?, if_pos (s.textBytes_length ▸ hi)])

theorem State.mem_textBytes {s : State} {c : Byte} :
    c ∈ s.textBytes ↔ ∃ i, i < s.textLen.toNat ∧ s.memRead .text i = c := by
  simp [List.mem_iff_getElem?, State.textBytes_getElem?]

theorem State.findIdx?_textBytes_eq_none {s : State} {p : Byte → Bool} :
    s.textBytes.findIdx? p = none ↔ ∀ i, i < s.textLen.toNat → p (s.memRead .text i) = false := by
  simp [List.findIdx?_eq_none_iff, State.mem_textBytes]

/-- The search finds the smallest index of a byte with the property. -/
theorem State.findIdx?_textBytes_eq_some {s : State} {p : Byte → Bool} {i : Nat} :
    s.textBytes.findIdx? p = some i ↔
      i < s.textLen.toNat ∧ p (s.memRead .text i) = true ∧ ∀ j, j < i → p (s.memRead .text j) = false := by
  rw [List.findIdx?_eq_some_iff_getElem]
  constructor
  · rintro ⟨hi, hp, hbefore⟩
    refine ⟨s.textBytes_length ▸ hi, s.textBytes_getElem hi ▸ hp, fun j hj => ?_⟩
    simpa [s.textBytes_getElem (hj.trans hi)] using hbefore j hj
  · rintro ⟨hi, hp, hbefore⟩
    rw [← s.textBytes_length] at hi
    exact ⟨hi, (s.textBytes_getElem hi).symm ▸ hp, fun j hj => by
      simp [s.textBytes_getElem (hj.trans hi), hbefore j hj]⟩

theorem State.textBytes_length_lt (s : State) : s.textBytes.length < 2 ^ 32 :=
  s.textBytes_length.trans_lt s.textLen.isLt

/-! ### The table of a text (R110) -/

theorem freqCount_at_ne_zero {T : List Byte} (hT : T.length < 2 ^ 32) {c : Byte} :
    (freqCount T).at c ≠ 0 ↔ c ∈ T := by
  rw [← List.count_pos_iff, ← freqCount_at_toNat hT, Nat.pos_iff_ne_zero, ne_eq, ne_eq, BitVec.toNat_eq]
  rfl

/-- The counters add up to the length of the text. -/
theorem total_freqCount {T : List Byte} (hT : T.length < 2 ^ 32) : total (freqCount T) = T.length := by
  have hcounts : allSymbols.map (fun c => ((freqCount T).at c).toNat) = allSymbols.map fun c => T.count c :=
    List.map_congr_left fun c _ => freqCount_at_toNat hT c
  rw [total, hcounts, ← List.sum_toFinset _ allSymbols_nodup]
  have hsum := Multiset.sum_count_eq_card (s := allSymbols.toFinset) (m := (T : Multiset Byte))
    fun c _ => List.mem_toFinset.2 (mem_allSymbols c)
  simpa only [Multiset.coe_count, Multiset.coe_card] using hsum

theorem distinct_freqCount_eq_zero {T : List Byte} (hT : T.length < 2 ^ 32) :
    distinct (freqCount T) = 0 ↔ T = [] := by
  simp only [distinct, List.countP_eq_zero, mem_allSymbols, forall_const, bne_iff_ne, freqCount_at_ne_zero hT,
    List.eq_nil_iff_forall_not_mem]

/-- A symbol that occurs has a code: the root of a tree of two or more symbols is no leaf, so the path to the
symbol's leaf is not empty, and the only symbol of a table has the code "0". -/
theorem codesOf_at_ne_nil {F : Table Word} {c : Byte} (hc : F.at c ≠ 0) : (codesOf F).at c ≠ [] := by
  have hF := distinct_ne_zero hc
  obtain hK | hK : distinct F = 1 ∨ 2 ≤ distinct F := by omega
  · obtain ⟨d, hd, hother⟩ := exists_only_symbol hK
    obtain rfl : c = d := by_contra fun hne => hc (hother c hne)
    simp [codesOf_only_symbol hc hother]
  · have hnode : ArenaHolds (fun i => ((buildNodes F)[i]?).getD default) (buildNodes F) :=
      fun i n hi => by simp [hi]
    obtain ⟨f, l, r, hroot⟩ := buildNodes_root_internal hK
    intro hnil
    have hpath := codesOf_leadsToLeaf hK hnode hc
    rw [hnil] at hpath
    exact not_leadsToLeaf_nil_of_internal (hnode _ _ hroot) hpath

/-! ### The tree BUILD installs -/

theorem State.holdsTreeOf_installTree (s : State) {F : Table Word} (hK : distinct F ≠ 0)
    (hsum : total F ≤ 0xFFFFFFFF) : (s.installTree F).HoldsTreeOf F := by
  have hle := distinct_le F
  refine ⟨fun h => hK (codedSymbols_eq_nil_iff.1 h), (freqSum_eq_total F).trans_le hsum, ?_, rfl, ?_, ?_⟩
  · rw [codedSymbols_length, ← buildNodes_length hK]
    exact Arena.take_overwrite _ _
  · rw [State.installTree_nodeCount, BitVec.toNat_ofNat, codedSymbols_length]
    omega
  · rw [State.installTree_root, BitVec.toNat_ofNat, codedSymbols_length]
    omega

/-! ### The stages of a command, run as commands of their own -/

/-- The error of a raise is an error. -/
def CmdEnd.RaisesErrors : CmdEnd → Prop
  | .finished _ => True
  | .raised e _ _ => e ≠ .ok

theorem CmdEnd.raisesErrors_andThen {r : CmdEnd} {stage : State → CmdEnd} (hr : r.RaisesErrors)
    (hstage : ∀ s, (stage s).RaisesErrors) : (r.andThen stage).RaisesErrors := by
  cases r with
  | finished s => exact hstage s
  | raised e p s => exact hr

/-- Two stages in one command complete as the first does where that ends with an error, else as the second does when
it runs after the first has completed; the second must not see the completion between them. -/
theorem CmdEnd.complete_andThen {r : CmdEnd} {stage : State → CmdEnd} (hr : r.RaisesErrors)
    (hstage : ∀ s e p, (stage (s.complete e p)).complete = (stage s).complete) :
    (r.andThen stage).complete = if r.complete.err = .ok then (stage r.complete).complete else r.complete := by
  cases r with
  | finished s => exact (hstage s .ok 0).symm
  | raised e p s => exact (if_neg hr).symm

theorem countBody_raisesErrors (s : State) : (countBody s).RaisesErrors := by
  rcases countBody_cases s with ⟨-, h⟩ | ⟨-, h⟩ <;> simp [h, CmdEnd.RaisesErrors]

theorem buildBody_raisesErrors (s : State) : (buildBody s).RaisesErrors := by
  rcases buildBody_cases s with ⟨-, h⟩ | ⟨-, -, h⟩ | ⟨-, -, h⟩ <;> simp [h, CmdEnd.RaisesErrors]

/-- Completing a command before BUILD changes nothing of what BUILD completes with. -/
theorem buildBody_complete (s : State) (e : ErrCode) (p : Word) :
    (buildBody (s.complete e p)).complete = (buildBody s).complete := by
  rcases buildBody_cases s with ⟨hK, hbody⟩ | ⟨hK, hsum, hbody⟩ | ⟨hK, hsum, hbody⟩ <;> rw [hbody]
  · simp [buildBody, hK]
    rfl
  · simp [buildBody, hK, hsum]
    rfl
  · simp [buildBody, hK, Nat.not_lt.2 hsum]
    rfl

/-- Completing a command before EMIT changes nothing of what EMIT completes with. -/
theorem emitBody_complete (s : State) (e : ErrCode) (p : Word) :
    (emitBody (s.complete e p)).complete = (emitBody s).complete := by
  unfold emitBody
  have hlong : (s.complete e p).textTooLong = s.textTooLong := rfl
  have hT : (s.complete e p).textBytes = s.textBytes := rfl
  have hpack (B : Bitstring) : (s.complete e p).packTooLong B = s.packTooLong B := rfl
  simp only [hlong, hT, hpack, State.complete_treeValid, State.complete_codes]
  split
  · rfl
  split
  · rfl
  split
  · rfl
  split
  · rfl
  · rfl

/-! ### The ends of ENCODE (R167) -/

/-- The state after the COUNT and BUILD stages of ENCODE: FREQ tallies the text, and its tree and codes are
installed. -/
def State.withTextTree (s : State) : State :=
  ({ s with freq := freqCount s.textBytes }).installTree (freqCount s.textBytes)

theorem State.withTextTree_codes (s : State) : s.withTextTree.codes = codesOf (freqCount s.textBytes) := rfl

/-- EMIT on the tree of its own text finds a code for every byte. -/
theorem State.withTextTree_findIdx? (s : State) :
    s.textBytes.findIdx? (fun c => (s.withTextTree.codes.at c).isEmpty) = none := by
  refine List.findIdx?_eq_none_iff.2 fun c hc => ?_
  rw [State.withTextTree_codes, List.isEmpty_eq_false_iff]
  exact codesOf_at_ne_nil ((freqCount_at_ne_zero s.textBytes_length_lt).2 hc)

/-- BUILD of a text's own table fails only if the text is empty: the frequencies add up to TEXT_LEN, which is a
word, so they do not overflow. -/
theorem buildBody_of_counted (s : State) :
    (s.textLen.toNat = 0 ∧ buildBody { s with freq := freqCount s.textBytes } =
      .raised .emptyInput 0 ({ s with freq := freqCount s.textBytes }).invalidateTree) ∨
    (1 ≤ s.textLen.toNat ∧ buildBody { s with freq := freqCount s.textBytes } = .finished s.withTextTree) := by
  have hT := s.textBytes_length_lt
  have hempty : codedSymbols (freqCount s.textBytes) = [] ↔ s.textLen.toNat = 0 := by
    rw [codedSymbols_eq_nil_iff, distinct_freqCount_eq_zero hT, ← s.textBytes_length, List.length_eq_zero_iff]
  rcases buildBody_cases { s with freq := freqCount s.textBytes } with
    ⟨hK, hbody⟩ | ⟨-, hsum, -⟩ | ⟨hK, -, hbody⟩
  · exact .inl ⟨hempty.1 hK, hbody⟩
  · rw [freqSum_eq_total, total_freqCount hT] at hsum
    omega
  · exact .inr ⟨Nat.pos_of_ne_zero (mt hempty.2 hK), hbody⟩

/-- The four ends of ENCODE, which exclude each other. -/
theorem encodeBody_cases (s : State) :
    let B := concatCodes s.withTextTree.codes s.textBytes
    (s.params.textCap < s.textLen.toNat ∧ encodeBody s = .raised .lenRange 0 s) ∨
    (s.textLen.toNat = 0 ∧
      encodeBody s = .raised .emptyInput 0 ({ s with freq := freqCount s.textBytes }).invalidateTree) ∨
    (1 ≤ s.textLen.toNat ∧ s.textLen.toNat ≤ s.params.textCap ∧ s.params.packCap < ceilDiv B.length 8 ∧
      encodeBody s = .raised .packOverflow 0 s.withTextTree) ∨
    (1 ≤ s.textLen.toNat ∧ s.textLen.toNat ≤ s.params.textCap ∧ ceilDiv B.length 8 ≤ s.params.packCap ∧
      encodeBody s = .finished (s.withTextTree.writeRecord B (s.recordCrc B s.textBytes))) := by
  intro B
  rcases countBody_cases s with ⟨hlong, hcount⟩ | ⟨hfits, hcount⟩
  · exact .inl ⟨hlong, by rw [encodeBody, hcount]; rfl⟩
  rcases buildBody_of_counted s with ⟨hn, hbuild⟩ | ⟨hn, hbuild⟩
  · exact .inr (.inl ⟨hn, by rw [encodeBody, hcount, CmdEnd.andThen_finished, hbuild]; rfl⟩)
  have hencode : encodeBody s = emitBody s.withTextTree := by
    rw [encodeBody, hcount, CmdEnd.andThen_finished, hbuild]
    rfl
  rw [hencode]
  rcases emitBody_cases s.withTextTree with
    ⟨hlong, -⟩ | ⟨-, hvalid, -⟩ | ⟨-, -, i, hfind, -⟩ | ⟨-, -, -, hover, hemit⟩ | ⟨-, -, -, hpack, hemit⟩
  · exact absurd hfits (Nat.not_le.2 hlong)
  · cases hvalid
  · cases (s.withTextTree_findIdx?.symm.trans hfind)
  · exact .inr (.inr (.inl ⟨hn, hfits, hover, hemit⟩))
  · exact .inr (.inr (.inr ⟨hn, hfits, hpack, hemit⟩))

end Sys2Proof.Machine
end

section
/-! SUPPORT. The state an ENCODE that succeeds leaves, and the success of DECODE (spec/42_encoder.md R167;
spec/44_decoder.md R213). -/

namespace Sys2Proof.Machine

open Sys2Proof.Spec

theorem exec_emit (s : State) : exec .emit s = (emitBody s).outcome := rfl

theorem exec_build (s : State) : exec .build s = (buildBody s).outcome := rfl

theorem exec_encode (s : State) : exec .encode s = (encodeBody s).outcome := rfl

theorem exec_decode (s : State) : exec .decode s = (decodeBody s).outcome := rfl

/-- What ENCODE leaves when it completes with OK. -/
theorem eq_of_encode_ok {s t : State} (hexec : exec .encode s = .next t) (hok : t.err = .ok) :
    let B := concatCodes s.withTextTree.codes s.textBytes
    s.textLen.toNat ≠ 0 ∧ ceilDiv B.length 8 ≤ s.params.packCap ∧
      t = (s.withTextTree.writeRecord B (s.recordCrc B s.textBytes)).complete .ok 0 := by
  rw [exec_encode, CmdEnd.outcome_eq_next] at hexec
  subst hexec
  rcases encodeBody_cases s with ⟨-, hbody⟩ | ⟨-, hbody⟩ | ⟨-, -, -, hbody⟩ | ⟨hn, -, hpack, hbody⟩
  · rw [hbody] at hok
    cases hok
  · rw [hbody] at hok
    cases hok
  · rw [hbody] at hok
    cases hok
  · exact ⟨Nat.ne_of_gt hn, hpack, by rw [hbody]; rfl⟩

theorem State.withTextTree_holdsTreeOf {s : State} (hn : s.textLen.toNat ≠ 0) :
    s.withTextTree.HoldsTreeOf (freqCount s.textBytes) := by
  have hT := s.textBytes_length_lt
  refine State.holdsTreeOf_installTree _ (fun hK => hn ?_) ?_
  · rw [← s.textBytes_length, (distinct_freqCount_eq_zero hT).1 hK, List.length_nil]
  · rw [total_freqCount hT]
    omega

/-- Neither a written record nor a completion touches the tree. -/
theorem State.HoldsTreeOf.complete_writeRecord {s : State} {F : Table Word} (h : s.HoldsTreeOf F)
    (B : Bitstring) (crc : Word) (e : ErrCode) (p : Word) :
    ((s.writeRecord B crc).complete e p).HoldsTreeOf F :=
  ⟨h.nonempty, h.sumFits, h.nodes, h.codes, h.nodeCount, h.root⟩

@[simp] theorem State.parseRecord_complete (s : State) (e : ErrCode) (p : Word) :
    (s.complete e p).parseRecord = s.parseRecord := rfl

/-- DECODE verifies over the bytes the record's checksum covers (R186). -/
theorem State.verifyCrc_eq_recordCrc {t u : State} (h : u.crcsrc = t.crcsrc) (B : Bitstring) (T : List Byte) :
    u.verifyCrc B T = t.recordCrc B T := by
  rw [State.verifyCrc, State.recordCrc, State.checksummed, State.checksummed, h]

/-- An ENCODE that completes with OK leaves the tree of the text, and a record within REC_CAP that parses to the
text's codes and their checksum. -/
theorem encode_ok_leaves {s t : State} (hexec : exec .encode s = .next t) (hok : t.err = .ok) :
    let B := concatCodes t.codes s.textBytes
    t.HoldsTreeOf (freqCount s.textBytes) ∧ t.treeValid = true ∧ t.recLen.toNat ≤ t.params.recCap ∧
      t.parseRecord = some ⟨B.length, B, t.recordCrc B s.textBytes⟩ := by
  obtain ⟨hn, hpack, rfl⟩ := eq_of_encode_ok hexec hok
  have hpack' : ceilDiv _ 8 ≤ s.withTextTree.params.packCap := hpack
  refine ⟨(State.withTextTree_holdsTreeOf hn).complete_writeRecord _ _ _ _, rfl, ?_, ?_⟩
  · rw [State.complete_recLen, State.writeRecord_recLen_toNat _ hpack', Nat.add_comm]
    exact Nat.add_le_add_right hpack 12
  · rw [State.parseRecord_complete, State.parseRecord_writeRecord _ hpack']
    rfl

/-- DECODE's success (R213): the framing passes, the walk ends at the root, and the checksum is the stored one. -/
theorem decodeBody_of_verified {s : State} {r : ParsedRecord} {T : List Byte}
    (hcap : s.recLen.toNat ≤ s.params.recCap) (hvalid : s.treeValid = true) (hparse : s.parseRecord = some r)
    (hwalk : walk s.node s.root r.bits = ⟨T, none⟩) (hcrc : s.verifyCrc r.bits T = r.stored) :
    decodeBody s = .finished
      { s with
        bitLen := BitVec.ofNat 64 r.length, crcOut := r.stored
        outMem := s.outMem.writeBytes 0 T, outLen := BitVec.ofNat 32 T.length } := by
  rcases decodeBody_cases s with ⟨hlong, -⟩ | ⟨-, hinvalid, -⟩ | ⟨-, -, hnone, -⟩ | ⟨-, -, r', hparse', hbody⟩
  · exact absurd hcap (Nat.not_le.2 hlong)
  · cases hvalid.symm.trans hinvalid
  · cases hparse.symm.trans hnone
  obtain rfl := Option.some.inj (hparse.symm.trans hparse')
  have hends := decodeParsed_cases s r
  simp only [hwalk, hcrc] at hends
  rcases hends with ⟨hne, -⟩ | ⟨-, p, hfail, -⟩ | ⟨-, -, hparsed⟩
  · exact absurd rfl hne
  · cases hfail
  · rw [hbody, hparsed, CmdEnd.clearOutLenOnRaise_finished]

end Sys2Proof.Machine
end

section
/-! PROOFS. The statements on EMIT, ENCODE and the round trip (spec/42_encoder.md R161, R167, R168). -/

open Sys2Proof Sys2Proof.Machine Sys2Proof.Spec

namespace Sys2Proof.Proofs

/-- Settles O41: ENCODE leaves the tree of its text and a record that parses to the text's codes and their checksum.
The later state parses the same record, and its arena holds the same nodes, so its walk over the codes gives back the
text (R135), over which the checksum is the stored one. -/
theorem encodeThenDecodeRestoresText : Obligations.EncodeThenDecodeRestoresText := by
  unfold Obligations.EncodeThenDecodeRestoresText
  intro s t u _ _ hexec hok hparams hcrcsrc hbe hvalid hroot hnodes hreclen hrec
  obtain ⟨htree, hvalid', hcap, hparse⟩ := encode_ok_leaves hexec hok
  rw [← State.parseRecord_congr hbe hreclen hrec] at hparse
  have hF := htree.distinct_ne_zero
  have hwalk : walk u.node u.root (concatCodes t.codes s.textBytes) = ⟨s.textBytes, none⟩ := by
    have hcount : t.nodeCount.toNat = (buildNodes (freqCount s.textBytes)).length := by
      rw [htree.nodeCount, codedSymbols_length, buildNodes_length hF]
    have harena : ArenaHolds u.node (buildNodes (freqCount s.textBytes)) := fun i n hi =>
      (hnodes i (hcount ▸ (List.getElem?_eq_some_iff.1 hi).1)).trans (htree.arenaHolds i n hi)
    have hrootlt : t.root.toNat < (buildNodes (freqCount s.textBytes)).length := by
      rw [htree.root_eq, buildNodes_length hF]
      omega
    obtain ⟨-, -, hback⟩ := walkReadsBackTheText t _ htree
    rw [hroot, walk_eq_of_arenaHolds htree.arenaHolds harena (buildNodes_childrenBelow hF) hrootlt]
    exact hback s.textBytes fun c hc => (freqCount_at_ne_zero s.textBytes_length_lt).2 hc
  have hbody := decodeBody_of_verified (by rwa [hreclen, hparams]) (hvalid.trans hvalid') hparse hwalk
    (State.verifyCrc_eq_recordCrc hcrcsrc _ _)
  refine ⟨_, by rw [exec_decode, hbody, CmdEnd.outcome, CmdEnd.complete_finished], rfl, ?_, fun i hi => ?_⟩
  · rw [State.complete_outLen, s.textBytes_length, BitVec.ofNat_toNat, BitVec.setWidth_eq]
  · rw [← s.textBytes_length] at hi
    have hread := Memory.read_writeBytes_inside (i := 0) hi .out u.outMem
    rw [Nat.zero_add, s.textBytes_getElem hi] at hread
    exact hread

/-- Settles O34: each clause is one branch of EMIT; the search for a byte without a code stops at the smallest
index. -/
theorem emitEncodesText : Obligations.EmitEncodesText := by
  unfold Obligations.EmitEncodesText
  intro s
  have hB : ((text s).flatMap fun c => s.codes.at c) = concatCodes s.codes s.textBytes := by
    rw [s.textBytes_eq_text]
    rfl
  have hcrc (B : Bitstring) : crc32 (covered s B (text s)) = s.recordCrc B s.textBytes := by
    rw [s.textBytes_eq_text]
    rfl
  simp only [hB, hcrc, exec_emit, CmdEnd.outcome_eq_next]
  refine ⟨fun hlong => ?_, fun hfits hvalid => ?_, fun hfits hvalid => ⟨fun i hi hnil hbefore => ?_, fun hcoded => ?_⟩⟩
  · simp [emitBody, hlong]
  · simp [emitBody, Nat.not_lt.2 hfits, hvalid]
  · have hfind : s.textBytes.findIdx? (fun c => (s.codes.at c).isEmpty) = some i :=
      State.findIdx?_textBytes_eq_some.2
        ⟨hi, List.isEmpty_iff.2 hnil, fun j hj => List.isEmpty_eq_false_iff.2 (hbefore j hj)⟩
    simp [emitBody, Nat.not_lt.2 hfits, hvalid, hfind]
  · have hfind : s.textBytes.findIdx? (fun c => (s.codes.at c).isEmpty) = none :=
      State.findIdx?_textBytes_eq_none.2 fun i hi => List.isEmpty_eq_false_iff.2 (hcoded i hi)
    refine ⟨fun hover => ?_, fun hpack => ?_⟩
    · simp [emitBody, Nat.not_lt.2 hfits, hvalid, hfind, hover]
    · simp [emitBody, Nat.not_lt.2 hfits, hvalid, hfind, Nat.not_lt.2 hpack]

/-- Settles O35: ENCODE completes as its three stages run one after another would, since neither BUILD nor EMIT sees
a completion before it; the errors are those of ENCODE's four ends. -/
theorem encodeRunsItsThreeStages : Obligations.EncodeRunsItsThreeStages := by
  unfold Obligations.EncodeRunsItsThreeStages
  intro s c b hcount hbuild
  rw [exec_count, CmdEnd.outcome_eq_next] at hcount
  rw [exec_build, CmdEnd.outcome_eq_next] at hbuild
  have hbuilt : ((countBody s).andThen buildBody).complete = if c.err = .ok then b else c := by
    rw [CmdEnd.complete_andThen (countBody_raisesErrors s) buildBody_complete, hcount, hbuild]
  have hencode := CmdEnd.complete_andThen
    (CmdEnd.raisesErrors_andThen (countBody_raisesErrors s) buildBody_raisesErrors) emitBody_complete
  rw [hbuilt] at hencode
  rw [exec_encode, encodeBody, exec_emit, CmdEnd.outcome, CmdEnd.outcome, hencode]
  refine ⟨fun hc => by simp [hc], fun hc hb => by simp [hc, hb], fun hc hb => by simp [hc, hb], _, rfl, ?_⟩
  rw [← hencode, ← encodeBody]
  rcases encodeBody_cases s with ⟨-, h⟩ | ⟨-, h⟩ | ⟨-, -, -, h⟩ | ⟨-, -, -, h⟩ <;> simp [h]

end Sys2Proof.Proofs
end

section
/-! SUPPORT. The bits of packed bytes by index, the written record by its fields, and the text as bit characters
(spec/43_bit_packer_crc.md R183 to R190). -/

namespace Sys2Proof.Machine

open Sys2Proof.Spec

/-! ### Bits of a byte sequence (R183 to R185) -/

/-- Bit `k` of a byte sequence, each byte's most significant bit first; 0 past its end. -/
def bitAt (P : List Byte) (k : Nat) : Bool := (P[k / 8]?.getD 0).getLsbD (7 - k % 8)

/-- Byte sequences of one length that agree on every bit are equal. -/
theorem eq_of_bitAt_eq {P Q : List Byte} (hlen : P.length = Q.length)
    (h : ∀ k, k < 8 * P.length → bitAt P k = bitAt Q k) : P = Q := by
  refine List.ext_getElem hlen fun i hP hQ => BitVec.eq_of_getLsbD_eq fun j hj => ?_
  have hbit := h (8 * i + (7 - j)) (by omega)
  have hdiv : (8 * i + (7 - j)) / 8 = i := by omega
  have hmod : 7 - (8 * i + (7 - j)) % 8 = j := by omega
  rw [bitAt, bitAt, hdiv, hmod, List.getElem?_eq_getElem hP, List.getElem?_eq_getElem hQ] at hbit
  exact hbit

/-- Bit `k` of the packed bytes is bit `k` of the bitstring; the padding bits are 0 (R183). -/
theorem bitAt_packBits (B : Bitstring) (k : Nat) : bitAt (packBits B) k = B[k]?.getD false := by
  have hceil := le_eight_mul_ceilDiv B.length
  obtain hk | hk := Nat.lt_or_ge (k / 8) (ceilDiv B.length 8)
  · have hbit := msbFirst_getLsbD (n := 8) (k := k % 8) (by omega) (B.drop (8 * (k / 8)))
    rw [List.getElem?_drop, Nat.div_add_mod] at hbit
    rw [bitAt, packBits, packGroups_getElem? hk, Option.getD_some, hbit]
  · rw [bitAt, List.getElem?_eq_none (by simpa using hk), List.getElem?_eq_none (by omega)]
    exact BitVec.getLsbD_zero

theorem unpackBits_getD_eq_bitAt {L k : Nat} (h : k < L) (P : List Byte) :
    (unpackBits P L)[k]?.getD false = bitAt P k := by
  rw [unpackBits_getElem? h, bitAt]
  cases P[k / 8]? with
  | none => exact BitVec.getLsbD_zero.symm
  | some b => rfl

/-- Packing undoes unpacking exactly when the padding bits are 0 (R185): the bits below `L` always agree, and those
of the packed bytes from `L` on are 0. -/
theorem packBits_unpackBits_iff {P : List Byte} {L : Nat} (hP : P.length = ceilDiv L 8) :
    packBits (unpackBits P L) = P ↔ ∀ k, L ≤ k → k < 8 * P.length → bitAt P k = false := by
  have hlen : (unpackBits P L).length = L := unpackBits_length (hP ▸ le_eight_mul_ceilDiv L)
  have hpad {k : Nat} (hk : L ≤ k) : bitAt (packBits (unpackBits P L)) k = false := by
    rw [bitAt_packBits, List.getElem?_eq_none (hlen.trans_le hk), Option.getD_none]
  constructor
  · intro h k hk _
    rw [← h, hpad hk]
  · intro hzero
    have hlenP : (packBits (unpackBits P L)).length = P.length := by rw [packBits_length, hlen, hP]
    refine eq_of_bitAt_eq hlenP fun k hk => ?_
    obtain hL | hL := Nat.lt_or_ge k L
    · rw [bitAt_packBits, unpackBits_getD_eq_bitAt hL]
    · rw [hpad hL, hzero k hL (hlenP ▸ hk)]

/-! ### The fields of a record (R187) -/

/-- Byte `i` of the header stands at its place in the 64-bit length (spec/20_memory.md R71). -/
theorem recordBitLength_byte (s : State) {i : Nat} (h : i < 8) :
    (BitVec.ofNat 64 s.recordBitLength).extractLsb' (8 * place s.be 8 i) 8 = s.memRead .record i := by
  have hbyte := Memory.readBytes_getElem? .record s.recMem 0 8 i
  rw [if_pos h, Nat.zero_add] at hbyte
  rw [State.recordBitLength, extractLsb'_fieldValue s.be (by simp) (by decide) h]
  exact (List.getElem_eq_iff _).2 hbyte

theorem bitAt_recordPacked (s : State) {n k : Nat} (h : k < 8 * n) :
    bitAt (s.recordPacked n) k = (s.memRead .record (8 + k / 8)).getLsbD (7 - k % 8) := by
  rw [bitAt, recordPacked_getElem? s (by omega), Option.getD_some]

theorem State.writeRecord_bitLen_toNat {s : State} {B : Bitstring} (crc : Word)
    (h : ceilDiv B.length 8 ≤ s.params.packCap) : (s.writeRecord B crc).bitLen.toNat = B.length := by
  have hcap := Params.packCap_le s.params
  have hceil := le_eight_mul_ceilDiv B.length
  rw [State.writeRecord_bitLen, BitVec.toNat_ofNat]
  omega

theorem State.memRead_writeRecord_outside (s : State) (B : Bitstring) (crc : Word) {i : Nat}
    (h : 12 + ceilDiv B.length 8 ≤ i) : (s.writeRecord B crc).memRead .record i = s.memRead .record i :=
  s.memRead_memWrite_outside (.inr (by simpa using h))

/-! ### ASCII bits (spec/00_scope.md R9) -/

theorem isAsciiBit_eq_true {c : Byte} : isAsciiBit c = true ↔ c = 0x30 ∨ c = 0x31 := by simp [isAsciiBit]

theorem isAsciiBit_eq_false {c : Byte} : isAsciiBit c = false ↔ c ≠ 0x30 ∧ c ≠ 0x31 := by simp [isAsciiBit]

/-- PACK's search finds nothing exactly when the text holds bit characters only (R190). -/
theorem State.findIdx?_badBit_eq_none {s : State} :
    s.textBytes.findIdx? (fun c => !isAsciiBit c) = none ↔
      ∀ i, i < s.textLen.toNat → s.memRead .text i = 0x30 ∨ s.memRead .text i = 0x31 := by
  simp only [State.findIdx?_textBytes_eq_none, Bool.not_eq_false', isAsciiBit_eq_true]

/-- PACK's search finds the first byte that is no bit character (R190). -/
theorem State.findIdx?_badBit_eq_some {s : State} {i : Nat} :
    s.textBytes.findIdx? (fun c => !isAsciiBit c) = some i ↔
      i < s.textLen.toNat ∧ (s.memRead .text i ≠ 0x30 ∧ s.memRead .text i ≠ 0x31) ∧
        ∀ j, j < i → s.memRead .text j = 0x30 ∨ s.memRead .text j = 0x31 := by
  simp only [State.findIdx?_textBytes_eq_some, Bool.not_eq_true', Bool.not_eq_false', isAsciiBit_eq_true,
    isAsciiBit_eq_false]

/-- Reading bit characters as bits and writing them out again changes nothing (R9). -/
theorem ascii_map_eq_self {T : List Byte} (h : ∀ c ∈ T, isAsciiBit c = true) :
    ascii (T.map fun c => c == 0x31) = T := by
  rw [ascii, List.map_map]
  refine (List.map_congr_left fun c hc => ?_).trans T.map_id
  obtain rfl | rfl := isAsciiBit_eq_true.1 (h c hc) <;> rfl

/-- The checksum of bit characters covers the text in both CRCSRC modes (R186, R190). -/
theorem State.recordCrc_of_isAsciiBit (s : State) {T : List Byte} (h : ∀ c ∈ T, isAsciiBit c = true) :
    s.recordCrc (T.map fun c => c == 0x31) T = crc32 T := by
  rw [State.recordCrc, State.checksummed, ascii_map_eq_self h, ite_self]

theorem ascii_getElem {B : Bitstring} {k : Nat} (h : k < (ascii B).length) :
    (ascii B)[k] = if B[k]?.getD false then 0x31 else 0x30 := by
  have hB : k < B.length := by simpa using h
  simp [ascii, asciiBit, hB]

end Sys2Proof.Machine
end

section
/-! SUPPORT. The checksum engine in the words of the statements (spec/43_bit_packer_crc.md R180). -/

namespace Sys2Proof.Machine

open Sys2Proof.Spec

/-- The model's inner iteration in the words of R180. -/
theorem crcShift_eq_crcIteration (c : Word) : crcShift c = crcIteration c := by
  have hbit : (c.getLsbD 0 = true) = (c.toNat % 2 = 1) := by simp [BitVec.getLsbD, Nat.testBit_zero]
  have hshift : c >>> 1 = BitVec.ofNat 32 (c.toNat / 2) := by
    refine BitVec.eq_of_toNat_eq ?_
    rw [BitVec.toNat_ushiftRight, Nat.shiftRight_one, BitVec.toNat_ofNat]
    omega
  simp only [crcShift, crcIteration, crcPoly, hbit, hshift]

theorem crcShifts_eq_iterate (n : Nat) (c : Word) : crcShifts n c = crcIteration^[n] c := by
  induction n generalizing c with
  | zero => rfl
  | succ n ih => rw [crcShifts, ih, crcShift_eq_crcIteration, Function.iterate_succ_apply]

theorem crc32_eq_crcOf (D : List Byte) : crc32 D = crcOf D := by
  have hbyte : crcByte = fun c d => crcIteration^[8] (c ^^^ d.setWidth 32) :=
    funext fun c => funext fun d => crcShifts_eq_iterate 8 _
  rw [crc32, crcRegister, hbyte, crcOf]

end Sys2Proof.Machine
end

section
/-! PROOFS. The statements on packing, the record, PACK, UNPACK and CRC (spec/43_bit_packer_crc.md R180 to R195). -/

open Sys2Proof Sys2Proof.Machine Sys2Proof.Spec

namespace Sys2Proof.Proofs

theorem exec_pack (s : State) : exec .pack s = (packBody s).outcome := rfl

theorem exec_unpack (s : State) : exec .unpack s = (unpackBody s).outcome := rfl

theorem exec_crc (s : State) : exec .crc s = (crcBody s).outcome := rfl

/-- Settles O29: the two byte sequences agree on the bits below `L`, so they differ in the padding or not at all. -/
theorem packUnpackRoundTrip : Obligations.PackUnpackRoundTrip := by
  unfold Obligations.PackUnpackRoundTrip
  exact ⟨unpackBits_packBits, fun _ _ => packBits_unpackBits_iff⟩

/-- Settles O31: the parse of the written record gives back each field, and so each byte at its place. -/
theorem writeRecordLaysOutRecord : Obligations.WriteRecordLaysOutRecord := by
  unfold Obligations.WriteRecordLaysOutRecord
  intro s B crc h N t
  refine ⟨State.writeRecord_recLen_toNat crc h, State.writeRecord_bitLen_toNat crc h, fun i hi => ?_,
    fun k hk => ?_, fun i hi => ?_, fun i hi => s.memRead_writeRecord_outside B crc hi, rfl⟩
  · rw [← recordBitLength_byte t hi, State.writeRecord_recordBitLength crc h, State.writeRecord_be]
  · rw [← bitAt_recordPacked t hk, State.writeRecord_recordPacked, bitAt_packBits]
  · rw [← recordChecksum_byte t N hi, State.writeRecord_recordChecksum, State.writeRecord_be]

/-- Settles O37: PACK's four ends exclude each other; the search stops at the first byte that is no bit character, and
where it finds none the ASCII bits are the text itself. -/
theorem packPacksAsciiBits : Obligations.PackPacksAsciiBits := by
  unfold Obligations.PackPacksAsciiBits
  intro s n
  simp only [← s.textBytes_eq_text, exec_pack, CmdEnd.outcome_eq_next]
  rcases packBody_cases s with
    ⟨hlong, hbody⟩ | ⟨hfits, i, hfind, hbody⟩ | ⟨hfits, hfind, hover, hbody⟩ | ⟨hfits, hfind, hpack, hbody⟩ <;>
    rw [hbody]
  · exact ⟨fun _ => rfl, fun hfits => absurd hlong (Nat.not_lt.2 hfits)⟩
  · obtain ⟨hi, ⟨h0, h1⟩, -⟩ := State.findIdx?_badBit_eq_some.1 hfind
    refine ⟨fun hlong => absurd hlong (Nat.not_lt.2 hfits), fun _ => ⟨fun j hj hj0 hj1 hbefore => ?_, fun hbits =>
      absurd (hbits i hi) (not_or.2 ⟨h0, h1⟩)⟩⟩
    have hfirst := State.findIdx?_badBit_eq_some.2 ⟨hj, ⟨hj0, hj1⟩, hbefore⟩
    rw [Option.some.inj (hfind.symm.trans hfirst), CmdEnd.complete_raised]
  · have hbits := State.findIdx?_badBit_eq_none.1 hfind
    exact ⟨fun hlong => absurd hlong (Nat.not_lt.2 hfits), fun _ =>
      ⟨fun i hi h0 h1 _ => absurd (hbits i hi) (not_or.2 ⟨h0, h1⟩), fun _ =>
        ⟨fun _ => rfl, fun hpack => absurd hover (Nat.not_lt.2 hpack)⟩⟩⟩
  · have hbits := State.findIdx?_badBit_eq_none.1 hfind
    have hcrc : s.recordCrc (s.textBytes.map fun c => c == 0x31) s.textBytes = crc32 s.textBytes :=
      s.recordCrc_of_isAsciiBit fun c hc => by simpa using List.findIdx?_eq_none_iff.1 hfind c hc
    rw [hcrc]
    exact ⟨fun hlong => absurd hlong (Nat.not_lt.2 hfits), fun _ =>
      ⟨fun i hi h0 h1 _ => absurd (hbits i hi) (not_or.2 ⟨h0, h1⟩), fun _ =>
        ⟨fun hover => absurd hover (Nat.not_lt.2 hpack), fun _ => rfl⟩⟩⟩

/-- Settles O38: UNPACK's three ends exclude each other, and a parsed record has as many bits as its header says. -/
theorem unpackWritesAsciiBits : Obligations.UnpackWritesAsciiBits := by
  unfold Obligations.UnpackWritesAsciiBits
  intro s
  simp only [exec_unpack, CmdEnd.outcome_eq_next]
  rcases unpackBody_cases s with ⟨hlong, hbody⟩ | ⟨hfits, hparse, hbody⟩ | ⟨hfits, r, hparse, hbody⟩ <;>
    rw [hbody]
  · exact ⟨fun _ => rfl, fun hfits => absurd hlong (Nat.not_lt.2 hfits),
      fun hfits => absurd hlong (Nat.not_lt.2 hfits)⟩
  · exact ⟨fun hlong => absurd hlong (Nat.not_lt.2 hfits), fun _ _ => rfl,
      fun _ r hr => nomatch hparse.symm.trans hr⟩
  · refine ⟨fun hlong => absurd hlong (Nat.not_lt.2 hfits), fun _ hr => (nomatch hparse.symm.trans hr),
      fun _ r' hr => ?_⟩
    obtain rfl := Option.some.inj (hparse.symm.trans hr)
    obtain ⟨-, -, -, -, hlen⟩ := parseRecord_eq_some hparse
    refine ⟨s.outMem.writeBytes 0 (ascii r.bits), rfl, fun k hk => ?_, fun k hk => ?_⟩
    · rw [← hlen, ← ascii_length] at hk
      have hread := Memory.read_writeBytes_inside (i := 0) hk .out s.outMem
      rwa [Nat.zero_add, ascii_getElem hk] at hread
    · exact Memory.read_writeBytes_outside (.inr (by simpa [hlen] using hk)) ..

/-- Settles O39: the model's eight shifts of a byte are R180's, and CRC's two ends exclude each other at TEXT_CAP. -/
theorem crcChecksumsText : Obligations.CrcChecksumsText := by
  unfold Obligations.CrcChecksumsText
  refine ⟨crc32_eq_crcOf, by decide, fun s => ?_⟩
  simp only [← s.textBytes_eq_text, exec_crc, CmdEnd.outcome_eq_next]
  rcases crcBody_cases s with ⟨hlong, hbody⟩ | ⟨hfits, hbody⟩ <;> rw [hbody]
  · exact ⟨fun _ => rfl, fun hfits => absurd hlong (Nat.not_lt.2 hfits)⟩
  · exact ⟨fun hlong => absurd hlong (Nat.not_lt.2 hfits), fun _ => rfl⟩

end Sys2Proof.Proofs
end

section
/-! SUPPORT. The walk over a leaf root, and how many symbols a walk emits (spec/44_decoder.md R210, R211). -/

namespace Sys2Proof.Machine

/-- Without a 1 the walk over a leaf root emits one symbol per bit. -/
theorem walkLeaf_of_no_one {B : Bitstring} (h : true ∉ B) (c : Byte) (k : Nat) :
    walkLeaf c B k = ⟨List.replicate B.length c, none⟩ := by
  have hB : B = List.replicate B.length false :=
    List.eq_replicate_iff.2 ⟨rfl, fun b hb => Bool.eq_false_of_not_eq_true fun h1 => h (h1 ▸ hb)⟩
  rw [hB, walkLeaf_replicate_false, List.length_replicate]

/-- The walk over a leaf root fails at the first 1, after one symbol per bit before it. -/
theorem walkLeaf_of_first_one {B : Bitstring} {n : Nat} (hone : B[n]? = some true) (hbefore : true ∉ B.take n)
    (c : Byte) (k : Nat) : walkLeaf c B k = ⟨List.replicate n c, some (k + n)⟩ := by
  induction B generalizing n k with
  | nil => simp at hone
  | cons b B ih =>
    cases n with
    | zero =>
      obtain rfl : b = true := by simpa using hone
      rfl
    | succ n =>
      rw [List.take_succ_cons, List.mem_cons, not_or] at hbefore
      obtain ⟨hb, hbefore⟩ := hbefore
      obtain rfl : b = false := Bool.eq_false_of_not_eq_true (Ne.symm hb)
      rw [List.getElem?_cons_succ] at hone
      rw [walkLeaf, if_neg Bool.false_ne_true, ih hone hbefore, WalkResult.emit, List.replicate_succ,
        Nat.add_assoc, Nat.add_comm 1]

theorem walkLeaf_symbols_length_le (c : Byte) (B : Bitstring) (k : Nat) :
    (walkLeaf c B k).symbols.length ≤ B.length := by
  induction B generalizing k with
  | nil => exact Nat.le_refl 0
  | cons b B ih =>
    cases b with
    | true => exact Nat.zero_le _
    | false => exact Nat.succ_le_succ (ih (k + 1))

theorem walkFrom_symbols_length_le (node : Nat → Node) (root rl rr : BitVec 9) (B : Bitstring)
    (cur l r : BitVec 9) (start k : Nat) :
    (walkFrom node root rl rr B cur l r start k).symbols.length ≤ B.length := by
  induction B generalizing cur l r start k with
  | nil => exact Nat.le_refl 0
  | cons b B ih =>
    cases hat : node (if b then r else l).toNat with
    | leaf c f =>
      simp only [walkFrom, hat]
      exact Nat.succ_le_succ (ih ..)
    | internal f l' r' =>
      simp only [walkFrom, hat]
      exact Nat.le_succ_of_le (ih ..)

theorem walk_of_leaf {node : Nat → Node} {root : BitVec 9} {c : Byte} {f : Word}
    (hroot : node root.toNat = .leaf c f) (B : Bitstring) : walk node root B = walkLeaf c B 0 := by
  simp [walk, hroot]

theorem walk_of_internal {node : Nat → Node} {root l r : BitVec 9} {f : Word}
    (hroot : node root.toNat = .internal f l r) (B : Bitstring) :
    walk node root B = walkFrom node root l r B root l r 0 0 := by
  simp [walk, hroot]

/-- Every emitted symbol takes at least one bit. -/
theorem walk_symbols_length_le (node : Nat → Node) (root : BitVec 9) (B : Bitstring) :
    (walk node root B).symbols.length ≤ B.length := by
  cases hroot : node root.toNat with
  | leaf c f =>
    rw [walk_of_leaf hroot]
    exact walkLeaf_symbols_length_le c B 0
  | internal f l r =>
    rw [walk_of_internal hroot]
    exact walkFrom_symbols_length_le ..

/-- A record within REC_CAP decodes to at most OUT_CAP symbols (R7, R73). -/
theorem walk_symbols_length_le_outCap {s : State} {r : ParsedRecord} (hfits : s.recLen.toNat ≤ s.params.recCap)
    (hparse : s.parseRecord = some r) :
    (walk s.node s.root r.bits).symbols.length ≤ s.params.outCap := by
  obtain ⟨hlen, -, -, -, hbits⟩ := parseRecord_eq_some hparse
  calc (walk s.node s.root r.bits).symbols.length
    _ ≤ r.bits.length := walk_symbols_length_le ..
    _ = r.length := hbits
    _ ≤ s.params.outCap := le_outCap_of_framed (hlen ▸ hfits)

end Sys2Proof.Machine
end

section
/-! PROOFS. The statements on the walk and on DECODE (spec/44_decoder.md R211 to R218). -/

open Sys2Proof Sys2Proof.Machine Sys2Proof.Spec

namespace Sys2Proof.Proofs

/-- Settles O28, by induction on the bits up to the first 1. -/
theorem leafRootWalk : Obligations.LeafRootWalk := by
  unfold Obligations.LeafRootWalk
  intro node root c f B hroot
  rw [walk_of_leaf hroot]
  refine ⟨fun hzeros => walkLeaf_of_no_one hzeros c 0, fun k hone hbefore => ?_⟩
  rw [walkLeaf_of_first_one hone hbefore, Nat.zero_add]

/-- Settles O40: DECODE's ends exclude each other, before the framing check and after it; the redrawn OUT is the draw
whose number is the counter, and a walk emits no more symbols than the record has bits. -/
theorem decodeWalksAndVerifies : Obligations.DecodeWalksAndVerifies := by
  unfold Obligations.DecodeWalksAndVerifies
  intro s
  simp only [exec_decode, CmdEnd.outcome_eq_next]
  rcases decodeBody_cases s with
    ⟨hlong, hbody⟩ | ⟨hfits, hinvalid, hbody⟩ | ⟨hfits, hvalid, hparse, hbody⟩ |
      ⟨hfits, hvalid, r, hparse, hbody⟩ <;>
    rw [hbody]
  · have hnot : ¬ s.recLen.toNat ≤ s.params.recCap := Nat.not_le.2 hlong
    exact ⟨fun _ => rfl, (absurd · hnot), (absurd · hnot), (absurd · hnot)⟩
  · exact ⟨(absurd · (Nat.not_lt.2 hfits)), fun _ _ => rfl, fun _ hvalid => (nomatch hinvalid.symm.trans hvalid),
      fun _ hvalid => nomatch hinvalid.symm.trans hvalid⟩
  · exact ⟨(absurd · (Nat.not_lt.2 hfits)), fun _ hinvalid => (nomatch hinvalid.symm.trans hvalid), fun _ _ _ => rfl,
      fun _ _ r hr => nomatch hparse.symm.trans hr⟩
  · refine ⟨(absurd · (Nat.not_lt.2 hfits)), fun _ hinvalid => (nomatch hinvalid.symm.trans hvalid),
      fun _ _ hnone => (nomatch hparse.symm.trans hnone), fun _ _ r' hr => ?_⟩
    obtain rfl := Option.some.inj (hparse.symm.trans hr)
    have hredrawn : (∀ i, (Memory.unspecified s.draws).written? i = none) ∧
        s.draws ≤ (Memory.unspecified s.draws).draw ∧ (Memory.unspecified s.draws).draw < s.draws + 1 :=
      ⟨Memory.written?_unspecified _, Nat.le_refl _, Nat.lt_succ_self _⟩
    rcases decodeParsed_cases s r with
      ⟨hdiffers, hends⟩ | ⟨hverified, p, hfailed, hends⟩ | ⟨hverified, hwalked, hends⟩ <;> rw [hends]
    · exact ⟨fun _ => ⟨_, _, rfl, hredrawn⟩, fun hcrc => absurd hcrc hdiffers, fun hcrc => absurd hcrc hdiffers⟩
    · refine ⟨fun hcrc => absurd hverified hcrc, fun _ p' hp' => ?_, fun _ hnone => (nomatch hfailed.symm.trans hnone)⟩
      obtain rfl := Option.some.inj (hfailed.symm.trans hp')
      exact ⟨_, _, rfl, hredrawn⟩
    · refine ⟨fun hcrc => absurd hverified hcrc, fun _ p hp => (nomatch hwalked.symm.trans hp), fun _ _ =>
        ⟨_, rfl, walk_symbols_length_le_outCap hfits hparse, fun i hi => ?_, fun i hi => ?_⟩⟩
      · have hread := Memory.read_writeBytes_inside (i := 0) hi .out s.outMem
        rw [Nat.zero_add] at hread
        rw [hread, List.getElem?_eq_getElem hi]
      · exact Memory.read_writeBytes_outside (.inr (by rwa [Nat.zero_add])) ..

end Sys2Proof.Proofs
end

section
/-! PROOFS. The statements on NOP and CLEAR (spec/45_control.md R241, R242). -/

open Sys2Proof Sys2Proof.Machine

namespace Sys2Proof.Proofs

theorem exec_nop (s : State) : exec .nop s = (CmdEnd.finished s).outcome := rfl

theorem exec_clear (s : State) : exec .clear s = (clearBody s).outcome := rfl

/-- CLEAR completes with OK on the state whose tables and result registers are back at their reset values. -/
theorem clearBody_complete (s : State) : (clearBody s).complete =
    { s.invalidateTree with freq := zeroFreq, outLen := 0, bitLen := 0, crcOut := 0 }.complete .ok 0 :=
  CmdEnd.complete_finished _

/-- Settles O13: NOP's body writes nothing, so what remains is the completion. -/
theorem nopOnlyCompletes : Obligations.NopOnlyCompletes := by
  unfold Obligations.NopOnlyCompletes
  intro s
  rw [exec_nop, CmdEnd.outcome_eq_next, CmdEnd.complete_finished, State.complete]

/-- Settles O14: the tables CLEAR leaves are `zeroFreq` and `noCodes`, whose entries are all zero and empty. -/
theorem clearReturnsTablesToReset : Obligations.ClearReturnsTablesToReset := by
  unfold Obligations.ClearReturnsTablesToReset
  intro s
  refine ⟨_, by rw [exec_clear, CmdEnd.outcome, clearBody_complete], fun c => ?_, fun c => ?_, ?_⟩
  · rw [State.complete_freq, zeroFreq_at]
  · rw [State.complete_codes, State.invalidateTree_codes, noCodes_at]
  · simp only [State.complete, State.invalidateTree]

end Sys2Proof.Proofs
end

section
/-! SUPPORT. Where a failed walk fails, and the error and position a command completes with (spec/44_decoder.md R212;
spec/60_exceptions.md R262, R264). -/

namespace Sys2Proof.Machine

/-! ### The failure position of a walk lies within the bits -/

theorem walkLeaf_failure_lt {c : Byte} {B : Bitstring} {k p : Nat} (h : (walkLeaf c B k).failure = some p) :
    p < k + B.length := by
  induction B generalizing k with
  | nil => cases h
  | cons b B ih =>
    rw [List.length_cons]
    cases b with
    | true =>
      obtain rfl : k = p := Option.some.inj h
      omega
    | false =>
      have hp : p < k + 1 + B.length := ih h
      omega

/-- The codeword under way starts at or before the next bit, and before it once the walk has left the root. -/
theorem walkFrom_failure_lt {node : Nat → Node} {root rl rr cur l r : BitVec 9} {B : Bitstring} {start k p : Nat}
    (hstart : start ≤ k) (hcur : cur ≠ root → start < k)
    (h : (walkFrom node root rl rr B cur l r start k).failure = some p) : p < k + B.length := by
  induction B generalizing cur l r start k with
  | nil =>
    obtain ⟨hne, hp⟩ : cur ≠ root ∧ start = p := by simpa [walkFrom] using h
    exact hp ▸ hcur hne
  | cons b B ih =>
    have hp : p < k + 1 + B.length := by
      cases hat : node (if b then r else l).toNat with
      | leaf c f =>
        simp only [walkFrom, hat] at h
        exact ih (Nat.le_refl _) (absurd rfl) h
      | internal f l' r' =>
        simp only [walkFrom, hat] at h
        exact ih (Nat.le_succ_of_le hstart) (fun _ => Nat.lt_succ_of_le hstart) h
    rw [List.length_cons]
    omega

theorem walk_failure_lt {node : Nat → Node} {root : BitVec 9} {B : Bitstring} {p : Nat}
    (h : (walk node root B).failure = some p) : p < B.length := by
  rw [← Nat.zero_add B.length]
  cases hroot : node root.toNat with
  | leaf c f =>
    rw [walk_of_leaf hroot] at h
    exact walkLeaf_failure_lt h
  | internal f l r =>
    rw [walk_of_internal hroot] at h
    exact walkFrom_failure_lt (Nat.le_refl 0) (absurd rfl) h

/-! ### ERRPOS holds every position (R264) -/

theorem Params.outCap_lt (p : Params) : p.outCap < 2 ^ 32 := by
  have hcap := Params.packCap_le p
  rw [Params.outCap]
  omega

theorem State.findIdx?_textBytes_toNat {s : State} {q : Byte → Bool} {i : Nat}
    (h : s.textBytes.findIdx? q = some i) : s.textBytes.findIdx? q = some (BitVec.ofNat 32 i).toNat := by
  obtain ⟨hi, -, -⟩ := State.findIdx?_textBytes_eq_some.1 h
  rw [h, BitVec.toNat_ofNat, Nat.mod_eq_of_lt (hi.trans s.textLen.isLt)]

/-! ### The ends of a command by error and position -/

/-- The errors `e` and positions `p` with which the command `i` can complete in `s`. -/
inductive Reported (i : Instr) (s : State) : (e : ErrCode) → (p : Word) → Prop where
  | unpositioned (e : ErrCode) (he : e ≠ .noCode ∧ e ≠ .badBit ∧ e ≠ .malformedWalk) : Reported i s e 0
  | noCode {p : Word} (hi : i = .emit)
      (hp : s.textBytes.findIdx? (fun c => (s.codes.at c).isEmpty) = some p.toNat) : Reported i s .noCode p
  | badBit {p : Word} (hi : i = .pack)
      (hp : s.textBytes.findIdx? (fun c => !isAsciiBit c) = some p.toNat) : Reported i s .badBit p
  | malformedWalk {p : Word} {r : ParsedRecord} (hi : i = .decode) (hr : s.parseRecord = some r)
      (hp : (walk s.node s.root r.bits).failure = some p.toNat) : Reported i s .malformedWalk p

/-- How a command's body ends is among the ends `Reported` lists. -/
def CmdEnd.ReportedBy (i : Instr) (s : State) (r : CmdEnd) : Prop := Reported i s r.complete.err r.complete.errPos

theorem CmdEnd.reportedBy_finished (i : Instr) (s t : State) : (CmdEnd.finished t).ReportedBy i s :=
  .unpositioned .ok (by decide)

theorem countBody_reported (s : State) : (countBody s).ReportedBy .count s := by
  rcases countBody_cases s with ⟨-, h⟩ | ⟨-, h⟩ <;> rw [h]
  · exact .unpositioned .lenRange (by decide)
  · exact CmdEnd.reportedBy_finished ..

theorem buildBody_reported (s : State) : (buildBody s).ReportedBy .build s := by
  rcases buildBody_cases s with ⟨-, h⟩ | ⟨-, -, h⟩ | ⟨-, -, h⟩ <;> rw [h]
  · exact .unpositioned .emptyInput (by decide)
  · exact .unpositioned .freqOverflow (by decide)
  · exact CmdEnd.reportedBy_finished ..

theorem emitBody_reported (s : State) : (emitBody s).ReportedBy .emit s := by
  rcases emitBody_cases s with
    ⟨-, h⟩ | ⟨-, -, h⟩ | ⟨-, -, i, hfind, h⟩ | ⟨-, -, -, -, h⟩ | ⟨-, -, -, -, h⟩ <;> rw [h]
  · exact .unpositioned .lenRange (by decide)
  · exact .unpositioned .notReady (by decide)
  · exact .noCode rfl (State.findIdx?_textBytes_toNat hfind)
  · exact .unpositioned .packOverflow (by decide)
  · exact CmdEnd.reportedBy_finished ..

theorem encodeBody_reported (s : State) : (encodeBody s).ReportedBy .encode s := by
  rcases encodeBody_cases s with ⟨-, h⟩ | ⟨-, h⟩ | ⟨-, -, -, h⟩ | ⟨-, -, -, h⟩ <;> rw [h]
  · exact .unpositioned .lenRange (by decide)
  · exact .unpositioned .emptyInput (by decide)
  · exact .unpositioned .packOverflow (by decide)
  · exact CmdEnd.reportedBy_finished ..

/-- The failure position is below the record's bits, of which a record within REC_CAP has fewer than 2^32. -/
theorem decodeBody_reported (s : State) : (decodeBody s).ReportedBy .decode s := by
  rcases decodeBody_cases s with ⟨-, h⟩ | ⟨-, -, h⟩ | ⟨-, -, -, h⟩ | ⟨hfits, -, r, hparse, h⟩ <;> rw [h]
  · exact .unpositioned .lenRange (by decide)
  · exact .unpositioned .notReady (by decide)
  · exact .unpositioned .malformedLen (by decide)
  · rcases decodeParsed_cases s r with ⟨-, hend⟩ | ⟨-, p, hfailed, hend⟩ | ⟨-, -, hend⟩ <;> rw [hend]
    · exact .unpositioned .integrity (by decide)
    · obtain ⟨hframed, -, -, -, hbits⟩ := parseRecord_eq_some hparse
      have hp : p < 2 ^ 32 := calc
        p < r.bits.length := walk_failure_lt hfailed
        _ = r.length := hbits
        _ ≤ s.params.outCap := le_outCap_of_framed (hframed ▸ hfits)
        _ < 2 ^ 32 := Params.outCap_lt s.params
      refine .malformedWalk rfl hparse ?_
      rw [hfailed, CmdEnd.clearOutLenOnRaise_raised, CmdEnd.complete_raised, State.complete_errPos,
        BitVec.toNat_ofNat, Nat.mod_eq_of_lt hp]
    · exact CmdEnd.reportedBy_finished ..

theorem packBody_reported (s : State) : (packBody s).ReportedBy .pack s := by
  rcases packBody_cases s with ⟨-, h⟩ | ⟨-, i, hfind, h⟩ | ⟨-, -, -, h⟩ | ⟨-, -, -, h⟩ <;> rw [h]
  · exact .unpositioned .lenRange (by decide)
  · exact .badBit rfl (State.findIdx?_textBytes_toNat hfind)
  · exact .unpositioned .packOverflow (by decide)
  · exact CmdEnd.reportedBy_finished ..

theorem unpackBody_reported (s : State) : (unpackBody s).ReportedBy .unpack s := by
  rcases unpackBody_cases s with ⟨-, h⟩ | ⟨-, -, h⟩ | ⟨-, r, -, h⟩ <;> rw [h]
  · exact .unpositioned .lenRange (by decide)
  · exact .unpositioned .malformedLen (by decide)
  · exact CmdEnd.reportedBy_finished ..

theorem crcBody_reported (s : State) : (crcBody s).ReportedBy .crc s := by
  rcases crcBody_cases s with ⟨-, h⟩ | ⟨-, h⟩ <;> rw [h]
  · exact .unpositioned .lenRange (by decide)
  · exact CmdEnd.reportedBy_finished ..

/-- Every command completes with an error and a position that `Reported` lists. -/
theorem exec_reported (i : Instr) (s : State) : ∃ t, exec i s = .next t ∧ Reported i s t.err t.errPos := by
  cases i with
  | nop => exact ⟨_, rfl, CmdEnd.reportedBy_finished .nop s s⟩
  | clear => exact ⟨_, rfl, CmdEnd.reportedBy_finished .clear s _⟩
  | count => exact ⟨_, rfl, countBody_reported s⟩
  | build => exact ⟨_, rfl, buildBody_reported s⟩
  | emit => exact ⟨_, rfl, emitBody_reported s⟩
  | encode => exact ⟨_, rfl, encodeBody_reported s⟩
  | decode => exact ⟨_, rfl, decodeBody_reported s⟩
  | pack => exact ⟨_, rfl, packBody_reported s⟩
  | unpack => exact ⟨_, rfl, unpackBody_reported s⟩
  | crc => exact ⟨_, rfl, crcBody_reported s⟩

theorem Reported.pos_of_ok {i : Instr} {s : State} {p : Word} (h : Reported i s .ok p) : p = 0 := by
  cases h
  rfl

/-! ### After a completion -/

/-- The latch is empty, so the engine has nothing to execute (R49, R262). -/
theorem State.complete_turn_ne_engine (s : State) (e : ErrCode) (p w : Word) : (s.complete e p).turn ≠ .engine w := by
  intro h
  obtain ⟨hfetched, -⟩ := State.turn_eq_engine.1 h
  obtain ⟨hbusy, -, -⟩ := State.fetched_eq_some.1 hfetched
  rw [State.complete_busy] at hbusy
  cases hbusy

theorem State.lockedOut_of_not_busy {s : State} (h : s.busy = false) (t : Transaction) :
    s.lockedOut t = s.inReset := by
  simp [State.lockedOut, h]

end Sys2Proof.Machine
end

section
/-! PROOFS. The statements on completion and the error position (spec/60_exceptions.md R262, R264). -/

open Sys2Proof Sys2Proof.Machine

namespace Sys2Proof.Proofs

/-- Settles O8, by the ends `Reported` lists: a search of the text stops at the first index with its property, and a
walk fails within the record's bits. -/
theorem errorPositionReported : Obligations.ErrorPositionReported := by
  unfold Obligations.ErrorPositionReported
  intro i s
  obtain ⟨t, hexec, hreported⟩ := exec_reported i s
  refine ⟨t, hexec, ?_⟩
  generalize t.err = e, t.errPos = p at hreported ⊢
  cases hreported with
  | unpositioned _ he =>
    obtain ⟨hnoCode, hbadBit, hwalk⟩ := he
    exact ⟨fun _ _ _ => rfl, (absurd · hnoCode), (absurd · hbadBit), (absurd · hwalk)⟩
  | noCode hi hp =>
    obtain ⟨hlt, hempty, hbefore⟩ := State.findIdx?_textBytes_eq_some.1 hp
    exact ⟨(absurd rfl ·), fun _ => ⟨hi, hlt, List.isEmpty_iff.1 hempty, fun j hj =>
      List.isEmpty_eq_false_iff.1 (hbefore j hj)⟩, nofun, nofun⟩
  | badBit hi hp =>
    exact ⟨fun _ h => absurd rfl h, nofun, fun _ => ⟨hi, State.findIdx?_badBit_eq_some.1 hp⟩, nofun⟩
  | @malformedWalk _ r hi hr hp =>
    obtain ⟨-, -, -, -, hbits⟩ := parseRecord_eq_some hr
    exact ⟨fun _ _ h => absurd rfl h, nofun, nofun, fun _ => ⟨hi, r, hr, hp, hbits ▸ walk_failure_lt hp⟩⟩

/-- Settles O7: a command ends in a completion from a state that has kept the host's side, and completes with OK at
position 0 only. -/
theorem completionStepWrites : Obligations.CompletionStepWrites := by
  unfold Obligations.CompletionStepWrites
  refine ⟨fun s e p => rfl, fun s => rfl, fun i s => ?_⟩
  obtain ⟨r, e, p, hexec, hside⟩ := exec_eq_complete i s
  obtain ⟨t, hexec', hreported⟩ := exec_reported i s
  obtain rfl : r.complete e p = t := Host.Outcome.next.inj (hexec.symm.trans hexec')
  refine ⟨r, e, p, hexec, fun hok => Reported.pos_of_ok (hok ▸ hreported), r.complete_turn_ne_engine e p,
    hside.inReset, fun t => ?_⟩
  rw [State.lockedOut_of_not_busy rfl, State.complete_inReset, hside.inReset]

end Sys2Proof.Proofs
end

section
/-! SUPPORT. What the host can see under an asserted reset input and after its release
(spec/70_reset_and_hazards.md R290 to R292). -/

namespace Sys2Proof.Machine

/-! ### Under `rst` (R290) -/

theorem State.lockedOut_of_inReset {s : State} (h : s.inReset = true) (t : Transaction) :
    s.lockedOut t = true := by
  simp [State.lockedOut, h]

theorem State.hostRead_of_inReset {s : State} (h : s.inReset = true) (a : Word) (size : AccessSize) :
    s.hostRead a size = .busError :=
  State.hostRead_of_lockedOut (State.lockedOut_of_inReset h _)

theorem State.hostWrite_of_inReset {s : State} (h : s.inReset = true) (a : Word) (size : AccessSize) (v : Word) :
    s.hostWrite a size v = (s, .busError) :=
  if_pos (State.lockedOut_of_inReset h _)

/-! ### The reset values (R291) -/

@[simp] theorem natOfBits_nil (n : Nat) : natOfBits n [] = 0 := by
  cases n <;> rfl

@[simp] theorem msbFirst_nil (n : Nat) : msbFirst n [] = 0 := by
  simp [msbFirst]

@[simp] theorem State.resetWith_codes_at (p : Params) (d : Nat) (c : Byte) :
    (State.resetWith p d).codes.at c = [] := noCodes_at c

/-- No node and no code is selected, and every register but ID is stored as 0 or computed from what is. -/
theorem State.resetWith_regValue (p : Params) (d : Nat) (r : Reg) :
    (State.resetWith p d).regValue r = if r = .id then 0x48460001 else 0 := by
  have hnode : (State.resetWith p d).selectedNode = none := State.selectedNode_of_le (Nat.le_refl 0)
  have hcode : (State.resetWith p d).selectedCode = [] := State.resetWith_codes_at p d 0
  cases r with
  | nodeFreq | nodeInfo => simp [State.regValue, hnode]
  | codeLen | codeBits => simp [State.regValue, hcode]
  | freq c => exact zeroFreq_at c
  | ctrl => simp [State.regValue, State.ctrlWord, State.resetWith]
  | status => simp [State.regValue, State.statusWord, State.resetWith, ErrCode.code]
  | bitLenHi => simp [State.regValue, State.resetWith]
  | _ => rfl

/-! ### `rst` asserted and released -/

/-- The core has its reset values; the inputs to come and the last response are not the core's. -/
theorem State.deassertReset_assertReset (s : State) :
    s.assertReset.deassertReset =
      { State.resetWith s.params s.draws with inputs := s.inputs, response := s.response } := rfl

@[simp] theorem State.deassertReset_assertReset_mem (s : State) (sp : Space) :
    s.assertReset.deassertReset.mem sp = Memory.unspecified s.draws := by
  cases sp <;> rfl

theorem State.deassertReset_assertReset_regValue (s : State) (r : Reg) :
    s.assertReset.deassertReset.regValue r = if r = .id then 0x48460001 else 0 := by
  rw [← State.resetWith_regValue s.params s.draws r, State.deassertReset_assertReset]
  cases r <;> rfl

end Sys2Proof.Machine
end

section
/-! PROOFS. The statement on the reset input (spec/70_reset_and_hazards.md R290 to R292). -/

open Sys2Proof Sys2Proof.Machine

namespace Sys2Proof.Proofs

/-- Settles O54: an asserted `rst` locks every transaction out, and a released one leaves the reset values, with
the memories of one fresh draw. -/
theorem assertedResetTakesEveryResetValue : Obligations.AssertedResetTakesEveryResetValue := by
  unfold Obligations.AssertedResetTakesEveryResetValue
  intro s t u
  have hreset : t.inReset = true := rfl
  have hmem (sp : Space) : u.mem sp = Memory.unspecified s.draws := s.deassertReset_assertReset_mem sp
  refine ⟨hreset, fun a size => ⟨t.hostRead_of_inReset hreset a size, t.hostWrite_of_inReset hreset a size⟩,
    rfl, rfl, rfl, rfl, rfl, rfl, rfl, rfl, s.deassertReset_assertReset_regValue,
    State.resetWith_codes_at s.params s.draws, fun sp => ?_, State.lockedOut_of_idle rfl rfl⟩
  rw [hmem sp]
  exact ⟨Memory.written?_unspecified s.draws, Nat.le_refl s.draws, Nat.lt_succ_self s.draws⟩

end Sys2Proof.Proofs
end

section
/-! SUPPORT. The frequencies of the tree BUILD makes (spec/41_code_tree_builder.md R132): while the sum of all
frequencies fits 32 bits, no pass of the merging loop wraps. -/

namespace Sys2Proof.Machine

open Sys2Proof.Spec

theorem getElem?_append_of_eq_some {α : Type} {xs : List α} {i : Nat} {x : α} (h : xs[i]? = some x) (ys : List α) :
    (xs ++ ys)[i]? = some x := by
  rw [List.getElem?_append_left (List.getElem?_eq_some_iff.1 h).1, h]

/-- Every internal node's frequency is the exact sum of its children's. -/
def FreqsAdd (ns : List Node) : Prop :=
  ∀ (i : Nat) (f : Word) (l r : BitVec 9), ns[i]? = some (.internal f l r) →
    ∃ x y, ns[l.toNat]? = some x ∧ ns[r.toNat]? = some y ∧ f.toNat = (nodeFreq x).toNat + (nodeFreq y).toNat

/-- What holds of the frequencies between two passes over the leaves `ls`, beside `MergeInv`: an entry's key has the
frequency of its node, the waiting frequencies add up to `n`, and no sum has wrapped. -/
structure FreqInv (ls : List Node) (n : Nat) (ns : List Node) (q : List QueueEntry) : Prop where
  shape : MergeInv ls ns q
  queued : ∀ e ∈ q, ∃ x, ns[e.index]? = some x ∧ nodeFreq x = e.freq
  waiting : (q.map fun e => e.freq.toNat).sum = n
  add : FreqsAdd ns

/-- The symbols that do not occur add nothing to the sum. -/
theorem sum_coded_freqs (F : Table Word) :
    ((allSymbols.filter fun c => F.at c != 0).map fun c => (F.at c).toNat).sum = total F := by
  have hsplit := List.sum_map_filter_add_sum_map_filter_not (fun c => (F.at c != 0) = true)
    (fun c => (F.at c).toNat) allSymbols
  have hzero : ((allSymbols.filter fun c => ¬ (F.at c != 0) = true).map fun c => (F.at c).toNat).sum = 0 :=
    List.sum_eq_zero fun n hn => by
      obtain ⟨c, hc, rfl⟩ := List.mem_map.1 hn
      simp_all
  rw [hzero, add_zero] at hsplit
  rw [total, ← hsplit]
  simp only [Bool.decide_eq_true]

theorem freqInv_leaves (F : Table Word) :
    FreqInv (leafNodes F) (total F) (leafNodes F) (leafQueue (leafNodes F)) where
  shape := mergeInv_leaves F
  queued := fun e he => by
    obtain ⟨i, hi⟩ := List.getElem?_of_mem he
    obtain ⟨n, hn, rfl⟩ : ∃ n, (leafNodes F)[i]? = some n ∧ (⟨nodeFreq n, i⟩ : QueueEntry) = e := by
      simpa [leafQueue] using hi
    exact ⟨n, hn, rfl⟩
  waiting := by
    have hfreqs : (leafQueue (leafNodes F)).map (fun e => e.freq.toNat) =
        (leafNodes F).map fun n => (nodeFreq n).toNat := by
      refine List.ext_getElem (by simp [leafQueue]) fun i _ _ => by simp [leafQueue]
    rw [hfreqs, leafNodes_eq, List.map_map, ← sum_coded_freqs]
    rfl
  add := fun i f l r hi => by
    obtain ⟨c, -, hc⟩ := mem_leafNodes.1 (List.mem_of_getElem? hi)
    cases hc

theorem FreqsAdd.append_joinedNode {ns : List Node} (h : FreqsAdd ns) {a b : QueueEntry} {x y : Node}
    (ha : a.index < 512) (hb : b.index < 512) (hx : ns[a.index]? = some x ∧ nodeFreq x = a.freq)
    (hy : ns[b.index]? = some y ∧ nodeFreq y = b.freq)
    (hadd : (a.freq + b.freq).toNat = a.freq.toNat + b.freq.toNat) : FreqsAdd (ns ++ [joinedNode a b]) := by
  intro i f l r hi
  obtain hlt | hge := Nat.lt_or_ge i ns.length
  · rw [List.getElem?_append_left hlt] at hi
    obtain ⟨x, y, hx, hy, hf⟩ := h i f l r hi
    exact ⟨x, y, getElem?_append_of_eq_some hx _, getElem?_append_of_eq_some hy _, hf⟩
  · rw [List.getElem?_append_right hge, List.getElem?_singleton] at hi
    obtain ⟨-, hn⟩ := Option.ite_none_right_eq_some.1 hi
    cases hn
    rw [BitVec.toNat_ofNat, BitVec.toNat_ofNat, Nat.mod_eq_of_lt ha, Nat.mod_eq_of_lt hb]
    exact ⟨x, y, getElem?_append_of_eq_some hx.1 _, getElem?_append_of_eq_some hy.1 _, by rw [hx.2, hy.2, hadd]⟩

theorem FreqInv.pass {ls ns : List Node} {q rest : List QueueEntry} {a b : QueueEntry} {n : Nat}
    (hls : ls.length ≤ 256) (hn : n ≤ 0xFFFFFFFF) (h : FreqInv ls n ns q) (hperm : q.Perm (a :: b :: rest)) :
    FreqInv ls n (ns ++ [joinedNode a b]) (rest ++ [⟨a.freq + b.freq, ns.length⟩]) := by
  have ha : a ∈ q := hperm.mem_iff.2 (by simp)
  have hb : b ∈ q := hperm.mem_iff.2 (by simp)
  have hq : q.length = rest.length + 2 := hperm.length_eq
  have hsize := h.shape.size
  have hwait : a.freq.toNat + (b.freq.toNat + (rest.map fun e => e.freq.toNat).sum) = n := by
    simpa [(hperm.map _).sum_eq] using h.waiting
  have hadd : (a.freq + b.freq).toNat = a.freq.toNat + b.freq.toNat := by
    rw [BitVec.toNat_add, Nat.mod_eq_of_lt (by omega)]
  obtain ⟨x, hx⟩ := h.queued a ha
  obtain ⟨y, hy⟩ := h.queued b hb
  refine ⟨h.shape.pass hls hperm, fun e he => ?_, ?_, ?_⟩
  · obtain he | he := List.mem_append.1 he
    · obtain ⟨z, hz, hfreq⟩ := h.queued e (hperm.mem_iff.2 (by simp [he]))
      exact ⟨z, getElem?_append_of_eq_some hz _, hfreq⟩
    · cases List.mem_singleton.1 he
      exact ⟨joinedNode a b, List.getElem?_concat_length, rfl⟩
  · rw [List.map_append, List.sum_append, List.map_singleton, List.sum_singleton, hadd]
    omega
  · exact h.add.append_joinedNode (by have := h.shape.index_lt ha; omega) (by have := h.shape.index_lt hb; omega)
      hx hy hadd

/-- A relation of nodes and queue that entails `MergeInv`, holds of the leaves and is kept by every pass holds at the
end of the loop, where the root waits alone. -/
theorem buildNodes_invariant {F : Table Word} (hF : distinct F ≠ 0) {P : List Node → List QueueEntry → Prop}
    (hshape : ∀ ns q, P ns q → MergeInv (leafNodes F) ns q) (hleaves : P (leafNodes F) (leafQueue (leafNodes F)))
    (hpass : ∀ ns q a b rest, P ns q → q.Perm (a :: b :: rest) →
      P (ns ++ [joinedNode a b]) (rest ++ [⟨a.freq + b.freq, ns.length⟩])) :
    ∃ e, e.index = 2 * distinct F - 2 ∧ P (buildNodes F) [e] := by
  obtain ⟨q, hq, h⟩ := mergeNodes_invariant hpass (k := (leafNodes F).length) hleaves
    (by rw [leafQueue_length]; omega)
  rw [← buildNodes] at h
  have hlen := buildNodes_length hF
  obtain ⟨e, he, hroot⟩ := (hshape _ _ h).last_queued (List.ne_nil_of_length_pos (by omega))
  obtain ⟨x, rfl⟩ : ∃ x, q = [x] := List.length_eq_one_iff.1 (by have := List.length_pos_of_mem he; omega)
  cases List.mem_singleton.1 he
  exact ⟨e, by omega, h⟩

/-- The root waits alone at the end, so its frequency is the sum of all. -/
theorem buildNodes_freqInv {F : Table Word} (hF : distinct F ≠ 0) (hsum : total F ≤ 0xFFFFFFFF) :
    ∃ e, e.index = 2 * distinct F - 2 ∧ FreqInv (leafNodes F) (total F) (buildNodes F) [e] :=
  buildNodes_invariant hF (fun _ _ h => h.shape) (freqInv_leaves F) fun _ _ _ _ _ h hperm =>
    h.pass ((leafNodes_length F).trans_le (distinct_le F)) hsum hperm

end Sys2Proof.Machine
end

section
/-! PROOFS. The statement on the shape of the built tree (spec/41_code_tree_builder.md section 4, items 1 to 3). -/

open Sys2Proof Sys2Proof.Machine Sys2Proof.Spec

namespace Sys2Proof.Proofs

/-- Settles O21, by the two relations every merge pass keeps, `MergeInv` for the shape and `FreqInv` for the sums,
at the end of the loop, where the root waits alone. -/
theorem builtTreeHasItsShape : Obligations.BuiltTreeHasItsShape := by
  unfold Obligations.BuiltTreeHasItsShape
  intro F hF hsum
  obtain ⟨e, hroot, h⟩ := buildNodes_freqInv hF hsum
  refine ⟨buildNodes_length hF, ?_, fun i f l r hi => ?_, fun j hj => ?_, ?_⟩
  · rw [List.countP_eq_length_filter, h.shape.leaves, leafNodes_length]
  · obtain ⟨hl, hr⟩ := h.shape.below i f l r hi
    exact ⟨hl, hr, h.add i f l r hi⟩
  · rw [(childIndices_buildNodes_perm hF).count_eq]
    exact List.count_eq_one_of_mem List.nodup_range (List.mem_range.2 hj)
  · obtain ⟨x, hx, hfreq⟩ := h.queued e (List.mem_singleton_self e)
    exact ⟨x, hroot ▸ hx, by rw [hfreq, ← h.waiting]; simp⟩

end Sys2Proof.Proofs
end

section
/-! SUPPORT. How long a root-to-leaf path is, and that no path to a leaf goes on past it
(spec/41_code_tree_builder.md section 4, items 4 and 6). -/

namespace Sys2Proof.Machine

open Sys2Proof.Spec

/-- The nodes of the tree of a table, as an arena of their own. -/
def builtNode (F : Table Word) (i : Nat) : Node := ((buildNodes F)[i]?).getD default

theorem arenaHolds_builtNode (F : Table Word) : ArenaHolds (builtNode F) (buildNodes F) :=
  fun i n hi => by rw [builtNode, hi, Option.getD_some]

/-- The internal nodes stand behind the leaves. -/
theorem distinct_le_of_internal {F : Table Word} {i : Nat} {f : Word} {l r : BitVec 9}
    (h : (buildNodes F)[i]? = some (.internal f l r)) : distinct F ≤ i := by
  by_contra hlt
  have hi : i < (leafNodes F).length := by rw [leafNodes_length]; omega
  obtain ⟨rest, hrest⟩ := leafNodes_prefix_buildNodes F
  rw [← hrest, List.getElem?_append_left hi] at h
  obtain ⟨c, -, hc⟩ := mem_leafNodes.1 (List.mem_of_getElem? h)
  cases hc

/-- A path visits internal nodes of falling index, of which those from the leaves up to `v` are `v + 1 - K`. -/
theorem LeadsToLeaf.length_le {F : Table Word} (hF : distinct F ≠ 0) {node : Nat → Node}
    (hnode : ArenaHolds node (buildNodes F)) {p : Bitstring} {v : Nat} {c : Byte} {f : Word}
    (hv : v < (buildNodes F).length) (h : LeadsToLeaf node v p c f) : p = [] ∨ p.length + distinct F ≤ v + 1 := by
  induction p generalizing v with
  | nil => exact .inl rfl
  | cons b p ih =>
    cases hat : node v with
    | leaf d g => cases ((leadsToLeaf_of_leaf hat).1 h).1
    | internal g l r =>
      have hget : (buildNodes F)[v]? = some (.internal g l r) := hat ▸ hnode.getElem? hv
      have hK := distinct_le_of_internal hget
      have hchild : (if b then r else l).toNat < v := by
        obtain ⟨hl, hr⟩ := buildNodes_childrenBelow hF v g l r hget
        cases b <;> assumption
      rw [List.length_cons]
      obtain rfl | hlen := ih (hchild.trans hv) ((leadsToLeaf_cons_of_internal hat).1 h)
      · exact .inr (by rw [List.length_nil]; omega)
      · exact .inr (by omega)

/-- A path that goes on from a leaf ends there. -/
theorem LeadsToLeaf.eq_of_append {node : Nat → Node} {v : Nat} {p p' : Bitstring} {c d : Byte} {f g : Word}
    (h : LeadsToLeaf node v p c f) (h' : LeadsToLeaf node v (p ++ p') d g) : c = d := by
  obtain ⟨i, hi, hleaf⟩ := h
  obtain ⟨j, hj, hleaf'⟩ := h'
  rw [descend_append, hi, Option.bind_some] at hj
  obtain ⟨-, hd, -⟩ := (leadsToLeaf_of_leaf hleaf).1 ⟨j, hj, hleaf'⟩
  exact hd.symm

theorem codesOf_at_ne_nil_iff {F : Table Word} (hF : distinct F ≠ 0) {c : Byte} :
    (codesOf F).at c ≠ [] ↔ F.at c ≠ 0 :=
  ⟨mt (codesOf_at_eq_nil hF), codesOf_at_ne_nil⟩

theorem codesOf_length_le {F : Table Word} (hK : 2 ≤ distinct F) (c : Byte) :
    ((codesOf F).at c).length ≤ distinct F - 1 := by
  have hF : distinct F ≠ 0 := by omega
  by_cases hc : F.at c = 0
  · rw [codesOf_at_eq_nil hF hc, List.length_nil]
    omega
  · have hroot : 2 * distinct F - 2 < (buildNodes F).length := by rw [buildNodes_length hF]; omega
    have hpath := codesOf_leadsToLeaf hK (arenaHolds_builtNode F) hc
    obtain hnil | hlen := hpath.length_le hF (arenaHolds_builtNode F) hroot
    · exact absurd hnil (codesOf_at_ne_nil hc)
    · omega

theorem codesOf_length_le_255 {F : Table Word} (hF : distinct F ≠ 0) (c : Byte) :
    ((codesOf F).at c).length ≤ 255 := by
  obtain hK | hK : distinct F = 1 ∨ 2 ≤ distinct F := by omega
  · obtain ⟨d, hd, hother⟩ := exists_only_symbol hK
    by_cases hc : c = d
    · simp [hc, codesOf_only_symbol hd hother]
    · simp [codesOf_at_eq_nil hF (hother c hc)]
  · have hlen := codesOf_length_le hK c
    have hle := distinct_le F
    omega

theorem codesOf_prefix_free {F : Table Word} (hF : distinct F ≠ 0) {c d : Byte} (hne : c ≠ d)
    (hcode : (codesOf F).at c ≠ []) : ¬ (codesOf F).at c <+: (codesOf F).at d := by
  intro hprefix
  have hc := (codesOf_at_ne_nil_iff hF).1 hcode
  have hd := (codesOf_at_ne_nil_iff hF).1 (hprefix.ne_nil hcode)
  obtain hK | hK : distinct F = 1 ∨ 2 ≤ distinct F := by omega
  · obtain ⟨e, -, hother⟩ := exists_only_symbol hK
    exact hne ((not_imp_comm.1 (hother c) hc).trans (not_imp_comm.1 (hother d) hd).symm)
  · have hpath := codesOf_leadsToLeaf hK (arenaHolds_builtNode F) hc
    have hpath' := codesOf_leadsToLeaf hK (arenaHolds_builtNode F) hd
    obtain ⟨p', hp'⟩ := hprefix
    exact hne (hpath.eq_of_append (hp' ▸ hpath'))

end Sys2Proof.Machine
end

section
/-! SUPPORT. The code generator lists every symbol that occurs exactly once, and the codes it lists fill the tree
(spec/41_code_tree_builder.md section 4, item 5). -/

namespace Sys2Proof.Machine

open Sys2Proof.Spec

/-- The symbols below a node, from left to right; the recursion needs no more steps than the node's index. -/
def symbolsBelow (ns : List Node) (v : Nat) : List Byte := (codesBelow ns (v + 1) v []).map Prod.fst

/-- Neither the bound, nor the path so far, nor nodes added to the arena matter for the symbols below a node. -/
theorem codesBelow_fst_eq {ns : List Node} (hbelow : ChildrenBelow ns) (ms : List Node) {k k' v : Nat}
    (hk : v < k) (hk' : v < k') (hv : v < ns.length) (pre pre' : Bitstring) :
    (codesBelow (ns ++ ms) k v pre).map Prod.fst = (codesBelow ns k' v pre').map Prod.fst := by
  induction k generalizing k' v pre pre' with
  | zero => omega
  | succ k ih =>
    obtain ⟨k', rfl⟩ : ∃ n, k' = n + 1 := ⟨k' - 1, by omega⟩
    have hget : (ns ++ ms)[v]? = ns[v]? := List.getElem?_append_left hv
    cases hat : ns[v]'hv with
    | leaf c f => simp [codesBelow, hget, List.getElem?_eq_getElem hv, hat]
    | internal f l r =>
      obtain ⟨hl, hr⟩ := hbelow v f l r (hat ▸ List.getElem?_eq_getElem hv)
      simp only [codesBelow, hget, List.getElem?_eq_getElem hv, hat, List.map_append]
      rw [ih (k' := k') (by omega) (by omega) (by omega) _ (pre' ++ [false]),
        ih (k' := k') (by omega) (by omega) (by omega) _ (pre' ++ [true])]

theorem symbolsBelow_append {ns : List Node} (hbelow : ChildrenBelow ns) (ms : List Node) {v : Nat}
    (hv : v < ns.length) : symbolsBelow (ns ++ ms) v = symbolsBelow ns v :=
  codesBelow_fst_eq hbelow ms (Nat.lt_succ_self v) (Nat.lt_succ_self v) hv [] []

theorem symbolsBelow_of_leaf {ns : List Node} {v : Nat} {c : Byte} {f : Word} (h : ns[v]? = some (.leaf c f)) :
    symbolsBelow ns v = [c] := by
  simp [symbolsBelow, codesBelow, h]

/-- Below the node a pass makes stand the symbols below the two nodes it joins. -/
theorem symbolsBelow_joinedNode {ns : List Node} (hbelow : ChildrenBelow ns) {a b : QueueEntry}
    (ha : a.index < ns.length) (hb : b.index < ns.length) (hns : ns.length < 512) :
    symbolsBelow (ns ++ [joinedNode a b]) ns.length = symbolsBelow ns a.index ++ symbolsBelow ns b.index := by
  have hleft : a.index % 2 ^ 9 = a.index := Nat.mod_eq_of_lt (by omega)
  have hright : b.index % 2 ^ 9 = b.index := Nat.mod_eq_of_lt (by omega)
  rw [symbolsBelow, codesBelow, List.getElem?_concat_length]
  simp only [joinedNode, BitVec.toNat_ofNat, hleft, hright, List.map_append]
  rw [codesBelow_fst_eq hbelow _ ha (Nat.lt_succ_self _) ha _ [],
    codesBelow_fst_eq hbelow _ hb (Nat.lt_succ_self _) hb _ []]
  rfl

/-- Between two passes over the leaves of `F`, each symbol that occurs stands below one waiting entry, once. -/
structure SymbolsInv (F : Table Word) (ns : List Node) (q : List QueueEntry) : Prop where
  shape : MergeInv (leafNodes F) ns q
  symbols : (q.flatMap fun e => symbolsBelow ns e.index).Perm (allSymbols.filter fun c => F.at c != 0)

theorem symbolsInv_leaves (F : Table Word) : SymbolsInv F (leafNodes F) (leafQueue (leafNodes F)) where
  shape := mergeInv_leaves F
  symbols := by
    have hsingle : (leafQueue (leafNodes F)).map (fun e => symbolsBelow (leafNodes F) e.index) =
        (allSymbols.filter fun c => F.at c != 0).map fun c => [c] := by
      refine List.ext_getElem (by simp [leafQueue, leafNodes_eq]) fun i hi hi' => ?_
      rw [List.length_map] at hi'
      obtain ⟨f, hleaf⟩ : ∃ f, (leafNodes F)[i]? = some (.leaf (allSymbols.filter fun c => F.at c != 0)[i] f) :=
        ⟨_, by rw [leafNodes_eq, List.getElem?_map, List.getElem?_eq_getElem hi', Option.map_some]⟩
      simp [leafQueue, symbolsBelow_of_leaf hleaf]
    rw [List.flatMap_def, hsingle, ← List.flatMap_def, List.flatMap_singleton']

theorem SymbolsInv.pass {F : Table Word} {ns : List Node} {q rest : List QueueEntry} {a b : QueueEntry}
    (h : SymbolsInv F ns q) (hperm : q.Perm (a :: b :: rest)) :
    SymbolsInv F (ns ++ [joinedNode a b]) (rest ++ [⟨a.freq + b.freq, ns.length⟩]) := by
  have hleaves : (leafNodes F).length ≤ 256 := (leafNodes_length F).trans_le (distinct_le F)
  have hq : q.length = rest.length + 2 := hperm.length_eq
  have hsize := h.shape.size
  have ha : a.index < ns.length := h.shape.index_lt (hperm.mem_iff.2 (by simp))
  have hb : b.index < ns.length := h.shape.index_lt (hperm.mem_iff.2 (by simp))
  refine ⟨h.shape.pass hleaves hperm, ?_⟩
  have hrest : (rest.flatMap fun e => symbolsBelow (ns ++ [joinedNode a b]) e.index) =
      rest.flatMap fun e => symbolsBelow ns e.index :=
    List.flatMap_congr fun e he => symbolsBelow_append h.shape.below _
      (h.shape.index_lt (hperm.mem_iff.2 (by simp [he])))
  have hold := (hperm.flatMap_right fun e => symbolsBelow ns e.index).symm.trans h.symbols
  rw [List.flatMap_append, List.flatMap_singleton, hrest,
    symbolsBelow_joinedNode h.shape.below ha hb (by omega)]
  refine List.perm_append_comm.trans ?_
  simpa using hold

/-- The codes of the built tree list each symbol that occurs exactly once. -/
theorem treeCodes_fst_perm {F : Table Word} (hK : 2 ≤ distinct F) :
    ((treeCodes (buildNodes F)).map Prod.fst).Perm (allSymbols.filter fun c => F.at c != 0) := by
  have hlen := buildNodes_length (F := F) (by omega)
  obtain ⟨e, hroot, h⟩ := buildNodes_invariant (P := SymbolsInv F) (by omega) (fun _ _ h => h.shape)
    (symbolsInv_leaves F) fun _ _ _ _ _ h hperm => h.pass hperm
  have hsymbols := h.symbols
  rw [List.flatMap_singleton, hroot, show 2 * distinct F - 2 = (buildNodes F).length - 1 by omega] at hsymbols
  refine (List.Perm.of_eq ?_).trans hsymbols
  rw [treeCodes_of_length_ne_one (by omega), symbolsBelow]
  have hsame := codesBelow_fst_eq h.shape.below [] (k := (buildNodes F).length)
    (k' := (buildNodes F).length - 1 + 1) (v := (buildNodes F).length - 1) (by omega) (by omega) (by omega) [] []
  rwa [List.append_nil] at hsame

/-- The paths below a node have the Kraft sum of the path to it: each inner node splits its share in two. -/
theorem kraft_codesBelow {ns : List Node} (hbelow : ChildrenBelow ns) {k v : Nat} (hk : v < k) (hv : v < ns.length)
    (pre : Bitstring) :
    ((codesBelow ns k v pre).map fun x => (1 / 2 : ℚ) ^ x.2.length).sum = (1 / 2) ^ pre.length := by
  induction k generalizing v pre with
  | zero => omega
  | succ k ih =>
    have hget : ns[v]? = some ns[v] := List.getElem?_eq_getElem hv
    cases hat : ns[v] with
    | leaf c f => simp [codesBelow, hget, hat]
    | internal f l r =>
      obtain ⟨hl, hr⟩ := hbelow v f l r (hat ▸ hget)
      simp only [codesBelow, hget, hat, List.map_append, List.sum_append]
      rw [ih (by omega) (by omega), ih (by omega) (by omega), List.length_append, List.length_append,
        List.length_singleton, List.length_singleton]
      ring

/-- A symbol's code is the one listed for it: no symbol is listed twice. -/
theorem codesOf_at_of_mem {F : Table Word} (hK : 2 ≤ distinct F) {x : Byte × Bitstring}
    (hx : x ∈ treeCodes (buildNodes F)) : (codesOf F).at x.1 = x.2 := by
  have hnodup : ((treeCodes (buildNodes F)).map Prod.fst).Nodup :=
    (treeCodes_fst_perm hK).nodup_iff.2 (allSymbols_nodup.filter _)
  have hsame := List.inj_on_of_nodup_map hnodup (codeTable_at_mem (p := x.2) hx) hx rfl
  exact congrArg Prod.snd hsame

/-- The Kraft sum of the codes is 1. -/
theorem kraft_codesOf {F : Table Word} (hK : 2 ≤ distinct F) :
    ((allSymbols.filter fun c => F.at c != 0).map fun c => (1 / 2 : ℚ) ^ ((codesOf F).at c).length).sum = 1 := by
  have hlen := buildNodes_length (F := F) (by omega)
  have hlisted : (treeCodes (buildNodes F)).map (fun x => (1 / 2 : ℚ) ^ ((codesOf F).at x.1).length) =
      (treeCodes (buildNodes F)).map fun x => (1 / 2 : ℚ) ^ x.2.length :=
    List.map_congr_left fun x hx => by rw [codesOf_at_of_mem hK hx]
  have hkraft := kraft_codesBelow (buildNodes_childrenBelow (F := F) (by omega)) (k := (buildNodes F).length)
    (v := (buildNodes F).length - 1) (by omega) (by omega) []
  rw [← ((treeCodes_fst_perm hK).map _).sum_eq, List.map_map]
  refine (congrArg List.sum hlisted).trans ?_
  rw [treeCodes_of_length_ne_one (by omega), hkraft, List.length_nil, pow_zero]

end Sys2Proof.Machine
end

section
/-! SUPPORT. A walk that ends inside a codeword (spec/44_decoder.md R210, R212). -/

namespace Sys2Proof.Machine

open Sys2Proof.Spec

/-- Bits that stop on the way to a leaf below the root fail at the first bit of the codeword under way: the walk has
left the root, and every step goes down in the arena. -/
theorem walkFrom_inside {node : Nat → Node} {ns : List Node} (hnode : ArenaHolds node ns)
    (hbelow : ChildrenBelow ns) {root rl rr cur l r : BitVec 9} (hroot : root.toNat < ns.length) {b : Bool}
    {q q' : Bitstring} {c : Byte} {f : Word} (hpath : LeadsToLeaf node (if b then r else l).toNat (q ++ q') c f)
    (hq' : q' ≠ []) (hchild : (if b then r else l).toNat < root.toNat) (start k : Nat) :
    walkFrom node root rl rr (b :: q) cur l r start k = ⟨[], some start⟩ := by
  induction q generalizing b cur l r k with
  | nil =>
    cases hat : node (if b then r else l).toNat with
    | leaf d g => exact absurd ((leadsToLeaf_of_leaf hat).1 hpath).1 hq'
    | internal g l' r' =>
      have hne : (if b then r else l) ≠ root := fun heq => hchild.ne (congrArg BitVec.toNat heq)
      simp only [walkFrom, hat, if_neg hne]
  | cons b' q ih =>
    cases hat : node (if b then r else l).toNat with
    | leaf d g => cases ((leadsToLeaf_of_leaf hat).1 hpath).1
    | internal g l' r' =>
      obtain ⟨hl, hr⟩ := hbelow _ g l' r' (hat ▸ hnode.getElem? (hchild.trans hroot))
      have hnext : (if b' then r' else l').toNat < root.toNat := by
        cases b'
        · exact hl.trans hchild
        · exact hr.trans hchild
      rw [walkFrom]
      simp only [hat]
      exact ih ((leadsToLeaf_cons_of_internal hat).1 hpath) hnext (k + 1)

/-- From an internal root, bits that begin the path to a leaf and stop on the way fail at their first bit. -/
theorem walkFrom_proper_prefix {node : Nat → Node} {ns : List Node} (hnode : ArenaHolds node ns)
    (hbelow : ChildrenBelow ns) {root rl rr : BitVec 9} (hlt : root.toNat < ns.length) {g : Word}
    (hroot : node root.toNat = .internal g rl rr) {q q' : Bitstring} {c : Byte} {f : Word}
    (hpath : LeadsToLeaf node root.toNat (q ++ q') c f) (hq : q ≠ []) (hq' : q' ≠ []) (k : Nat) :
    walkFrom node root rl rr q root rl rr k k = ⟨[], some k⟩ := by
  cases q with
  | nil => exact absurd rfl hq
  | cons b q =>
    obtain ⟨hl, hr⟩ := hbelow _ g rl rr (hroot ▸ hnode.getElem? hlt)
    have hchild : (if b then rr else rl).toNat < root.toNat := by cases b <;> assumption
    exact walkFrom_inside hnode hbelow hlt ((leadsToLeaf_cons_of_internal hroot).1 hpath) hq' hchild k k

theorem State.HoldsTreeOf.root_lt {s : State} {F : Table Word} (h : s.HoldsTreeOf F) :
    s.root.toNat < (buildNodes F).length := by
  have hF := h.distinct_ne_zero
  rw [h.root_eq, buildNodes_length hF]
  omega

/-- A codeword that can stop in the middle is a symbol's of a tree of two or more: a symbol without a code has no bits,
and the only symbol of a table has one. -/
theorem two_le_distinct_of_proper_prefix {F : Table Word} (hF : distinct F ≠ 0) {c : Byte} {q : Bitstring}
    (hq : q ≠ []) (hne : q ≠ (codesOf F).at c) (hprefix : q <+: (codesOf F).at c) :
    2 ≤ distinct F ∧ F.at c ≠ 0 := by
  have hc : F.at c ≠ 0 := (codesOf_at_ne_nil_iff hF).1 (hprefix.ne_nil hq)
  refine ⟨?_, hc⟩
  by_contra hK
  obtain ⟨d, -, hother⟩ := exists_only_symbol (F := F) (by omega)
  obtain rfl : c = d := not_imp_comm.1 (hother c) hc
  rw [codesOf_only_symbol hc hother] at hne hprefix
  have hlen : 0 < q.length := List.length_pos_of_ne_nil hq
  exact hne (hprefix.eq_of_length (hprefix.length_le.antisymm hlen))

end Sys2Proof.Machine
end

section
/-! PROOFS. The statements on the codes of the built tree and on bits that end inside a codeword
(spec/41_code_tree_builder.md section 4, items 4 to 6; spec/44_decoder.md section 1). -/

open Sys2Proof Sys2Proof.Machine Sys2Proof.Spec

namespace Sys2Proof.Proofs

/-- Settles O22: codes are root-to-leaf paths, so they pass internal nodes of falling index and do not go on past a
leaf. -/
theorem codesArePrefixFree : Obligations.CodesArePrefixFree := by
  unfold Obligations.CodesArePrefixFree
  intro F hF _
  exact ⟨fun c => codesOf_at_ne_nil_iff hF, codesOf_length_le_255 hF, fun hK => codesOf_length_le hK,
    fun c d hne hcode => codesOf_prefix_free hF hne hcode⟩

/-- Settles O23: no code is longer than 255 bits, so each term is 2^255 times the symbol's share of the Kraft sum. -/
theorem codesFillTheTree : Obligations.CodesFillTheTree := by
  unfold Obligations.CodesFillTheTree
  intro F hK _
  have hterm (c : Byte) : ((2 ^ (255 - ((codesOf F).at c).length) : Nat) : ℚ) =
      2 ^ 255 * (1 / 2) ^ ((codesOf F).at c).length := by
    push_cast
    rw [pow_sub₀ _ two_ne_zero (codesOf_length_le_255 (by omega) c), one_div, inv_pow]
  have hterms := List.map_congr_left (l := allSymbols.filter fun c => F.at c != 0) fun c _ => hterm c
  refine Nat.cast_injective (R := ℚ) ?_
  rw [Nat.cast_list_sum, List.map_map]
  refine (congrArg List.sum hterms).trans ?_
  rw [List.sum_map_mul_left, kraft_codesOf hK]
  norm_num

/-- Settles O27: after the text's codes the walk is back at the root, and the rest stops on the way to a leaf. -/
theorem unterminatedCodewordFailsWalk : Obligations.UnterminatedCodewordFailsWalk := by
  unfold Obligations.UnterminatedCodewordFailsWalk
  intro s F T c q h hT hq hne hprefix
  have hF := h.distinct_ne_zero
  obtain ⟨hK, hc⟩ := two_le_distinct_of_proper_prefix hF hq (h.codes_eq ▸ hne) (h.codes_eq ▸ hprefix)
  obtain ⟨f, l, r, hroot⟩ := h.root_internal hK
  have hpath := h.leadsToLeaf hK hc
  obtain ⟨q', hq'⟩ := hprefix
  rw [← hq'] at hpath hne
  have hrest := walkFrom_proper_prefix h.arenaHolds (buildNodes_childrenBelow hF) h.root_lt hroot hpath hq
    (fun hnil => hne (by rw [hnil, List.append_nil])) (0 + (concatCodes s.codes T).length)
  rw [walk_of_internal hroot, walkFrom_concatCodes hroot (fun d hd => ⟨_, h.leadsToLeaf hK (hT d hd)⟩), hrest,
    foldr_emit, List.append_nil, Nat.zero_add]

end Sys2Proof.Proofs
end

section
/-! SUPPORT. The checksum engine loses nothing: a register value, and the byte it takes in, can be read back from the
next one (spec/43_bit_packer_crc.md R180). -/

namespace Sys2Proof.Machine

/-- The polynomial has bit 31, the shifted register has not, so bit 31 tells which bit was shifted out. -/
theorem crcShift_getLsbD_31 (c : Word) : (crcShift c).getLsbD 31 = c.getLsbD 0 := by
  cases hbit : c.getLsbD 0 with
  | true => rw [crcShift, hbit, if_pos rfl]; simp [crcPoly]
  | false => rw [crcShift, hbit, if_neg Bool.false_ne_true]; simp

theorem crcShift_injective : Function.Injective crcShift := by
  intro c d h
  have hlow : c.getLsbD 0 = d.getLsbD 0 := by rw [← crcShift_getLsbD_31 c, ← crcShift_getLsbD_31 d, h]
  have hshift : c >>> 1 = d >>> 1 := by
    rw [crcShift, crcShift, hlow] at h
    split at h
    · exact (BitVec.xor_left_inj _).1 h
    · exact h
  refine BitVec.eq_of_getLsbD_eq fun i _ => ?_
  cases i with
  | zero => exact hlow
  | succ i => simpa [Nat.add_comm 1 i] using congrArg (·.getLsbD i) hshift

theorem crcShifts_injective (n : Nat) : Function.Injective (crcShifts n) := by
  induction n with
  | zero => exact Function.injective_id
  | succ n ih => exact ih.comp crcShift_injective

theorem crcByte_left_injective (d : Byte) : Function.Injective fun c => crcByte c d := fun _ _ h =>
  (BitVec.xor_left_inj _).1 (crcShifts_injective 8 h)

theorem crcByte_right_injective (c : Word) : Function.Injective (crcByte c) := by
  intro a b h
  have hwide : a.setWidth 32 = b.setWidth 32 := (BitVec.xor_right_inj _).1 (crcShifts_injective 8 h)
  refine BitVec.eq_of_toNat_eq ?_
  have hnat := congrArg BitVec.toNat hwide
  rw [BitVec.toNat_setWidth, BitVec.toNat_setWidth] at hnat
  omega

theorem crcRegister_injective (E : List Byte) : Function.Injective fun c => crcRegister c E := by
  induction E with
  | nil => exact Function.injective_id
  | cons e E ih => exact ih.comp (crcByte_left_injective e)

/-- The bytes before the changed one lead to the same register, the changed one to different ones, and the bytes
behind it keep them apart. -/
theorem crc32_ne_of_changed_byte (D E : List Byte) {a b : Byte} (h : a ≠ b) :
    crc32 (D ++ a :: E) ≠ crc32 (D ++ b :: E) := by
  intro heq
  have hreg := BitVec.not_inj.1 heq
  rw [crcRegister, crcRegister, List.foldl_append, List.foldl_append, List.foldl_cons, List.foldl_cons] at hreg
  exact h (crcByte_right_injective _ (crcRegister_injective E hreg))

/-- Over the bit characters of a bitstring, a flipped bit is one changed byte. -/
theorem crc32_ascii_flipped_ne {B : Bitstring} {k : Nat} (hk : k < B.length) :
    crc32 (ascii (B.modify k (!·))) ≠ crc32 (ascii B) := by
  have hB : ascii B = ascii (B.take k) ++ asciiBit B[k] :: ascii (B.drop (k + 1)) := by
    rw [ascii, ascii, ascii, ← List.map_cons, ← List.map_append, ← List.drop_eq_getElem_cons hk,
      List.take_append_drop]
  rw [hB, List.modify_eq_take_cons_drop hk, ascii, List.map_append, List.map_cons]
  exact crc32_ne_of_changed_byte _ _ (by cases B[k] <;> decide)

end Sys2Proof.Machine
end

section
/-! SUPPORT. A record with one bit of its packed bytes flipped (spec/44_decoder.md section 3). -/

namespace Sys2Proof.Machine

/-- The state with bit `k` of the packed bytes in REC flipped. -/
def State.flipRecordBit (s : State) (k : Nat) : State :=
  s.memWrite .record (8 + k / 8) [s.memRead .record (8 + k / 8) ^^^ BitVec.twoPow 8 (7 - k % 8)]

theorem State.flipRecordBit_eq (s : State) (k : Nat) :
    s.flipRecordBit k = { s with recMem := (s.flipRecordBit k).recMem } := rfl

theorem State.memRead_flipRecordBit_other (s : State) {k j : Nat} (h : j ≠ 8 + k / 8) :
    (s.flipRecordBit k).memRead .record j = s.memRead .record j :=
  s.memRead_memWrite_outside (by rw [List.length_singleton]; omega)

theorem State.memRead_flipRecordBit_same (s : State) (k : Nat) :
    (s.flipRecordBit k).memRead .record (8 + k / 8) =
      s.memRead .record (8 + k / 8) ^^^ BitVec.twoPow 8 (7 - k % 8) :=
  s.memRead_memWrite_inside (k := 0) (List.length_pos_of_ne_nil (List.cons_ne_nil _ _))

/-- Of the packed bits, numbered as the bitstring is, bit `k` is flipped and no other. -/
theorem State.flipRecordBit_bit (s : State) (k j : Nat) :
    ((s.flipRecordBit k).memRead .record (8 + j / 8)).getLsbD (7 - j % 8) =
      if k = j then !(s.memRead .record (8 + j / 8)).getLsbD (7 - j % 8)
      else (s.memRead .record (8 + j / 8)).getLsbD (7 - j % 8) := by
  by_cases hbyte : j / 8 = k / 8
  · rw [hbyte, s.memRead_flipRecordBit_same, BitVec.getLsbD_xor, BitVec.getLsbD_twoPow]
    by_cases hkj : k = j
    · subst hkj
      simp [show 7 - k % 8 < 8 by omega]
    · simp [hkj, show ¬ 7 - k % 8 = 7 - j % 8 by omega]
  · rw [s.memRead_flipRecordBit_other (by omega), if_neg (by rintro rfl; exact hbyte rfl)]

/-- A flip within the packed bytes leaves the header and the checksum field as they are, so the record parses as
before but for that bit; a padding bit is no bit of the bitstring. -/
theorem State.parseRecord_flipRecordBit {s : State} {r : ParsedRecord} (h : s.parseRecord = some r) {k : Nat}
    (hk : k < 8 * ceilDiv r.length 8) :
    (s.flipRecordBit k).parseRecord = some { r with bits := r.bits.modify k (!·) } := by
  obtain ⟨L, B, stored⟩ := r
  obtain ⟨hlen, hL, hbits, hstored, -⟩ := parseRecord_eq_some h
  simp only at hlen hL hbits hstored hk ⊢
  have hheader : (s.flipRecordBit k).recordBitLength = L := by
    rw [hL]
    exact congrArg (fieldValue s.be) (Memory.readBytes_congr fun j hj => s.memRead_flipRecordBit_other (by omega))
  have hchecksum : (s.flipRecordBit k).recordChecksum (ceilDiv L 8) = stored := by
    rw [hstored]
    exact congrArg (fun bs => BitVec.ofNat 32 (fieldValue s.be bs))
      (Memory.readBytes_congr fun j hj => s.memRead_flipRecordBit_other (by omega))
  have hflipped : unpackBits ((s.flipRecordBit k).recordPacked (ceilDiv L 8)) L = B.modify k (!·) := by
    have hcover := le_eight_mul_ceilDiv L
    refine List.ext_getElem? fun j => ?_
    rw [List.getElem?_modify, hbits]
    obtain hj | hj := Nat.lt_or_ge j L
    · rw [unpackBits_getElem? hj, unpackBits_getElem? hj, recordPacked_getElem? _ (by omega),
        recordPacked_getElem? _ (by omega)]
      simp only [Option.map_some, Option.map_eq_map, s.flipRecordBit_bit k j]
    · have hshort (P : List Byte) : (unpackBits P L)[j]? = none :=
        List.getElem?_eq_none ((List.length_take_le _ _).trans hj)
      rw [hshort, hshort]
      rfl
  rw [parseRecord_of_framed (by rw [hheader]; exact hlen), hheader, hchecksum, hflipped]

end Sys2Proof.Machine
end

section
/-! SUPPORT. What a DECODE that completes with OK has found, and what it leaves (spec/44_decoder.md R213). -/

namespace Sys2Proof.Machine

/-- The record `r` is in REC, within REC_CAP, and DECODE accepts it. -/
structure State.Decodes (s : State) (r : ParsedRecord) : Prop where
  fits : s.recLen.toNat ≤ s.params.recCap
  valid : s.treeValid = true
  parsed : s.parseRecord = some r
  verified : s.verifyCrc r.bits (walk s.node s.root r.bits).symbols = r.stored
  walked : (walk s.node s.root r.bits).failure = none

theorem State.Decodes.decodeBody_eq {s : State} {r : ParsedRecord} (h : s.Decodes r) :
    decodeBody s = .finished
      { s with
        bitLen := BitVec.ofNat 64 r.length, crcOut := r.stored
        outMem := s.outMem.writeBytes 0 (walk s.node s.root r.bits).symbols
        outLen := BitVec.ofNat 32 (walk s.node s.root r.bits).symbols.length } := by
  refine decodeBody_of_verified h.fits h.valid h.parsed ?_ h.verified
  rw [← h.walked]

theorem decodes_of_ok {s : State} (hok : (decodeBody s).complete.err = .ok) : ∃ r, s.Decodes r := by
  rcases decodeBody_cases s with ⟨-, h⟩ | ⟨-, -, h⟩ | ⟨-, -, -, h⟩ | ⟨hfits, hvalid, r, hparse, h⟩ <;>
    rw [h] at hok
  · cases hok
  · cases hok
  · cases hok
  · rcases decodeParsed_cases s r with ⟨-, hend⟩ | ⟨-, p, -, hend⟩ | ⟨hverified, hwalked, -⟩
    · rw [hend] at hok
      cases hok
    · rw [hend] at hok
      cases hok
    · exact ⟨r, hfits, hvalid, hparse, hverified, hwalked⟩

theorem State.Decodes.bitLen_toNat {s : State} {r : ParsedRecord} (h : s.Decodes r) :
    (decodeBody s).complete.bitLen.toNat = r.length := by
  obtain ⟨hlen, -, -, -, -⟩ := parseRecord_eq_some h.parsed
  have hcap : r.length ≤ s.params.outCap := le_outCap_of_framed (hlen ▸ h.fits)
  have hlt := Params.outCap_lt s.params
  rw [h.decodeBody_eq, CmdEnd.complete_finished, State.complete_bitLen, BitVec.toNat_ofNat, Nat.mod_eq_of_lt]
  omega

/-- A flipped padding bit is no bit of the record's bitstring. -/
theorem State.Decodes.flipRecordBit_padding {s : State} {r : ParsedRecord} (h : s.Decodes r) {k : Nat}
    (hpad : r.length ≤ k) (hk : k < 8 * ceilDiv r.length 8) : (s.flipRecordBit k).Decodes r := by
  obtain ⟨-, -, -, -, hbits⟩ := parseRecord_eq_some h.parsed
  have hsame := State.parseRecord_flipRecordBit h.parsed hk
  rw [List.modify_eq_self (hbits.trans_le hpad)] at hsame
  exact ⟨h.fits, h.valid, hsame, h.verified, h.walked⟩

end Sys2Proof.Machine
end

section
/-! PROOFS. The statements on what the checksum detects, on the record's round trip, on the length of an encoded text
and on ENCODE's success (spec/41_code_tree_builder.md section 4; spec/42_encoder.md R167; spec/43_bit_packer_crc.md
sections 1 and 4; spec/44_decoder.md section 3). -/

open Sys2Proof Sys2Proof.Machine Sys2Proof.Spec

namespace Sys2Proof.Proofs

/-- Settles O36: with a non-empty text within TEXT_CAP and codes within PACK_CAP, only the last of ENCODE's four ends
is left. -/
theorem encodeSucceedsOnFittingText : Obligations.EncodeSucceedsOnFittingText := by
  unfold Obligations.EncodeSucceedsOnFittingText
  intro s hn hfits
  rw [← s.textBytes_eq_text]
  intro F B hpack
  have hexec : exec .encode s =
      .next ((s.withTextTree.writeRecord B (s.recordCrc B s.textBytes)).complete .ok 0) := by
    rcases encodeBody_cases s with ⟨hlong, -⟩ | ⟨hempty, -⟩ | ⟨-, -, hover, -⟩ | ⟨-, -, -, hbody⟩
    · exact absurd hfits (Nat.not_le.2 hlong)
    · omega
    · exact absurd hpack (Nat.not_le.2 hover)
    · rw [exec_encode, hbody]
      rfl
  obtain ⟨htree, hvalid, -, hparse⟩ := encode_ok_leaves hexec rfl
  have hpack' : ceilDiv B.length 8 ≤ s.withTextTree.params.packCap := hpack
  have hlen := State.writeRecord_recLen_toNat (s.recordCrc B s.textBytes) hpack'
  have hbits := State.writeRecord_bitLen_toNat (s.recordCrc B s.textBytes) hpack'
  exact ⟨_, hexec, rfl, htree, hvalid, rfl, hparse, hlen, hbits, rfl, fun i hi =>
    s.withTextTree.memRead_writeRecord_outside B _ (hlen.symm.trans_le hi)⟩

/-- Settles O42: the record parses as before but for the flipped bit, so DECODE verifies a different checksum against
the stored one. -/
theorem flippedBitGivesIntegrity : Obligations.FlippedBitGivesIntegrity := by
  unfold Obligations.FlippedBitGivesIntegrity
  intro s t k hsrc hexec hok hk
  rw [exec_decode, CmdEnd.outcome_eq_next] at hexec
  subst hexec
  obtain ⟨r, h⟩ := decodes_of_ok hok
  rw [h.bitLen_toNat] at hk
  obtain ⟨-, -, -, -, hbits⟩ := parseRecord_eq_some h.parsed
  have hstored : crc32 (ascii r.bits) = r.stored := by
    have hverified := h.verified
    rwa [State.verifyCrc, State.checksummed, hsrc, if_neg Bool.false_ne_true] at hverified
  have hparse := State.parseRecord_flipRecordBit h.parsed (hk.trans_le (le_eight_mul_ceilDiv _))
  obtain ⟨-, -, -, hparsed⟩ := decodeWalksAndVerifies (s.flipRecordBit k)
  obtain ⟨hdiffers, -, -⟩ := hparsed h.fits h.valid _ hparse
  have hne : crc32 (covered (s.flipRecordBit k) (r.bits.modify k (!·))
      (walk s.node s.root (r.bits.modify k (!·))).symbols) ≠ r.stored := by
    have hcovered (B : Bitstring) (T : List Byte) : covered (s.flipRecordBit k) B T = ascii B :=
      if_neg (by rw [s.flipRecordBit_eq, hsrc]; exact Bool.false_ne_true)
    rw [hcovered, ← hstored]
    exact crc32_ascii_flipped_ne (hbits ▸ hk)
  obtain ⟨m, d, hexec, -⟩ := hdiffers hne
  exact ⟨_, hexec, rfl, rfl⟩

/-- Settles O24: the length of the concatenation is a sum over the text, counted symbol by symbol. -/
theorem encodedLengthIsWeightedSum : Obligations.EncodedLengthIsWeightedSum := by
  unfold Obligations.EncodedLengthIsWeightedSum
  intro T hT
  rw [concatCodes, List.length_flatMap, Finset.sum_list_map_count, ← List.sum_toFinset _ allSymbols_nodup]
  refine Finset.sum_subset_zero_on_sdiff (fun c _ => List.mem_toFinset.2 (mem_allSymbols c)) (fun c hc => ?_)
    fun c _ => ?_
  · have hnot : c ∉ T := fun hmem => (Finset.mem_sdiff.1 hc).2 (List.mem_toFinset.2 hmem)
    rw [freqCount_at_toNat (by omega), List.count_eq_zero.2 hnot, Nat.zero_mul]
  · rw [freqCount_at_toNat (by omega), smul_eq_mul]

/-- Settles O30: every step of the checksum engine is injective. -/
theorem crcDetectsChangedByte : Obligations.CrcDetectsChangedByte := by
  unfold Obligations.CrcDetectsChangedByte
  exact fun D E a b h => crc32_ne_of_changed_byte D E h

/-- Settles O33: each field of the written record reads back. -/
theorem parseInvertsWrite : Obligations.ParseInvertsWrite := by
  unfold Obligations.ParseInvertsWrite
  exact fun s B crc h => State.parseRecord_writeRecord crc h

/-- Settles O43: both states decode the same record, over the same tree and into the same OUT. -/
theorem flippedPaddingIsIgnored : Obligations.FlippedPaddingIsIgnored := by
  unfold Obligations.FlippedPaddingIsIgnored
  intro s t k hexec hok hpad hk
  rw [exec_decode, CmdEnd.outcome_eq_next] at hexec
  subst hexec
  obtain ⟨r, h⟩ := decodes_of_ok hok
  rw [h.bitLen_toNat] at hpad hk
  refine ⟨(decodeBody (s.flipRecordBit k)).complete, rfl, ?_⟩
  rw [(h.flipRecordBit_padding hpad hk).decodeBody_eq, h.decodeBody_eq]
  rfl

end Sys2Proof.Proofs
end

section
/-! SUPPORT. What a host input other than the reset input can do to the core, said once: nothing, a register write or
a byte written to a memory, the last two in an idle core only (spec/20_memory.md R61 to R67). -/

namespace Sys2Proof.Machine

/-- What a host input other than the reset input makes of the core of `s`, its own fields apart. -/
inductive HostReached (s : State) : State → Prop where
  | nothing : HostReached s s
  | register (hb : s.busy = false) (hr : s.inReset = false) (r : Reg) (v : Word) : HostReached s (s.regWrite r v)
  | memory (hb : s.busy = false) (hr : s.inReset = false) (sp : Space) (i : Nat) (b : Byte)
      (hi : i < s.params.spaceCap sp) : HostReached s (s.memWrite sp i [b])

theorem State.idle_of_not_lockedOut {s : State} {a : Word} {size : AccessSize} {v : Word}
    (h : s.lockedOut (.write a size v) = false) : s.busy = false ∧ s.inReset = false := by
  simpa [State.lockedOut, and_comm] using h

theorem State.hostWrite_reached (s : State) (a : Word) (size : AccessSize) (v : Word) :
    HostReached s (s.hostWrite a size v).1 := by
  rcases s.hostWrite_cases a size v with h | ⟨hopen, off, -, h⟩ | ⟨hopen, sp, i, htarget, h⟩ <;> rw [h]
  · exact .nothing
  · obtain ⟨hb, hr⟩ := State.idle_of_not_lockedOut hopen
    unfold State.apertureWrite
    cases regAt off with
    | none => exact .nothing
    | some r => exact .register hb hr r v
  · obtain ⟨hb, hr⟩ := State.idle_of_not_lockedOut hopen
    exact .memory hb hr sp i _ (busTarget_memory_lt htarget).1

theorem HostReached.inputs_eq {s u : State} (h : HostReached s u) : u.inputs = s.inputs := by
  cases h with
  | nothing => rfl
  | register hb hr r v => cases r <;> rfl
  | memory hb hr sp => cases sp <;> rfl

/-- No input but the reset input touches the parameters or the tree. -/
theorem HostReached.params_treeValid_eq {s u : State} (h : HostReached s u) :
    u.params = s.params ∧ u.treeValid = s.treeValid := by
  cases h with
  | nothing => exact ⟨rfl, rfl⟩
  | register hb hr r v => cases r <;> exact ⟨rfl, rfl⟩
  | memory hb hr sp => cases sp <;> exact ⟨rfl, rfl⟩

/-- A busy core is left as it is (R66). -/
theorem HostReached.eq_of_busy {s u : State} (h : HostReached s u) (hb : s.busy = true) : u = s := by
  cases h with
  | nothing => rfl
  | register hidle => cases hb.symm.trans hidle
  | memory hidle => cases hb.symm.trans hidle

theorem State.transact_reached (s : State) (t : Transaction) :
    ∃ u r, s.transact t = { u with response := r } ∧ HostReached s u := by
  cases t with
  | read a size => exact ⟨s, _, rfl, .nothing⟩
  | write a size v => exact ⟨_, _, rfl, s.hostWrite_reached a size v⟩

/-- Everything an input can do: it is one of the two levels of the reset input, or it reaches the core as the host's
transactions do; only WAIT can stay in the list (assumption log 7). -/
theorem State.serve_cases (s : State) (e : HostInput) :
    (e = .resetPin true ∧ s.serve e = s.assertReset) ∨ (e = .resetPin false ∧ s.serve e = s.deassertReset) ∨
    ∃ u is r, s.serve e = { u with inputs := is, response := r } ∧ HostReached s u ∧
      (is = s.inputs ∨ is = .pollIdle :: s.inputs) := by
  have htransact (t : Transaction) : ∃ u is r, s.transact t = { u with inputs := is, response := r } ∧
      HostReached s u ∧ (is = s.inputs ∨ is = .pollIdle :: s.inputs) := by
    obtain ⟨u, r, heq, hu⟩ := s.transact_reached t
    exact ⟨u, u.inputs, r, heq, hu, .inl hu.inputs_eq⟩
  cases e with
  | transaction t => exact .inr (.inr (htransact t))
  | pollIdle =>
    refine .inr (.inr ?_)
    rw [State.serve, State.pollStatus]
    split
    · exact ⟨s, _, _, rfl, .nothing, .inr rfl⟩
    · exact ⟨s, _, _, rfl, .nothing, .inl rfl⟩
  | writeBackXor a mask =>
    refine .inr (.inr ?_)
    rw [State.serve]
    cases s.lastData with
    | some d => exact htransact _
    | none => exact ⟨s, _, _, rfl, .nothing, .inl rfl⟩
  | resetPin b =>
    cases b with
    | true => exact .inl ⟨rfl, rfl⟩
    | false => exact .inr (.inl ⟨rfl, rfl⟩)

theorem State.countLatency_eq (s : State) (rest : List HostInput) :
    ({ s with inputs := rest }).countLatency =
      { s with inputs := rest, latencyLeft := if s.busy then s.latencyLeft - 1 else s.latencyLeft } := by
  unfold State.countLatency
  cases s.busy <;> simp

/-- While a command runs, an input is served with no effect but on the model's own fields. -/
theorem State.serveInput_of_busy {s : State} (hb : s.busy = true) {e : HostInput} (he : ∀ b, e ≠ .resetPin b)
    (rest : List HostInput) :
    ∃ is r, s.serveInput e rest =
        { s with inputs := is, response := r, latencyLeft := s.latencyLeft - 1 } ∧
      (is = rest ∨ is = .pollIdle :: rest) := by
  have hcount := s.countLatency_eq rest
  rw [if_pos hb] at hcount
  rw [State.serveInput, hcount]
  rcases State.serve_cases { s with inputs := rest, latencyLeft := s.latencyLeft - 1 } e with
    ⟨hpin, -⟩ | ⟨hpin, -⟩ | ⟨u, is, r, heq, hu, his⟩
  · exact absurd hpin (he true)
  · exact absurd hpin (he false)
  · obtain rfl := hu.eq_of_busy hb
    exact ⟨is, r, heq, his⟩

theorem step_of_turn_input {s : State} {e : HostInput} {rest : List HostInput} (ht : s.turn = .input e rest) :
    step s = .next (s.serveInput e rest) := by
  simp only [step, ht]

theorem step_of_turn_idle {s : State} (ht : s.turn = .idle) : step s = .next s := by
  simp only [step, ht]

/-- The engine's step ends in a completion, whether or not the word is a command's (R262, R94). -/
theorem step_completes_of_turn_engine {s : State} {w : Word} (ht : s.turn = .engine w) :
    ∃ r e p, step s = .next (State.complete r e p) := by
  simp only [step, ht]
  cases decode w with
  | ok i =>
    obtain ⟨r, e, p, hexec, -⟩ := exec_eq_complete i s
    exact ⟨r, e, p, hexec⟩
  | error r => exact ⟨s, .illegalCmd, 0, rfl⟩

theorem run_succ_of_step {s t : State} (h : step s = .next t) (k : Nat) :
    Sys2Proof.core.run (k + 1) s = Sys2Proof.core.run k t := by
  have hstep : Sys2Proof.core.step s = .next t := h
  simp only [Host.Core.run, hstep]

/-- A pending command completes: each input served before it uses up one of those LATENCY lets pass. -/
theorem completes_within_latency {s : State} {w : Word} (hf : s.fetched = some w)
    (hin : ∀ b, HostInput.resetPin b ∉ s.inputs) :
    ∃ (k : Nat) (r : State) (e : ErrCode) (p : Word), k ≤ s.latencyLeft + 1 ∧
      Sys2Proof.core.run k s = .next (r.complete e p) := by
  generalize hn : s.latencyLeft = n
  induction n generalizing s with
  | zero =>
    obtain ⟨r, e, p, hstep⟩ := step_completes_of_turn_engine (State.turn_eq_engine.2 ⟨hf, .inr hn⟩)
    exact ⟨1, r, e, p, Nat.le_refl 1, run_succ_of_step hstep 0⟩
  | succ n ih =>
    cases hi : s.inputs with
    | nil =>
      obtain ⟨r, e, p, hstep⟩ := step_completes_of_turn_engine (State.turn_eq_engine.2 ⟨hf, .inl hi⟩)
      exact ⟨1, r, e, p, Nat.le_add_left 1 _, run_succ_of_step hstep 0⟩
    | cons e rest =>
      have hturn : s.turn = .input e rest := State.turn_eq_input.2 ⟨hi, .inr (by omega)⟩
      have he : ∀ b, e ≠ .resetPin b := fun b heq => hin b (by simp [hi, heq])
      obtain ⟨hb, hr, hp⟩ := State.fetched_eq_some.1 hf
      obtain ⟨is, resp, hserve, his⟩ := State.serveInput_of_busy hb he rest
      have hstep := step_of_turn_input hturn
      rw [hserve] at hstep
      have hin' : ∀ b, HostInput.resetPin b ∉ is := by
        intro b hmem
        have hrest : HostInput.resetPin b ∈ rest := by rcases his with rfl | rfl <;> simpa using hmem
        exact hin b (by simp [hi, hrest])
      obtain ⟨k, r, err, p, hk, hrun⟩ := ih
        (s := { s with inputs := is, response := resp, latencyLeft := s.latencyLeft - 1 })
        (State.fetched_eq_some.2 ⟨hb, hr, hp⟩) hin' (by simp only [hn, Nat.add_sub_cancel])
      exact ⟨k + 1, r, err, p, Nat.succ_le_succ hk, (run_succ_of_step hstep k).trans hrun⟩

end Sys2Proof.Machine
end

section
/-! PROOFS. The statements on a running command (spec/20_memory.md section 4; spec/70_reset_and_hazards.md
section 3). -/

open Sys2Proof Sys2Proof.Machine

namespace Sys2Proof.Proofs

/-- Settles O11, by induction on the inputs LATENCY still lets pass. -/
theorem commandCompletesWithinLatency : Obligations.CommandCompletesWithinLatency := by
  unfold Obligations.CommandCompletesWithinLatency
  intro s w hb hr hp hin
  obtain ⟨k, r, e, p, hk, hrun⟩ := completes_within_latency (State.fetched_eq_some.2 ⟨hb, hr, hp⟩) hin
  exact ⟨k, r.complete e p, hk, hrun, rfl, rfl, rfl⟩

/-- Settles O12: a busy core refuses every write, and a read writes the response only. -/
theorem runningCommandIsUndisturbed : Obligations.RunningCommandIsUndisturbed := by
  unfold Obligations.RunningCommandIsUndisturbed
  intro s t e rest hb hturn he hstep
  obtain ⟨is, r, hserve, -⟩ := State.serveInput_of_busy hb he rest
  rw [step_of_turn_input hturn, hserve] at hstep
  obtain rfl := Host.Outcome.next.inj hstep
  rfl

end Sys2Proof.Proofs
end

section
/-! SUPPORT. What a command can make of the state before its completion, said once: one constructor per update a body
makes, with the facts that the frames and the invariant rest on (spec/10_state.md section 4, the table of what each
command writes). -/

namespace Sys2Proof.Machine

open Sys2Proof.Spec

/-- The states the body of the command `i` can reach from `s`. -/
inductive CmdReached (i : Instr) (s : State) : State → Prop where
  | nothing : CmdReached i s s
  /-- CLEAR (R242). -/
  | clear (hi : i = .clear) :
      CmdReached i s { s.invalidateTree with freq := zeroFreq, outLen := 0, bitLen := 0, crcOut := 0 }
  /-- COUNT (R111). -/
  | count (hi : i = .count) (F : Table Word) : CmdReached i s { s with freq := F }
  /-- BUILD, or ENCODE behind its COUNT, without a tree to install (R137). -/
  | noTree (F : Table Word) (hi : i = .encode ∨ i = .build ∧ F = s.freq) :
      CmdReached i s ({ s with freq := F }).invalidateTree
  /-- BUILD, or ENCODE behind its COUNT, with one (R137). -/
  | tree (F : Table Word) (hi : i = .encode ∨ i = .build ∧ F = s.freq) (hK : distinct F ≠ 0)
      (hsum : total F ≤ 0xFFFFFFFF) : CmdReached i s (({ s with freq := F }).installTree F)
  /-- EMIT and PACK (R161, R190). -/
  | record (hi : i = .emit ∨ i = .pack) (B : Bitstring) (crc : Word)
      (hB : ceilDiv B.length 8 ≤ s.params.packCap) : CmdReached i s (s.writeRecord B crc)
  /-- ENCODE (R167). -/
  | encoded (hi : i = .encode) (F : Table Word) (hK : distinct F ≠ 0) (hsum : total F ≤ 0xFFFFFFFF)
      (B : Bitstring) (crc : Word) (hB : ceilDiv B.length 8 ≤ s.params.packCap) :
      CmdReached i s ((({ s with freq := F }).installTree F).writeRecord B crc)
  /-- DECODE and UNPACK without a record they accept (R193, R213). -/
  | noOutput (hi : i = .decode ∨ i = .unpack) : CmdReached i s { s with outLen := 0 }
  /-- DECODE and UNPACK (R193, R213). -/
  | output (hi : i = .decode ∨ i = .unpack) (L : BitVec 64) (crc : Word) (bs : List Byte)
      (hbs : bs.length ≤ s.params.outCap) :
      CmdReached i s { s with
        bitLen := L, crcOut := crc, outMem := s.outMem.writeBytes 0 bs, outLen := BitVec.ofNat 32 bs.length }
  /-- DECODE after INTEGRITY or MALFORMED_WALK (R218). -/
  | redrawn (hi : i = .decode) (L : BitVec 64) (crc : Word) :
      CmdReached i s { ({ s with bitLen := L, crcOut := crc }).redrawOut with outLen := 0 }
  /-- CRC (R195). -/
  | crc (hi : i = .crc) (c : Word) : CmdReached i s { s with crcOut := c }

/-! ### Each command's body -/

theorem countBody_reached (s : State) : CmdReached .count s (countBody s).reached := by
  rcases countBody_cases s with ⟨-, h⟩ | ⟨-, h⟩ <;> rw [h]
  · exact .nothing
  · exact .count rfl _

theorem buildBody_reached (s : State) : CmdReached .build s (buildBody s).reached := by
  rcases buildBody_cases s with ⟨-, h⟩ | ⟨-, -, h⟩ | ⟨hK, hsum, h⟩ <;> rw [h]
  · exact .noTree s.freq (.inr ⟨rfl, rfl⟩)
  · exact .noTree s.freq (.inr ⟨rfl, rfl⟩)
  · exact .tree s.freq (.inr ⟨rfl, rfl⟩) (mt codedSymbols_eq_nil_iff.2 hK)
      ((freqSum_eq_total _).symm.trans_le hsum)

theorem emitBody_reached (s : State) : CmdReached .emit s (emitBody s).reached := by
  rcases emitBody_cases s with
    ⟨-, h⟩ | ⟨-, -, h⟩ | ⟨-, -, i, -, h⟩ | ⟨-, -, -, -, h⟩ | ⟨-, -, -, hpack, h⟩ <;> rw [h]
  · exact .nothing
  · exact .nothing
  · exact .nothing
  · exact .nothing
  · exact .record (.inl rfl) _ _ hpack

theorem encodeBody_reached (s : State) : CmdReached .encode s (encodeBody s).reached := by
  have htable (hn : 1 ≤ s.textLen.toNat) :
      distinct (freqCount s.textBytes) ≠ 0 ∧ total (freqCount s.textBytes) ≤ 0xFFFFFFFF := by
    have htree := State.withTextTree_holdsTreeOf (s := s) (Nat.ne_of_gt hn)
    exact ⟨htree.distinct_ne_zero, (freqSum_eq_total _).symm.trans_le htree.sumFits⟩
  rcases encodeBody_cases s with ⟨-, h⟩ | ⟨-, h⟩ | ⟨hn, -, -, h⟩ | ⟨hn, -, hpack, h⟩ <;> rw [h]
  · exact .nothing
  · exact .noTree _ (.inl rfl)
  · exact .tree _ (.inl rfl) (htable hn).1 (htable hn).2
  · exact .encoded rfl _ (htable hn).1 (htable hn).2 _ _ hpack

theorem decodeBody_reached (s : State) : CmdReached .decode s (decodeBody s).reached := by
  rcases decodeBody_cases s with ⟨-, h⟩ | ⟨-, -, h⟩ | ⟨-, -, -, h⟩ | ⟨hfits, -, r, hparse, h⟩ <;> rw [h]
  · exact .noOutput (.inl rfl)
  · exact .noOutput (.inl rfl)
  · exact .noOutput (.inl rfl)
  · rcases decodeParsed_cases s r with ⟨-, hend⟩ | ⟨-, p, -, hend⟩ | ⟨-, -, hend⟩ <;> rw [hend]
    · exact .redrawn rfl _ _
    · exact .redrawn rfl _ _
    · exact .output (.inl rfl) _ _ _ (walk_symbols_length_le_outCap hfits hparse)

theorem packBody_reached (s : State) : CmdReached .pack s (packBody s).reached := by
  rcases packBody_cases s with ⟨-, h⟩ | ⟨-, i, -, h⟩ | ⟨-, -, -, h⟩ | ⟨-, -, hpack, h⟩ <;> rw [h]
  · exact .nothing
  · exact .nothing
  · exact .nothing
  · exact .record (.inr rfl) _ _ (by rwa [List.length_map, s.textBytes_length])

theorem unpackBody_reached (s : State) : CmdReached .unpack s (unpackBody s).reached := by
  rcases unpackBody_cases s with ⟨-, h⟩ | ⟨-, -, h⟩ | ⟨hfits, r, hparse, h⟩ <;> rw [h]
  · exact .noOutput (.inr rfl)
  · exact .noOutput (.inr rfl)
  · obtain ⟨hlen, -, -, -, hbits⟩ := parseRecord_eq_some hparse
    have hascii : (ascii r.bits).length = r.length := (ascii_length _).trans hbits
    have hcap : (ascii r.bits).length ≤ s.params.outCap := hascii.trans_le (le_outCap_of_framed (hlen ▸ hfits))
    exact hascii ▸ .output (.inr rfl) (BitVec.ofNat 64 r.length) r.stored (ascii r.bits) hcap

theorem crcBody_reached (s : State) : CmdReached .crc s (crcBody s).reached := by
  rcases crcBody_cases s with ⟨-, h⟩ | ⟨-, h⟩ <;> rw [h]
  · exact .nothing
  · exact .crc rfl _

/-- Every command completes from a state its body can reach. -/
theorem exec_reached {i : Instr} {s t : State} (h : exec i s = .next t) :
    ∃ r e p, t = State.complete r e p ∧ CmdReached i s r := by
  obtain ⟨b, hb, hreached⟩ : ∃ b : CmdEnd, exec i s = b.outcome ∧ CmdReached i s b.reached := by
    cases i with
    | nop => exact ⟨_, rfl, .nothing⟩
    | clear => exact ⟨_, rfl, .clear rfl⟩
    | count => exact ⟨_, rfl, countBody_reached s⟩
    | build => exact ⟨_, rfl, buildBody_reached s⟩
    | emit => exact ⟨_, rfl, emitBody_reached s⟩
    | encode => exact ⟨_, rfl, encodeBody_reached s⟩
    | decode => exact ⟨_, rfl, decodeBody_reached s⟩
    | pack => exact ⟨_, rfl, packBody_reached s⟩
    | unpack => exact ⟨_, rfl, unpackBody_reached s⟩
    | crc => exact ⟨_, rfl, crcBody_reached s⟩
  obtain ⟨e, p, hcomplete⟩ := b.complete_eq
  exact ⟨b.reached, e, p, (Host.Outcome.next.inj (h.symm.trans hb)).trans hcomplete, hreached⟩

/-- No command writes what is the host's side. -/
theorem exec_sameHostSide {i : Instr} {s t : State} (h : exec i s = .next t) : s.SameHostSide t := by
  obtain ⟨r, e, p, hexec, hside⟩ := exec_eq_complete i s
  obtain rfl := Host.Outcome.next.inj (h.symm.trans hexec)
  exact hside.trans (by constructor <;> rfl)

end Sys2Proof.Machine
end

section
/-! SUPPORT. What each group of fields is kept by (spec/10_state.md section 4, the table of what each command writes):
in every other case the update names none of the group. -/

namespace Sys2Proof.Machine

open Sys2Proof.Spec

namespace CmdReached

variable {i : Instr} {s r : State} (h : CmdReached i s r)
include h

theorem record_eq (hemit : i ≠ .emit) (hencode : i ≠ .encode) (hpack : i ≠ .pack) :
    r.recMem = s.recMem ∧ r.recLen = s.recLen := by
  cases h with
  | record hi => exact (hi.elim hemit hpack).elim
  | encoded hi => exact absurd hi hencode
  | _ => exact ⟨rfl, rfl⟩

theorem out_eq (hdecode : i ≠ .decode) (hunpack : i ≠ .unpack) : r.outMem = s.outMem ∧ r.draws = s.draws := by
  cases h with
  | output hi => exact (hi.elim hdecode hunpack).elim
  | redrawn hi => exact absurd hi hdecode
  | _ => exact ⟨rfl, rfl⟩

theorem outLen_eq (hdecode : i ≠ .decode) (hunpack : i ≠ .unpack) (hclear : i ≠ .clear) :
    r.outLen = s.outLen := by
  cases h with
  | clear hi => exact absurd hi hclear
  | noOutput hi => exact (hi.elim hdecode hunpack).elim
  | output hi => exact (hi.elim hdecode hunpack).elim
  | redrawn hi => exact absurd hi hdecode
  | _ => rfl

theorem freq_eq (hcount : i ≠ .count) (hencode : i ≠ .encode) (hclear : i ≠ .clear) : r.freq = s.freq := by
  cases h with
  | clear hi => exact absurd hi hclear
  | count hi => exact absurd hi hcount
  | noTree F hi => exact (hi.resolve_left hencode).2
  | tree F hi => exact (hi.resolve_left hencode).2
  | encoded hi => exact absurd hi hencode
  | _ => rfl

theorem arena_eq (hbuild : i ≠ .build) (hencode : i ≠ .encode) : r.arena = s.arena := by
  cases h with
  | tree F hi => exact absurd (hi.resolve_left hencode).1 hbuild
  | encoded hi => exact absurd hi hencode
  | _ => rfl

theorem tree_eq (hbuild : i ≠ .build) (hencode : i ≠ .encode) (hclear : i ≠ .clear) :
    r.treeValid = s.treeValid ∧ r.codes = s.codes ∧ r.nodeCount = s.nodeCount ∧ r.root = s.root := by
  cases h with
  | clear hi => exact absurd hi hclear
  | noTree F hi => exact absurd (hi.resolve_left hencode).1 hbuild
  | tree F hi => exact absurd (hi.resolve_left hencode).1 hbuild
  | encoded hi => exact absurd hi hencode
  | _ => exact ⟨rfl, rfl, rfl, rfl⟩

theorem crcOut_eq (hi : i = .nop ∨ i = .count ∨ i = .build) : r.crcOut = s.crcOut := by
  cases h with
  | clear h' | encoded h' | redrawn h' | crc h' => subst h'; simp at hi
  | record h' | output h' => obtain rfl | rfl := h' <;> simp at hi
  | _ => rfl

theorem bitLen_eq (hi : i = .nop ∨ i = .count ∨ i = .build ∨ i = .crc) : r.bitLen = s.bitLen := by
  cases h with
  | clear h' | encoded h' | redrawn h' => subst h'; simp at hi
  | record h' | output h' => obtain rfl | rfl := h' <;> simp at hi
  | _ => rfl

end CmdReached

/-- Overwriting keeps the arena behind the nodes written. -/
theorem Arena.overwrite_getElem?_past (a : Arena) {ns : List Node} {j : Nat} (hj : ns.length ≤ j) :
    (a.overwrite ns).nodes[j]? = a.nodes[j]? := by
  rw [Arena.overwrite, List.getElem?_append_right hj, List.getElem?_drop, Nat.add_sub_of_le hj]

theorem Arena.overwrite_nodes_length_le (a : Arena) {ns : List Node} {n : Nat} (hns : ns.length ≤ n)
    (ha : a.nodes.length ≤ n) : (a.overwrite ns).nodes.length ≤ n := by
  rw [Arena.overwrite, List.length_append, List.length_drop]
  omega

/-- The installed tree ends where NODE_COUNT says, and the arena behind it is kept (assumption log 4). -/
theorem State.node_installTree_past (s : State) {F : Table Word} (hK : distinct F ≠ 0) {j : Nat}
    (hj : (s.installTree F).nodeCount.toNat ≤ j) : (s.installTree F).node j = s.node j := by
  have hlen := buildNodes_length hK
  have hle := distinct_le F
  rw [State.installTree_nodeCount, BitVec.toNat_ofNat, codedSymbols_length] at hj
  rw [State.node, State.installTree_arena, Arena.overwrite_getElem?_past _ (by omega)]
  rfl

theorem CmdReached.node_past {i : Instr} {s r : State} (h : CmdReached i s r) :
    r.arena.draw = s.arena.draw ∧ ∀ j, r.nodeCount.toNat ≤ j → r.node j = s.node j := by
  cases h with
  | tree F hi hK hsum => exact ⟨rfl, fun j hj => State.node_installTree_past _ hK hj⟩
  | encoded hi F hK hsum => exact ⟨rfl, fun j hj => State.node_installTree_past _ hK hj⟩
  | _ => exact ⟨rfl, fun _ _ => rfl⟩

end Sys2Proof.Machine
end

section
/-! SUPPORT. The parts of the invariant, kept by every command and every input (spec/10_state.md sections 2 to 4;
spec/20_memory.md sections 1 and 3; spec/41_code_tree_builder.md section 3). -/

namespace Sys2Proof.Machine

open Sys2Proof.Spec

/-! ### Memories -/

/-- The memory is in canonical form and lists bytes below `cap` only. -/
def Memory.Within (m : Memory) (cap : Nat) : Prop := m.wf ∧ ∀ c ∈ m.cells, c.1 < cap

theorem Memory.within_unspecified (d cap : Nat) : (Memory.unspecified d).Within cap :=
  ⟨Memory.wf_unspecified d, fun _ hc => absurd hc List.not_mem_nil⟩

theorem Memory.Within.writeBytes {m : Memory} {cap i : Nat} {bs : List Byte} (h : m.Within cap)
    (hbs : i + bs.length ≤ cap) : (m.writeBytes i bs).Within cap := by
  obtain ⟨hwf, hbound⟩ := h
  refine ⟨Memory.wf_writeBytes hwf i bs, fun c hc => ?_⟩
  obtain hlt | hold := Memory.mem_writeBytes hc
  · exact hlt.trans_le hbs
  · exact hbound c hold

theorem State.memoriesOk_iff {s : State} : s.MemoriesOk ↔
    s.textMem.Within s.params.textCap ∧ s.recMem.Within s.params.recCap ∧ s.outMem.Within s.params.outCap :=
  ⟨fun h => ⟨⟨h.textWf, h.textBound⟩, ⟨h.recWf, h.recBound⟩, ⟨h.outWf, h.outBound⟩⟩,
    fun ⟨htext, hrec, hout⟩ => ⟨htext.1, hrec.1, hout.1, htext.2, hrec.2, hout.2⟩⟩

theorem State.MemoriesOk.congr {s t : State} (h : s.MemoriesOk) (hparams : t.params = s.params)
    (htext : t.textMem = s.textMem) (hrec : t.recMem = s.recMem) (hout : t.outMem = s.outMem) : t.MemoriesOk := by
  rw [State.memoriesOk_iff, hparams, htext, hrec, hout, ← State.memoriesOk_iff]
  exact h

/-- Bytes stored within their space's capacity. -/
theorem State.MemoriesOk.memWrite {s : State} (h : s.MemoriesOk) {sp : Space} {i : Nat} {bs : List Byte}
    (hbs : i + bs.length ≤ s.params.spaceCap sp) : (s.memWrite sp i bs).MemoriesOk := by
  obtain ⟨htext, hrec, hout⟩ := State.memoriesOk_iff.1 h
  cases sp with
  | text => exact State.memoriesOk_iff.2 ⟨htext.writeBytes hbs, hrec, hout⟩
  | record => exact State.memoriesOk_iff.2 ⟨htext, hrec.writeBytes hbs, hout⟩
  | out => exact State.memoriesOk_iff.2 ⟨htext, hrec, hout.writeBytes hbs⟩

/-- A record within PACK_CAP fits REC. -/
theorem State.MemoriesOk.writeRecord {s : State} (h : s.MemoriesOk) {B : Bitstring}
    (hB : ceilDiv B.length 8 ≤ s.params.packCap) (crc : Word) : (s.writeRecord B crc).MemoriesOk := by
  have hlen : 0 + (recordBytes s.be B crc).length ≤ s.params.recCap := by
    rw [recordBytes_length, Params.recCap]
    omega
  exact (h.memWrite (sp := .record) hlen).congr rfl rfl rfl rfl

theorem CmdReached.memoriesOk {i : Instr} {s r : State} (h : CmdReached i s r) (hs : s.MemoriesOk) :
    r.MemoriesOk := by
  cases h with
  | record hi B crc hB => exact hs.writeRecord hB crc
  | encoded hi F hK hsum B crc hB =>
    exact State.MemoriesOk.writeRecord (s := ({ s with freq := F }).installTree F) (hs.congr rfl rfl rfl rfl) hB crc
  | output hi L crc bs hbs =>
    exact (hs.memWrite (sp := .out) (i := 0) (by rwa [Nat.zero_add])).congr rfl rfl rfl rfl
  | redrawn hi L crc =>
    obtain ⟨htext, hrec, -⟩ := State.memoriesOk_iff.1 hs
    exact State.memoriesOk_iff.2 ⟨htext, hrec, Memory.within_unspecified _ _⟩
  | _ => exact hs.congr rfl rfl rfl rfl

/-! ### The latch -/

/-- With nothing pending there is nothing to ask of the latch. -/
theorem State.latchOk_of_idle {s : State} (hb : s.busy = false) (hp : s.pending = none) : s.LatchOk where
  busyIff := by rw [hb, hp]; rfl
  cmdHeld := fun w hw => nomatch hp.symm.trans hw
  flagsClear := fun hbusy => nomatch hb.symm.trans hbusy
  resetIdle := fun _ => hb

theorem State.LatchOk.pending_eq_none {s : State} (h : s.LatchOk) (hb : s.busy = false) : s.pending = none :=
  Option.isNone_iff_eq_none.1 (by rw [← Option.not_isSome, ← h.busyIff, hb]; rfl)

/-! ### The tree -/

theorem State.TreeOk.congr {s t : State} (h : s.TreeOk) (hvalid : t.treeValid = s.treeValid)
    (harena : t.arena = s.arena) (hcodes : t.codes = s.codes) (hcount : t.nodeCount = s.nodeCount)
    (hroot : t.root = s.root) : t.TreeOk where
  valid := fun hv => by
    obtain ⟨F, hF⟩ := h.valid (hvalid ▸ hv)
    exact ⟨F, hF.nonempty, hF.sumFits, harena ▸ hF.nodes, hcodes ▸ hF.codes, hcount ▸ hF.nodeCount,
      hroot ▸ hF.root⟩
  invalid := fun hv => by
    rw [hcount, hroot, hcodes]
    exact h.invalid (hvalid ▸ hv)
  arenaSize := harena ▸ h.arenaSize

theorem State.TreeOk.invalidateTree {s : State} (h : s.TreeOk) : s.invalidateTree.TreeOk where
  valid := nofun
  invalid := fun _ => ⟨rfl, rfl, rfl⟩
  arenaSize := h.arenaSize

theorem State.TreeOk.installTree {s : State} (h : s.TreeOk) {F : Table Word} (hK : distinct F ≠ 0)
    (hsum : total F ≤ 0xFFFFFFFF) : (s.installTree F).TreeOk where
  valid := fun _ => ⟨F, s.holdsTreeOf_installTree hK hsum⟩
  invalid := nofun
  arenaSize := by
    have hlen := buildNodes_length hK
    have hle := distinct_le F
    exact Arena.overwrite_nodes_length_le _ (by omega) h.arenaSize

theorem CmdReached.treeOk {i : Instr} {s r : State} (h : CmdReached i s r) (hs : s.TreeOk) : r.TreeOk := by
  have hcounted (F : Table Word) : ({ s with freq := F }).TreeOk := hs.congr rfl rfl rfl rfl rfl
  cases h with
  | clear => exact hs.invalidateTree.congr rfl rfl rfl rfl rfl
  | noTree F => exact (hcounted F).invalidateTree
  | tree F hi hK hsum => exact (hcounted F).installTree hK hsum
  | encoded hi F hK hsum => exact ((hcounted F).installTree hK hsum).congr rfl rfl rfl rfl rfl
  | _ => exact hs.congr rfl rfl rfl rfl rfl

/-! ### OUT_LEN and the draws -/

theorem CmdReached.outLen_le {i : Instr} {s r : State} (h : CmdReached i s r)
    (hs : s.outLen.toNat ≤ s.params.outCap) : r.outLen.toNat ≤ r.params.outCap := by
  cases h with
  | clear | noOutput | redrawn => exact Nat.zero_le _
  | output hi L crc bs hbs => exact (Nat.mod_le _ _).trans hbs
  | _ => exact hs

theorem State.DrawsFresh.congr {s t : State} (h : s.DrawsFresh) (htext : t.textMem.draw = s.textMem.draw)
    (hrec : t.recMem.draw = s.recMem.draw) (hout : t.outMem.draw = s.outMem.draw)
    (harena : t.arena.draw = s.arena.draw) (hdraws : s.draws ≤ t.draws) : t.DrawsFresh where
  text := htext ▸ h.text.trans_le hdraws
  record := hrec ▸ h.record.trans_le hdraws
  out := hout ▸ h.out.trans_le hdraws
  arena := harena ▸ h.arena.trans_le hdraws

theorem CmdReached.drawsFresh {i : Instr} {s r : State} (h : CmdReached i s r) (hs : s.DrawsFresh) :
    r.DrawsFresh := by
  cases h with
  | record | encoded => exact hs.congr rfl (Memory.writeBytes_draw ..) rfl rfl (Nat.le_refl _)
  | output => exact hs.congr rfl rfl (Memory.writeBytes_draw ..) rfl (Nat.le_refl _)
  | redrawn => exact ⟨Nat.lt_succ_of_lt hs.text, Nat.lt_succ_of_lt hs.record, Nat.lt_succ_self _,
      Nat.lt_succ_of_lt hs.arena⟩
  | _ => exact hs.congr rfl rfl rfl rfl (Nat.le_refl _)

/-! ### The invariant -/

/-- The invariant does not see the model's own fields on the host's side. -/
theorem State.Inv.withHostFields {s : State} (h : s.Inv) (is : List HostInput) (r : Option Response) (n : Nat) :
    ({ s with inputs := is, response := r, latencyLeft := n }).Inv where
  memories := h.memories.congr rfl rfl rfl rfl
  latch := ⟨h.latch.busyIff, h.latch.cmdHeld, h.latch.flagsClear, h.latch.resetIdle⟩
  tree := h.tree.congr rfl rfl rfl rfl rfl
  outLen := h.outLen
  fresh := h.fresh.congr rfl rfl rfl rfl (Nat.le_refl _)

/-- A completion empties the latch, whatever the command reached. -/
theorem CmdReached.inv_complete {i : Instr} {s r : State} (h : CmdReached i s r) (hs : s.Inv) (e : ErrCode)
    (p : Word) : (r.complete e p).Inv where
  memories := (h.memoriesOk hs.memories).congr rfl rfl rfl rfl
  latch := State.latchOk_of_idle rfl rfl
  tree := (h.treeOk hs.tree).congr rfl rfl rfl rfl rfl
  outLen := h.outLen_le hs.outLen
  fresh := (h.drawsFresh hs.fresh).congr rfl rfl rfl rfl (Nat.le_refl _)

theorem State.Inv.acceptCommand {s : State} (h : s.Inv) (hr : s.inReset = false) (w : Word) :
    (s.acceptCommand w).Inv where
  memories := h.memories.congr rfl rfl rfl rfl
  latch := ⟨rfl, fun _ hw => Option.some.inj hw, fun _ => ⟨rfl, rfl⟩, fun hreset => nomatch hr.symm.trans hreset⟩
  tree := h.tree.congr rfl rfl rfl rfl rfl
  outLen := h.outLen
  fresh := h.fresh.congr rfl rfl rfl rfl (Nat.le_succ _)

/-- A register write to an idle core: to CMD it is an acceptance, to any other register it leaves the latch empty and
the rest of the invariant alone. -/
theorem State.Inv.regWrite {s : State} (h : s.Inv) (hb : s.busy = false) (hr : s.inReset = false) (r : Reg)
    (v : Word) : (s.regWrite r v).Inv := by
  have hp := h.latch.pending_eq_none hb
  cases r with
  | cmd => exact h.acceptCommand hr v
  | ctrl | status | textLen | recLen | nodeSel | codeSel | freq =>
    exact ⟨h.memories.congr rfl rfl rfl rfl, State.latchOk_of_idle hb hp, h.tree.congr rfl rfl rfl rfl rfl, h.outLen,
      h.fresh.congr rfl rfl rfl rfl (Nat.le_refl _)⟩
  | _ => exact h

theorem State.Inv.memWrite {s : State} (h : s.Inv) {sp : Space} {i : Nat} {bs : List Byte}
    (hbs : i + bs.length ≤ s.params.spaceCap sp) : (s.memWrite sp i bs).Inv where
  memories := h.memories.memWrite hbs
  latch := by
    obtain ⟨hbusy, hcmd, hflags, hreset⟩ := h.latch
    cases sp <;> exact ⟨hbusy, hcmd, hflags, hreset⟩
  tree := by cases sp <;> exact h.tree.congr rfl rfl rfl rfl rfl
  outLen := by cases sp <;> exact h.outLen
  fresh := by
    have hdraw (sp' : Space) : ((s.memWrite sp i bs).mem sp').draw = (s.mem sp').draw := by
      cases sp <;> cases sp' <;> simp [State.memWrite]
    exact h.fresh.congr (hdraw .text) (hdraw .record) (hdraw .out) (by cases sp <;> rfl) (by cases sp <;> rfl)

theorem HostReached.inv {s u : State} (h : HostReached s u) (hs : s.Inv) : u.Inv := by
  cases h with
  | nothing => exact hs
  | register hb hr r v => exact hs.regWrite hb hr r v
  | memory hb hr sp i b hi => exact hs.memWrite hi

/-- The reset values satisfy the invariant, under `rst` and after it. -/
theorem State.resetWith_inv (p : Params) (d : Nat) (rst : Bool) (is : List HostInput) (r : Option Response) :
    ({ State.resetWith p d with inReset := rst, inputs := is, response := r }).Inv where
  memories := State.memoriesOk_iff.2
    ⟨Memory.within_unspecified d _, Memory.within_unspecified d _, Memory.within_unspecified d _⟩
  latch := State.latchOk_of_idle rfl rfl
  tree := ⟨nofun, fun _ => ⟨rfl, rfl, rfl⟩, Nat.zero_le _⟩
  outLen := Nat.zero_le _
  fresh := ⟨Nat.lt_succ_self d, Nat.lt_succ_self d, Nat.lt_succ_self d, Nat.lt_succ_self d⟩

theorem State.Inv.deassertReset {s : State} (h : s.Inv) : s.deassertReset.Inv where
  memories := h.memories.congr rfl rfl rfl rfl
  latch := ⟨h.latch.busyIff, h.latch.cmdHeld, h.latch.flagsClear, nofun⟩
  tree := h.tree.congr rfl rfl rfl rfl rfl
  outLen := h.outLen
  fresh := h.fresh.congr rfl rfl rfl rfl (Nat.le_refl _)

theorem State.Inv.serve {s : State} (h : s.Inv) (e : HostInput) : (s.serve e).Inv := by
  rcases s.serve_cases e with ⟨-, heq⟩ | ⟨-, heq⟩ | ⟨u, is, r, heq, hu, -⟩ <;> rw [heq]
  · exact State.resetWith_inv s.params s.draws true s.inputs s.response
  · exact h.deassertReset
  · exact (hu.inv h).withHostFields is r u.latencyLeft

theorem State.Inv.serveInput {s : State} (h : s.Inv) (e : HostInput) (rest : List HostInput) :
    (s.serveInput e rest).Inv := by
  rw [State.serveInput, State.countLatency_eq]
  exact (h.withHostFields rest s.response _).serve e

/-! ### What an input leaves of the parameters and TREE_VALID -/

theorem State.serveInput_params_eq (s : State) (e : HostInput) (rest : List HostInput) :
    (s.serveInput e rest).params = s.params := by
  rw [State.serveInput, State.countLatency_eq]
  rcases State.serve_cases _ e with ⟨-, heq⟩ | ⟨-, heq⟩ | ⟨u, is, r, heq, hu, -⟩ <;> rw [heq]
  · rfl
  · rfl
  · exact hu.params_treeValid_eq.1

theorem State.serveInput_treeValid_eq (s : State) {e : HostInput} (he : e ≠ .resetPin true)
    (rest : List HostInput) : (s.serveInput e rest).treeValid = s.treeValid := by
  rw [State.serveInput, State.countLatency_eq]
  rcases State.serve_cases _ e with ⟨hpin, -⟩ | ⟨-, heq⟩ | ⟨u, is, r, heq, hu, -⟩
  · exact absurd hpin he
  · rw [heq]
    rfl
  · rw [heq]
    exact hu.params_treeValid_eq.2

end Sys2Proof.Machine
end

section
/-! PROOFS. The statements on the invariant and on the frames over all commands (spec/10_state.md sections 2 to 4;
spec/00_scope.md section 4). -/

open Sys2Proof Sys2Proof.Machine

namespace Sys2Proof.Proofs

/-- Settles O59: a command and an illegal word complete from a state that keeps each part of the invariant, and so
does each input. -/
theorem invariantKeptByEveryStep : Obligations.InvariantKeptByEveryStep := by
  unfold Obligations.InvariantKeptByEveryStep
  intro s t hs hstep
  rcases step_cases hstep with ⟨w, i, -, -, hexec⟩ | ⟨w, r, -, -, rfl⟩ | ⟨e, rest, -, rfl⟩ | ⟨-, rfl⟩
  · obtain ⟨r, e, p, rfl, hr⟩ := exec_reached hexec
    exact hr.inv_complete hs e p
  · exact (CmdReached.nothing (i := .nop)).inv_complete hs .illegalCmd 0
  · exact hs.serveInput e rest
  · exact hs

/-- Settles O44: the host's side by `SameHostSide`, each other group of fields by the updates that name it. -/
theorem commandsWriteOnlyTheirOwn : Obligations.CommandsWriteOnlyTheirOwn := by
  unfold Obligations.CommandsWriteOnlyTheirOwn
  intro i s t hexec
  have hside := exec_sameHostSide hexec
  obtain ⟨r, e, p, rfl, hr⟩ := exec_reached hexec
  exact ⟨hside.textMem, hr.record_eq, hr.out_eq, hr.outLen_eq, hr.freq_eq, hr.arena_eq, hr.node_past, hr.tree_eq,
    hr.bitLen_eq, hr.crcOut_eq, hside.params, hside.inReset, hside.ie, hside.crcsrc, hside.be, hside.cmd,
    hside.textLen, hside.nodeSel, hside.codeSel, hside.inputs, hside.response, hside.latencyLeft⟩

/-- Settles O45: of the commands by their frame, of the inputs because no write but an asserted reset reaches
TREE_VALID. -/
theorem treeValidHasFourWriters : Obligations.TreeValidHasFourWriters := by
  unfold Obligations.TreeValidHasFourWriters
  intro s t hstep hne
  rcases step_cases hstep with ⟨w, i, hturn, hd, hexec⟩ | ⟨w, r, -, -, rfl⟩ | ⟨e, rest, hturn, rfl⟩ | ⟨-, rfl⟩
  · refine .inl ⟨w, i, hturn, hd, ?_⟩
    by_contra hother
    obtain ⟨hbuild, hencode, hclear⟩ : i ≠ .build ∧ i ≠ .encode ∧ i ≠ .clear := by simpa using hother
    obtain ⟨r, e, p, rfl, hr⟩ := exec_reached hexec
    exact hne (hr.tree_eq hbuild hencode hclear).1
  · exact absurd rfl hne
  · refine .inr ⟨rest, ?_⟩
    by_cases he : e = .resetPin true
    · rw [hturn, he]
    · exact absurd (s.serveInput_treeValid_eq he rest) hne
  · exact absurd rfl hne

/-- Settles O58: the reset values are those of an asserted reset, with `rst` low and no input to come. -/
theorem invariantAtReset : Obligations.InvariantAtReset :=
  State.resetWith_inv Config.params 0 false [] none

/-- Settles O60: the parameters are on the host's side of every command, and no input writes them. -/
theorem parametersNeverChange : Obligations.ParametersNeverChange := by
  unfold Obligations.ParametersNeverChange
  intro s t hstep
  rcases step_cases hstep with ⟨w, i, -, -, hexec⟩ | ⟨w, r, -, -, rfl⟩ | ⟨e, rest, -, rfl⟩ | ⟨-, rfl⟩
  · exact (exec_sameHostSide hexec).params
  · rfl
  · exact s.serveInput_params_eq e rest
  · rfl

end Sys2Proof.Proofs
end

section
/-! SUPPORT. What a word transaction does at every offset of the register aperture, reserved ones included, and the
widths of the stored registers (spec/10_state.md R22 to R45; spec/20_memory.md R63). -/

namespace Sys2Proof.Machine

/-! ### Every offset of the aperture -/

/-- The register reached at an aligned offset is the one whose offset it is (R22). -/
theorem offset_of_regAt {off : Nat} {r : Reg} (halign : off % 4 = 0) (h : regAt off = some r) : r.offset = off := by
  have hlow : ∀ k : Fin 18, (lowRegs[k.val]'k.isLt).offset = 4 * k.val := by decide
  simp only [regAt] at h
  split at h
  · rename_i hk
    rw [List.getElem?_eq_getElem (show off / 4 < lowRegs.length from hk)] at h
    rw [← Option.some.inj h]
    exact (hlow ⟨off / 4, hk⟩).trans (Nat.mul_div_cancel' (Nat.dvd_of_mod_eq_zero halign))
  split at h
  · rename_i hk
    rw [← Option.some.inj h, Reg.offset, Fin.val_ofNat]
    omega
  split at h
  · rename_i hk
    rw [← Option.some.inj h, Reg.offset, BitVec.toNat_ofNat]
    omega
  · cases h

theorem regAt_reserved {off : Nat} (halign : off % 4 = 0)
    (h : off = 0x048 ∨ off = 0x04C ∨ (0x070 ≤ off ∧ off < 0x400) ∨ 0x800 ≤ off) : regAt off = none := by
  simp [regAt, show ¬ off / 4 < 18 by omega, show ¬ (20 ≤ off / 4 ∧ off / 4 < 28) by omega,
    show ¬ (256 ≤ off / 4 ∧ off / 4 < 512) by omega]

theorem busTarget_aperture {off : Nat} (hlt : off < 0x1000) (halign : off % 4 = 0) (p : Params) :
    busTarget p (BitVec.ofNat 32 off) .word = .register off := by
  have hoff : off % 2 ^ 32 = off := Nat.mod_eq_of_lt (by omega)
  simp only [busTarget, BitVec.toNat_ofNat, hoff, if_pos hlt, halign, and_self, if_true]

theorem State.hostRead_aperture {s : State} (hb : s.busy = false) (hr : s.inReset = false) {off : Nat}
    (hlt : off < 0x1000) (halign : off % 4 = 0) :
    s.hostRead (BitVec.ofNat 32 off) .word = .data (s.apertureRead off) := by
  simp [State.hostRead, State.lockedOut_of_idle hb hr, busTarget_aperture hlt halign]

theorem State.hostWrite_aperture {s : State} (hb : s.busy = false) (hr : s.inReset = false) {off : Nat}
    (hlt : off < 0x1000) (halign : off % 4 = 0) (v : Word) :
    s.hostWrite (BitVec.ofNat 32 off) .word v = (s.apertureWrite off v, .ok) := by
  simp [State.hostWrite, State.lockedOut_of_idle hb hr, busTarget_aperture hlt halign]

/-- A write reaches storage at the offsets of the eight writable registers only (R22, R23). -/
theorem State.apertureWrite_inert (s : State) {off : Nat} (halign : off % 4 = 0)
    (hlow : off ∉ [0x004, 0x008, 0x00C, 0x010, 0x014, 0x034, 0x040]) (hfreq : off < 0x400 ∨ 0x800 ≤ off) (v : Word) :
    s.apertureWrite off v = s := by
  unfold State.apertureWrite
  cases hreg : regAt off with
  | none => rfl
  | some r =>
    obtain rfl := offset_of_regAt halign hreg
    cases r with
    | ctrl | status | cmd | textLen | recLen | nodeSel | codeSel => exact absurd (by decide) hlow
    | freq c =>
      have hc := c.isLt
      simp only [Reg.offset] at hfreq
      omega
    | _ => rfl

/-! ### Widths -/

theorem extractLsb'_zero_eq_setWidth (v : Word) (n : Nat) : v.extractLsb' 0 n = v.setWidth n :=
  BitVec.eq_of_toNat_eq (by simp)

/-- A stored field of `n` bits reads back as the low bits of the word written. -/
theorem setWidth_setWidth_eq_and_mask (v : Word) {n : Nat} (hn : n ≤ 32) :
    (v.setWidth n).setWidth 32 = v &&& BitVec.ofNat 32 (2 ^ n - 1) := by
  have hlt : 2 ^ n - 1 < 2 ^ 32 := Nat.lt_of_lt_of_le (Nat.sub_one_lt (by simp)) (Nat.pow_le_pow_right (by decide) hn)
  have hle : v.toNat % 2 ^ n < 2 ^ 32 := (Nat.mod_le _ _).trans_lt v.isLt
  refine BitVec.eq_of_toNat_eq ?_
  rw [BitVec.toNat_setWidth, BitVec.toNat_setWidth, BitVec.toNat_and, BitVec.toNat_ofNat, Nat.mod_eq_of_lt hlt,
    Nat.and_two_pow_sub_one_eq_mod, Nat.mod_eq_of_lt hle]

theorem bitLen_low (x : BitVec 64) : x.extractLsb' 0 32 = BitVec.ofNat 32 (x.toNat % 2 ^ 32) :=
  BitVec.eq_of_toNat_eq (by simp)

theorem bitLen_high (x : BitVec 64) : x.extractLsb' 32 32 = BitVec.ofNat 32 (x.toNat / 2 ^ 32) :=
  BitVec.eq_of_toNat_eq (by simp [Nat.shiftRight_eq_div_pow])

/-! ### STATUS and CTRL, bit by bit -/

theorem getLsbD_append_ofBool {n : Nat} (x : BitVec n) (b : Bool) (k : Nat) :
    (x ++ BitVec.ofBool b).getLsbD k = if k = 0 then b else x.getLsbD (k - 1) := by
  rw [BitVec.getLsbD_append]
  cases k with
  | zero => simp
  | succ k => simp

theorem State.statusWord_getLsbD (s : State) (k : Nat) : s.statusWord.getLsbD k =
    (if k = 0 then s.busy else if k = 1 then s.done else if k = 2 then s.treeValid
      else if 8 ≤ k ∧ k < 16 then s.err.code.getLsbD (k - 8) else false) := by
  match k with
  | 0 | 1 | 2 => simp only [State.statusWord, getLsbD_append_ofBool]; rfl
  | k + 3 =>
    simp only [State.statusWord, BitVec.getLsbD_append, BitVec.ofNat_eq_ofNat, BitVec.getLsbD_zero]
    obtain hlow | ⟨hlo, hhi⟩ | hhigh : k < 5 ∨ (5 ≤ k ∧ k < 13) ∨ 13 ≤ k := by omega
    · simp [hlow, show ¬ 8 ≤ k + 3 by omega]
    · simp [Nat.not_lt.2 hlo, show k - 5 < 8 by omega, show 8 ≤ k + 3 by omega, show k + 3 < 16 by omega]
    · simp [show ¬ k < 5 by omega, show ¬ k - 5 < 8 by omega, show ¬ k + 3 < 16 by omega]

theorem State.ctrlWord_getLsbD (s : State) (k : Nat) : s.ctrlWord.getLsbD k =
    (if k = 0 then s.ie else if k = 1 then s.crcsrc else if k = 2 then s.be else false) := by
  match k with
  | 0 | 1 | 2 => simp only [State.ctrlWord, getLsbD_append_ofBool]; rfl
  | k + 3 => simp [State.ctrlWord, getLsbD_append_ofBool]

/-- CTRL reads back the three bits a write stores (R26). -/
theorem State.ctrlWord_writeCtrl (s : State) (v : Word) : (s.writeCtrl v).ctrlWord = v &&& 0x7 := by
  have hmask : v &&& 0x7 = (v.setWidth 3).setWidth 32 := (setWidth_setWidth_eq_and_mask v (n := 3) (by decide)).symm
  refine BitVec.eq_of_getLsbD_eq fun k hk => ?_
  rw [State.ctrlWord_getLsbD, hmask, BitVec.getLsbD_setWidth, BitVec.getLsbD_setWidth]
  match k with
  | 0 | 1 | 2 => simp [State.writeCtrl]
  | k + 3 => simp

end Sys2Proof.Machine
end

section
/-! SUPPORT. Which agent moves, and what WAIT reads (spec/30_encoding.md R95; spec/70_reset_and_hazards.md
section 3). -/

namespace Sys2Proof.Machine

theorem State.fetched_eq_none {s : State} (h : s.busy = false ∨ s.inReset = true ∨ s.pending = none) :
    s.fetched = none := by
  unfold State.fetched
  obtain hb | hr | hp := h
  · simp [hb]
  · simp [hr]
  · simp [hp]

/-- The engine waits for the next input while nothing can be executed or LATENCY has not run out. -/
theorem State.turn_eq_input_of_waiting {s : State} {e : HostInput} {rest : List HostInput}
    (hi : s.inputs = e :: rest)
    (h : s.busy = false ∨ s.inReset = true ∨ s.pending = none ∨ s.latencyLeft ≠ 0) : s.turn = .input e rest := by
  refine State.turn_eq_input.2 ⟨hi, ?_⟩
  obtain hb | hr | hp | hl := h
  · exact .inl (State.fetched_eq_none (.inl hb))
  · exact .inl (State.fetched_eq_none (.inr (.inl hr)))
  · exact .inl (State.fetched_eq_none (.inr (.inr hp)))
  · exact .inr hl

theorem State.hostRead_status {s : State} (hr : s.inReset = false) :
    s.hostRead 0x008 .word = .data s.statusWord :=
  State.hostRead_regAddr_of_accepted (r := .status) (by simp [State.lockedOut, hr, regAddr, Reg.offset])

/-- WAIT goes on under BUSY, and under `rst`, where STATUS cannot be read (assumption log 7). -/
theorem State.pollAgain_status (s : State) : pollAgain (some (s.hostRead 0x008 .word)) = (s.busy || s.inReset) := by
  cases hr : s.inReset with
  | true =>
    rw [State.hostRead_of_inReset hr, Bool.or_true]
    rfl
  | false => rw [State.hostRead_status hr, Bool.or_false, pollAgain, State.statusWord_getLsbD, if_pos rfl]

theorem State.pollStatus_eq (s : State) : s.pollStatus =
    if s.busy || s.inReset then { s with inputs := .pollIdle :: s.inputs, response := some (s.hostRead 0x008 .word) }
    else { s with response := some (s.hostRead 0x008 .word) } := by
  rw [State.pollStatus, State.transact_read, State.pollAgain_status]

theorem State.serve_writeBackXor (s : State) {d : Word} (h : s.response = some (.data d)) (a : Word) (mask : Byte) :
    s.serve (.writeBackXor a mask) = s.transact (.write a .byte (d ^^^ mask.setWidth 32)) := by
  have hdata : s.lastData = some d := by rw [State.lastData, h]
  rw [State.serve, hdata]

theorem State.serve_writeBackXor_of_no_data (s : State) (h : ∀ d, s.response ≠ some (.data d)) (a : Word)
    (mask : Byte) : s.serve (.writeBackXor a mask) = s := by
  have hdata : s.lastData = none := by
    unfold State.lastData
    split
    · exact absurd ‹_› (h _)
    · rfl
  rw [State.serve, hdata]

end Sys2Proof.Machine
end

section
/-! PROOFS. The statements on the registers, the decoder, the step and the reset state (spec/10_state.md section 2;
spec/30_encoding.md; spec/70_reset_and_hazards.md). -/

open Sys2Proof Sys2Proof.Machine

namespace Sys2Proof.Proofs

/-- Settles O48: an aligned offset that reaches a register is that register's own, and the writable ones are eight. -/
theorem readOnlyAndReservedAreInert : Obligations.ReadOnlyAndReservedAreInert := by
  unfold Obligations.ReadOnlyAndReservedAreInert
  intro s off hb hr hlt halign
  have hread := State.hostRead_regAddr hb hr
  refine ⟨fun ⟨hlow, hfreq⟩ v => ?_, fun hreserved => ?_, hread .id, hread .ctrl, hread .status, hread .cmd,
    hread .textLen, hread .recLen, hread .outLen, ?_, ?_, hread .crcOut, hread .errPos, ?_, ?_, ?_, ?_⟩
  · rw [State.hostWrite_aperture hb hr hlt halign, s.apertureWrite_inert halign hlow hfreq]
  · rw [State.hostRead_aperture hb hr hlt halign, State.apertureRead, regAt_reserved halign hreserved]
  · rw [← bitLen_low]
    exact hread .bitLenLo
  · rw [← bitLen_high]
    exact hread .bitLenHi
  · rw [BitVec.ofNat_toNat]
    exact hread .root
  · rw [BitVec.ofNat_toNat]
    exact hread .nodeCount
  · rw [BitVec.ofNat_toNat]
    exact hread .nodeSel
  · rw [BitVec.ofNat_toNat]
    exact hread .codeSel

/-- Settles O49: each write is the register's write rule, and each read its value after it. -/
theorem writableRegistersReadBack : Obligations.WritableRegistersReadBack := by
  unfold Obligations.WritableRegistersReadBack
  intro s v c hb hr
  have hwrite (r : Reg) := State.hostWrite_regAddr hb hr r v
  have hback (r : Reg) (hb' : (s.regWrite r v).busy = false) (hr' : (s.regWrite r v).inReset = false) :
      (s.hostWrite (regAddr r) .word v).1.hostRead (regAddr r) .word = .data ((s.regWrite r v).regValue r) := by
    rw [hwrite r]
    exact State.hostRead_regAddr hb' hr' r
  have hsel : (v.setWidth 9).setWidth 32 = v &&& 0x1FF := setWidth_setWidth_eq_and_mask v (n := 9) (by decide)
  rw [extractLsb'_zero_eq_setWidth, extractLsb'_zero_eq_setWidth, ← hsel, ← setWidth_setWidth_eq_and,
    ← s.ctrlWord_writeCtrl]
  exact ⟨hwrite .textLen, hwrite .recLen, hwrite .nodeSel, hwrite .codeSel, hwrite .ctrl,
    ⟨_, hwrite (.freq c), Table.at_put_same _ _ _, fun d hd => Table.at_put_other hd _ _⟩, hback .textLen hb hr,
    hback .recLen hb hr, hback .nodeSel hb hr, hback .codeSel hb hr, hback .ctrl hb hr,
    State.hostRead_regAddr hb hr (.freq c)⟩

/-- Settles O1, by computing the decoder on each word. -/
theorem opcodeMapWordsDecode : Obligations.OpcodeMapWordsDecode := by
  unfold Obligations.OpcodeMapWordsDecode
  decide

/-- Settles O2: a word decodes to a command exactly when it encodes it. -/
theorem encodeThenDecodeIsIdentity : Obligations.EncodeThenDecodeIsIdentity := by
  unfold Obligations.EncodeThenDecodeIsIdentity
  exact fun i => decode_eq_ok_iff.2 rfl

/-- Settles O5: each clause is the step of one turn; what an input does is `State.serve` on the state that has one
input less to come. -/
theorem stepRunsTheDecodedCommand : Obligations.StepRunsTheDecodedCommand := by
  unfold Obligations.StepRunsTheDecodedCommand
  refine ⟨fun s w i hb hr hp hmove hd => ?_, ?_, fun s hi hidle => ?_⟩
  · exact step_of_turn_engine (State.turn_eq_engine.2 ⟨State.fetched_eq_some.2 ⟨hb, hr, hp⟩, hmove⟩) hd
  · intro s e rest hi hwait q
    have hstep : step s = .next (q.serve e) := by
      rw [step_of_turn_input (State.turn_eq_input_of_waiting hi hwait), State.serveInput, State.countLatency_eq]
    refine ⟨fun a size he => ?_, fun a size v he => ?_, fun b he => he ▸ hstep, fun he => ?_, fun a mask he => ?_⟩
    · subst he
      exact hstep
    · subst he
      exact hstep
    · subst he
      rw [hstep, State.serve, State.pollStatus_eq]
      refine ⟨fun hb hr => ?_, fun hagain => ?_⟩
      · rw [if_neg (by simp [q, hb, hr]), State.hostRead_status (s := q) hr]
        rfl
      · rw [if_pos (by simpa [q] using hagain)]
        rfl
    · subst he
      rw [hstep]
      refine ⟨fun d hd => ?_, fun hnone => ?_⟩
      · rw [q.serve_writeBackXor hd]
        rfl
      · rw [q.serve_writeBackXor_of_no_data hnone]
  · exact step_of_turn_idle (State.turn_eq_idle.2 ⟨State.fetched_eq_none hidle, hi⟩)

/-- Settles O6: the placed word is pending in a state the engine moves in. -/
theorem placedWordIsExecutedNext : Obligations.PlacedWordIsExecutedNext := by
  unfold Obligations.PlacedWordIsExecutedNext
  intro s i
  have hword : BitVec.ofNat 32 ((encode i).toNat % 2 ^ 32) = encode i := by
    rw [Nat.mod_eq_of_lt (encode i).isLt, BitVec.ofNat_toNat, BitVec.setWidth_eq]
  rw [State.withFetchWord, hword]
  exact step_of_turn_engine (State.turn_eq_engine.2 ⟨State.fetched_eq_some.2 ⟨rfl, rfl, rfl⟩, .inr rfl⟩)
    (decode_eq_ok_iff.2 rfl)

/-- Settles O9, by whose turn it is. -/
theorem everyStepAnswersNext : Obligations.EveryStepAnswersNext := by
  unfold Obligations.EveryStepAnswersNext
  intro s
  cases hturn : s.turn with
  | engine w =>
    obtain ⟨r, e, p, hstep⟩ := step_completes_of_turn_engine hturn
    exact ⟨_, hstep⟩
  | input e rest => exact ⟨_, step_of_turn_input hturn⟩
  | idle => exact ⟨_, step_of_turn_idle hturn⟩

/-- Settles O52: both words are concatenations, read bit by bit. -/
theorem statusAndCtrlBits : Obligations.StatusAndCtrlBits := by
  unfold Obligations.StatusAndCtrlBits
  exact ⟨by decide, fun s k _ => ⟨s.statusWord_getLsbD k, s.ctrlWord_getLsbD k⟩⟩

/-- Settles O55: with nothing pending and no input to come nothing moves, and nothing has been written. -/
theorem resetStateIsIdle : Obligations.ResetStateIsIdle := by
  unfold Obligations.ResetStateIsIdle
  have hturn : State.reset.turn = .idle := State.turn_eq_idle.2 ⟨rfl, rfl⟩
  refine ⟨State.resetWith_regValue Config.params 0, rfl, hturn, step_of_turn_idle hturn, fun sp i => ?_,
    State.resetWith_codes_at Config.params 0⟩
  cases sp <;> rfl

end Sys2Proof.Proofs
end
